-- ==== Sys2Proof/Word.lean ====
section
/-! DEFINITION. The word types of the block and their plainest readings (00_scope.md R6). -/

namespace Sys2Proof

/-- A 32-bit bus word, address, count or counter (R5 `REG_BYTES`, `ADDR_BITS`, `COUNT_BITS`). -/
abbrev Word := BitVec 32

/-- One byte of the address space (R17). -/
abbrev Byte := BitVec 8

/-- A raw fixed-point value: the 16-bit pattern of an FX8 or an FX9 (R80, R81); `BitVec.toInt` is R6's `s16`. -/
abbrev Fx := BitVec 16

/-- R6 `wrap16`: the signed 16-bit value congruent to `n` modulo 65536. -/
abbrev wrap16 (n : Int) : Fx := BitVec.ofInt 16 n

/-- The number of bytes of the 32-bit bus address space (R17, R29). -/
abbrev addressSpace : Nat := 4294967296

end Sys2Proof
end

