-- ==== Sys2Proof/Syntax.lean ====
section
/-! DEFINITION. The operations of the block: one constructor of `Instr` per row of spec/opcode_table.json
(30_encoding.md R62), and the names their operands use. -/

namespace Sys2Proof

/-- An accelerator instance k, under the component name the diagnostic gives it (R9, R201). -/
inductive InstId where
  | acc0
  | acc1
  deriving DecidableEq, Repr, Inhabited

/-- A worker context w (R9, R181). -/
inductive WorkerId where
  | w0
  | w1
  deriving DecidableEq, Repr, Inhabited

/-- Whatever takes a step (R9, R210): two workers and two engine processes. -/
inductive Agent where
  | worker (w : WorkerId)
  | engine (k : InstId)
  deriving DecidableEq, Repr, Inhabited

/-- The direction of a transaction: bit `cmd` of the descriptor (R61). -/
inductive Dir where
  | read
  | write
  deriving DecidableEq, Repr

/-- A barrier's identity: the addresses of its three words (R20). -/
structure Barrier where
  counter : Word
  gateLock : Word
  releaseSem : Word
  deriving DecidableEq, Repr

/-- The 26 operations of R62. `k` is the instance a transaction was dispatched to (R63); the operands of the
primitives are arguments of the call, not fields of a word (R67). The data field of a read is no input (R61), so
the reads do not carry it. -/
inductive Instr where
  /-- `WR_A`, R121. -/
  | wrA (k : InstId) (w : Word)
  /-- `WR_B`, R122. -/
  | wrB (k : InstId) (w : Word)
  /-- `WR_Z`, R123. -/
  | wrZ (k : InstId) (w : Word)
  /-- `RD_A`, R124. -/
  | rdA (k : InstId)
  /-- `RD_B`, R125. -/
  | rdB (k : InstId)
  /-- `RD_Z`, R129. -/
  | rdZ (k : InstId)
  /-- `BAD_WR`, R127. -/
  | badWr (k : InstId) (off : Word) (w : Word)
  /-- `BAD_RD`, R128. -/
  | badRd (k : InstId) (off : Word)
  /-- `ENGINE_STEP` of engine process E_k, R130. -/
  | engineStep (k : InstId)
  /-- `ROTATE`, R100 with mode false. -/
  | rotate (x0 y0 t0 : Fx)
  /-- `VECTOR`, R105. -/
  | vector (x0 y0 t0 : Fx)
  /-- `DMA_SRC`, R171. -/
  | dmaSrc (v : Word)
  /-- `DMA_DST`, R172. -/
  | dmaDst (v : Word)
  /-- `DMA_LEN`, R173. -/
  | dmaLen (v : Word)
  /-- `DMA_OP_NOP`, R174. -/
  | dmaOpNop
  /-- `DMA_OP_COPY`, R175. -/
  | dmaOpCopy
  /-- `DMA_RESERVED`, R178: any other descriptor sent to the bulk transfer block. -/
  | dmaReserved (cmd : Dir) (off : Word) (data : Word)
  /-- `CAS32`, R140. -/
  | cas32 (addr expect new : Word)
  /-- `SEM_INIT`, R141. -/
  | semInit (s n : Word)
  /-- `SEM_WAIT`, R142. -/
  | semWait (s : Word)
  /-- `SEM_POST`, R143. -/
  | semPost (s : Word)
  /-- `MUTEX_INIT`, R144. -/
  | mutexInit (m : Word)
  /-- `MUTEX_LOCK`, R145. -/
  | mutexLock (m : Word)
  /-- `MUTEX_UNLOCK`, R146. -/
  | mutexUnlock (m : Word)
  /-- `BARRIER_INIT`, R148. -/
  | barrierInit (b : Barrier) (capacity : Word)
  /-- `BARRIER_ENTER`, R149. -/
  | barrierEnter (b : Barrier)
  deriving DecidableEq, Repr

/-- Who decodes a descriptor (R60, R63): an accelerator instance, the bulk transfer block, the engine function,
a worker's call of a primitive; `internal k` is the one row without a descriptor, an event of E_k. -/
inductive Target where
  | acc (k : InstId)
  | dma
  | eng
  | prim
  | internal (k : InstId)
  deriving DecidableEq, Repr

/-- What a worker issues (R71, R74). `bus` is a transaction by bus address, which the substrate dispatches by
address range (R63) to a device or, for `LD` and `ST`, to shared memory; `len` is its length in bytes, and the
low `len` bytes of `data` are what a write carries. `descriptor` is a descriptor as its decoder receives it, the
device already selected (R61), or a call of a primitive or of the engine function; log entry 1. -/
inductive Request where
  | bus (dir : Dir) (addr : Word) (len : Nat) (data : Word)
  | descriptor (t : Target) (bytes : List Byte)
  deriving DecidableEq, Repr

end Sys2Proof
end

