-- ==== Sys2Proof/WellFormed.lean ====
section
/-! DEFINITION. Well-formed operations: those an encoding of 30_encoding.md stands for, with operands the rules
admit. -/

namespace Sys2Proof

/-- A 4-byte-aligned address (R42). -/
def aligned4 (a : Word) : Bool := a.toNat % 4 == 0

/-- The offsets a write transaction has a register at (R62). -/
def isWriteReg (off : Word) : Bool := off == 0x00 || off == 0x04 || off == 0x08

/-- The offsets a read transaction has a register at (R62). -/
def isReadReg (off : Word) : Bool := off == 0x0c || off == 0x10 || off == 0x14

/-- The five write forms of R65, which `DMA_RESERVED` does not cover. -/
def isDmaForm (cmd : Dir) (off data : Word) : Bool :=
  cmd == .write && (off == 0x00 || off == 0x04 || off == 0x08 || (off == 0x0c && (data == 0 || data == 1)))

/-- R20: three aligned words, pairwise different. -/
def Barrier.wf (b : Barrier) : Bool :=
  aligned4 b.counter && aligned4 b.gateLock && aligned4 b.releaseSem &&
    b.counter != b.gateLock && b.counter != b.releaseSem && b.gateLock != b.releaseSem

/-- The operands of an operation are ones its rule admits: a misuse offset names no register of that direction
(R64), a reserved form is none of the five (R65), a word of a primitive is aligned (R42), a capacity is at
least 1 (R148). -/
def Instr.wf : Instr → Bool
  | .wrA _ _ => true
  | .wrB _ _ => true
  | .wrZ _ _ => true
  | .rdA _ => true
  | .rdB _ => true
  | .rdZ _ => true
  | .badWr _ off _ => !isWriteReg off
  | .badRd _ off => !isReadReg off
  | .engineStep _ => true
  | .rotate _ _ _ => true
  | .vector _ _ _ => true
  | .dmaSrc _ => true
  | .dmaDst _ => true
  | .dmaLen _ => true
  | .dmaOpNop => true
  | .dmaOpCopy => true
  | .dmaReserved cmd off data => !isDmaForm cmd off data
  | .cas32 addr _ _ => aligned4 addr
  | .semInit s _ => aligned4 s
  | .semWait s => aligned4 s
  | .semPost s => aligned4 s
  | .mutexInit m => aligned4 m
  | .mutexLock m => aligned4 m
  | .mutexUnlock m => aligned4 m
  | .barrierInit b capacity => b.wf && capacity != 0
  | .barrierEnter b => b.wf

end Sys2Proof
end

