-- ==== Sys2Proof/Decode.lean ====
section
/-! DEFINITION. Decoding descriptors (30_encoding.md) and, after it, encoding them. The descriptor of R61, the mode
bit of R66 and the selector of R67 are laid out in whole bytes, the least significant byte first (R40); the bits
that fill the last byte are 0. The operands of `ROTATE`, `VECTOR` and the primitives, which are arguments of a call
and no field of a word (R67), follow as 2-byte and 4-byte values; log entry 16. -/

namespace Sys2Proof

/-- Why a descriptor names no operation. -/
inductive DecodeError where
  /-- Not as many bytes as the format has (R60: one length per format). -/
  | wrongLength
  /-- A bit above the descriptor's last bit is set. -/
  | reservedBits
  /-- A selector from 0x9 to 0xf, which names no operation (R67). -/
  | unassignedSelector
  deriving DecidableEq, Repr

/-- Four bytes as a word, the first the least significant (R40, R68). -/
def le4 (b0 b1 b2 b3 : Byte) : Word := b3 ++ b2 ++ b1 ++ b0

/-- Two bytes as a raw fixed-point value, the first the least significant. -/
def le2 (b0 b1 : Byte) : Fx := b1 ++ b0

/-- Byte `i` of a word, byte 0 the least significant (R40). -/
def byteAt (w : Word) (i : Nat) : Byte := w.extractLsb' (8 * i) 8

/-- The four bytes of a word in the order of their addresses (R40). -/
def bytes4 (w : Word) : List Byte := [byteAt w 0, byteAt w 1, byteAt w 2, byteAt w 3]

/-- The two bytes of a raw fixed-point value, least significant first. -/
def bytes2 (r : Fx) : List Byte := [r.extractLsb' 0 8, r.extractLsb' 8 8]

/-! ### Format BUS -/

/-- What a transaction does to the device it was dispatched to, operands apart. -/
inductive AccOp where
  | wrA
  | wrB
  | wrZ
  | rdA
  | rdB
  | rdZ
  | badWr
  | badRd
  deriving DecidableEq, Repr

/-- R64 `decode_acc`: by equality on direction and offset, first match; nothing is masked off (R126). -/
def accOp (cmd : Dir) (off : Word) : AccOp :=
  match cmd with
  | .write =>
    if off = 0x00 then .wrA else if off = 0x04 then .wrB else if off = 0x08 then .wrZ else .badWr
  | .read =>
    if off = 0x0c then .rdA else if off = 0x10 then .rdB else if off = 0x14 then .rdZ else .badRd

/-- R64 with the operands: the operation instance k performs. -/
def decodeAcc (k : InstId) (cmd : Dir) (off data : Word) : Instr :=
  match accOp cmd off with
  | .wrA => .wrA k data
  | .wrB => .wrB k data
  | .wrZ => .wrZ k data
  | .rdA => .rdA k
  | .rdB => .rdB k
  | .rdZ => .rdZ k
  | .badWr => .badWr k off data
  | .badRd => .badRd k off

/-- R65 `decode_dma`: first match. -/
def decodeDma (cmd : Dir) (off data : Word) : Instr :=
  match cmd with
  | .read => .dmaReserved .read off data
  | .write =>
    if off = 0x00 then .dmaSrc data
    else if off = 0x04 then .dmaDst data
    else if off = 0x08 then .dmaLen data
    else if off = 0x0c ∧ data = 0 then .dmaOpNop
    else if off = 0x0c ∧ data = 1 then .dmaOpCopy
    else .dmaReserved .write off data

/-- The fields `cmd`, `off`, `data` of a 65-bit descriptor (R61) in its nine bytes. -/
def busFields : List Byte → Except DecodeError (Dir × Word × Word)
  | [d0, d1, d2, d3, o0, o1, o2, o3, c] =>
    if c = 0 then .ok (.read, le4 o0 o1 o2 o3, le4 d0 d1 d2 d3)
    else if c = 1 then .ok (.write, le4 o0 o1 o2 o3, le4 d0 d1 d2 d3)
    else .error .reservedBits
  | _ => .error .wrongLength

/-! ### Formats ENG and PRIM -/

/-- R66: the mode bit, 0 `ROTATE`, 1 `VECTOR`, with the three operands of R100. -/
def decodeEng : List Byte → Except DecodeError Instr
  | [m, x0, x1, y0, y1, t0, t1] =>
    if m = 0 then .ok (.rotate (le2 x0 x1) (le2 y0 y1) (le2 t0 t1))
    else if m = 1 then .ok (.vector (le2 x0 x1) (le2 y0 y1) (le2 t0 t1))
    else .error .reservedBits
  | _ => .error .wrongLength

/-- Bytes as words, four at a time. -/
def wordsOf : List Byte → Option (List Word)
  | [] => some []
  | b0 :: b1 :: b2 :: b3 :: rest => (wordsOf rest).map (le4 b0 b1 b2 b3 :: ·)
  | _ => none

/-- R67: the selector and the arguments of the call. -/
def primOf (sel : Nat) (args : List Word) : Except DecodeError Instr :=
  match sel, args with
  | 0, [s, n] => .ok (.semInit s n)
  | 1, [s] => .ok (.semWait s)
  | 2, [s] => .ok (.semPost s)
  | 3, [m] => .ok (.mutexInit m)
  | 4, [m] => .ok (.mutexLock m)
  | 5, [m] => .ok (.mutexUnlock m)
  | 6, [c, g, r, capacity] => .ok (.barrierInit ⟨c, g, r⟩ capacity)
  | 7, [c, g, r] => .ok (.barrierEnter ⟨c, g, r⟩)
  | 8, [addr, expect, new] => .ok (.cas32 addr expect new)
  | n, _ => if n < 9 then .error .wrongLength else if n < 16 then .error .unassignedSelector else .error .reservedBits

/-- A primitive's selector byte and the bytes of its arguments. -/
def decodePrim : List Byte → Except DecodeError Instr
  | [] => .error .wrongLength
  | sel :: rest =>
    match wordsOf rest with
    | some args => primOf sel.toNat args
    | none => .error .wrongLength

/-- The operation a descriptor stands for, given who decodes it: total on any bytes, rejecting by name. -/
def decode (t : Target) (bytes : List Byte) : Except DecodeError Instr :=
  match t with
  | .acc k =>
    match busFields bytes with
    | .ok (cmd, off, data) => .ok (decodeAcc k cmd off data)
    | .error e => .error e
  | .dma =>
    match busFields bytes with
    | .ok (cmd, off, data) => .ok (decodeDma cmd off data)
    | .error e => .error e
  | .eng => decodeEng bytes
  | .prim => decodePrim bytes
  | .internal k => if bytes = [] then .ok (.engineStep k) else .error .wrongLength

/-! ### Encoding -/

/-- Bit `cmd` of the descriptor in its byte (R61). -/
def cmdByte : Dir → Byte
  | .read => 0
  | .write => 1

/-- R61: `{cmd, off, data}` in nine bytes. -/
def busBytes (cmd : Dir) (off data : Word) : List Byte := bytes4 data ++ bytes4 off ++ [cmdByte cmd]

/-- R67: the selector and the arguments. -/
def primBytes (sel : Byte) (args : List Word) : List Byte := sel :: (args.map bytes4).flatten

/-- Who decodes an operation's descriptor, and its bytes. The data field of a read, no input (R61), is 0. -/
def encode : Instr → Target × List Byte
  | .wrA k w => (.acc k, busBytes .write 0x00 w)
  | .wrB k w => (.acc k, busBytes .write 0x04 w)
  | .wrZ k w => (.acc k, busBytes .write 0x08 w)
  | .rdA k => (.acc k, busBytes .read 0x0c 0)
  | .rdB k => (.acc k, busBytes .read 0x10 0)
  | .rdZ k => (.acc k, busBytes .read 0x14 0)
  | .badWr k off w => (.acc k, busBytes .write off w)
  | .badRd k off => (.acc k, busBytes .read off 0)
  | .engineStep k => (.internal k, [])
  | .rotate x0 y0 t0 => (.eng, 0 :: (bytes2 x0 ++ bytes2 y0 ++ bytes2 t0))
  | .vector x0 y0 t0 => (.eng, 1 :: (bytes2 x0 ++ bytes2 y0 ++ bytes2 t0))
  | .dmaSrc v => (.dma, busBytes .write 0x00 v)
  | .dmaDst v => (.dma, busBytes .write 0x04 v)
  | .dmaLen v => (.dma, busBytes .write 0x08 v)
  | .dmaOpNop => (.dma, busBytes .write 0x0c 0)
  | .dmaOpCopy => (.dma, busBytes .write 0x0c 1)
  | .dmaReserved cmd off data => (.dma, busBytes cmd off data)
  | .cas32 addr expect new => (.prim, primBytes 8 [addr, expect, new])
  | .semInit s n => (.prim, primBytes 0 [s, n])
  | .semWait s => (.prim, primBytes 1 [s])
  | .semPost s => (.prim, primBytes 2 [s])
  | .mutexInit m => (.prim, primBytes 3 [m])
  | .mutexLock m => (.prim, primBytes 4 [m])
  | .mutexUnlock m => (.prim, primBytes 5 [m])
  | .barrierInit b capacity => (.prim, primBytes 6 [b.counter, b.gateLock, b.releaseSem, capacity])
  | .barrierEnter b => (.prim, primBytes 7 [b.counter, b.gateLock, b.releaseSem])

/-! ### The table's numbers -/

/-- How many arguments the primitive with a selector takes (R140 to R149). -/
def primArgs (sel : Nat) : Nat :=
  match sel with
  | 0 => 2
  | 1 => 1
  | 2 => 1
  | 3 => 1
  | 4 => 1
  | 5 => 1
  | 6 => 4
  | 7 => 3
  | 8 => 3
  | _ => 0

/-- Who decodes a number of the opcode table. The bits do not say it (R63: the device is selected before decode),
so the table's width does: none for the internal event of E_0, 1 for ENG, up to a byte for PRIM, else BUS; and of
the two devices that decode a BUS word, the bulk transfer block for the two words only it has a row of its own
for, else instance 0; log entry 16. -/
def tableTarget (nbits w : Nat) : Target :=
  if nbits = 0 then .internal .acc0
  else if nbits = 1 then .eng
  else if nbits ≤ 8 then .prim
  else if w = 0x10000000c00000000 ∨ w = 0x10000000c00000001 then .dma
  else .acc .acc0

/-- How many bytes the descriptor has that begins with the table's number. -/
def tableLength (t : Target) (w : Nat) : Nat :=
  match t with
  | .acc _ => 9
  | .dma => 9
  | .eng => 7
  | .prim => 1 + 4 * primArgs (w % 256)
  | .internal _ => 0

/-- The `n` low bytes of a number, least significant first. -/
def natBytes : Nat → Nat → List Byte
  | 0, _ => []
  | n + 1, w => BitVec.ofNat 8 w :: natBytes n (w / 256)

/-- The descriptor for a number of the opcode table: its low `nbits` bits, every bit above them 0. -/
def tableDescriptor (nbits w : Nat) : Target × List Byte :=
  let w := w % 2 ^ nbits
  let t := tableTarget nbits w
  (t, natBytes (tableLength t w) w)

/-- The operation the decoder reads from a number of spec/opcode_table.json. -/
def decodeTableWord (nbits w : Nat) : Option Instr :=
  match decode (tableDescriptor nbits w).1 (tableDescriptor nbits w).2 with
  | .ok i => some i
  | .error _ => none

end Sys2Proof
end

