-- ==== Sys2Proof/Config.lean ====
section
/-! DEFINITION. What the spec leaves open and nothing in Lean can know: the free values. Each is a constant with
no body, so that a statement about it holds whatever it is. -/

namespace Sys2Proof

/-- R90 `draw_16()`: the element a NaN or an infinity becomes, for the n-th value drawn; log entry 9. -/
opaque Config.draw16 : Nat → Fx

/-- R128 `draw_32()`: the word a protocol-misuse read returns, for the n-th value drawn; log entry 9. -/
opaque Config.draw32 : Nat → Word

/-- The agent that takes turn n when no schedule is supplied (R27, R153: the scheduler's choice); log entry 2. -/
opaque Config.schedule : Nat → Agent

end Sys2Proof
end

