-- ==== Sys2Proof/Machine/State.lean ====
section
/-! DEFINITION. The state of the block (10_state.md) as plain data, the state after reset (R30, R220), and the
reasons a run stops. -/

namespace Sys2Proof.Machine

/-- The micro-program counter of engine process E_k: its one architecturally relevant value, the top of the loop
(R24). -/
inductive EnginePc where
  | idle
  deriving DecidableEq, Repr

/-- One accelerator instance: six channels, each an unbounded list of raw values, head first (R12, R13, R33), and
the micro-pc of its engine process (R24). -/
structure Accel where
  inA : List Fx
  inB : List Fx
  inZ : List Fx
  outA : List Fx
  outB : List Fx
  outZ : List Fx
  epc : EnginePc
  deriving DecidableEq, Repr

/-- A record of the diagnostic log: component, offending window-relative offset, direction (R16, R201). -/
structure Diag where
  component : InstId
  addr : Word
  dir : Dir
  deriving DecidableEq, Repr

/-- The four bulk transfer registers (R21). -/
structure Dma where
  src : Word
  dst : Word
  len : Word
  op : Word
  deriving DecidableEq, Repr

/-- The micro-program counter of a worker's invocation (R25): the labels of R142 (`w1`, `w2`), R143 (`p1`, `p2`),
R148 (`n2`, `n3`; its first step N1 is `start`), R149 (`b1w1` to `b8w2`), and the three kinds of step of the copy of
R176. `start` is no invocation in progress, the next operation being at its first label. -/
inductive Label where
  | start
  | w1
  | w2
  | p1
  | p2
  | n2
  | n3
  | b1w1
  | b1w2
  | b2
  | b3
  | b4p1
  | b4p2
  | b5p1
  | b5p2
  | b6
  | b7p1
  | b7p2
  | b8w1
  | b8w2
  | copyByte
  | copyRead
  | copyWrite
  deriving DecidableEq, Repr

/-- The local state of an invocation (R22). The spec gives these no value before the step that first writes them;
here they are then 0 and false, which no step reads; log entry 6. -/
structure Locals where
  old : Word
  ok : Bool
  c : Word
  n : Word
  deriving DecidableEq, Repr

/-- No invocation's local state. -/
def Locals.none : Locals := ⟨0, false, 0, 0⟩

/-- A bulk copy in progress (R175, R176): the TransferRequest read from the registers once, the bytes already
copied, and the word read and not yet written. -/
structure Copy where
  src : Word
  dst : Word
  len : Word
  done : Nat
  buf : Word
  deriving DecidableEq, Repr

/-- No copy in progress. -/
def Copy.none : Copy := ⟨0, 0, 0, 0, 0⟩

/-- What a completed operation gives back to its worker (R32, R56, R120): a success status, a success status with a
word, `CAS32`'s boolean, a primitive's return, or the triple of a call of the engine function. -/
inductive Ret where
  | ok
  | word (w : Word)
  | flag (b : Bool)
  | done
  | triple (x y t : Fx)
  deriving DecidableEq, Repr

/-- One worker: what it will issue next (log entry 1), its outstanding operation if any (R23, R25), that
invocation's micro-pc, local state and copy, and what it has been given back so far, oldest first (log entry 26). -/
structure Worker where
  script : List Request
  cur : Option Instr
  pc : Label
  locals : Locals
  copy : Copy
  returned : List Ret
  deriving DecidableEq, Repr

/-- The parameter `QUANT` (R5, decision D1): which way a quotient is rounded to a raw integer. The spec takes
`floor`; `towardZero` is the other reading that R85 names; log entry 34. -/
inductive Quant where
  | floor
  | towardZero
  deriving DecidableEq, Repr

/-- The parameter `PRE_MODE` (R5, decision D6): the spec takes `conditional` and writes `always` out too. -/
inductive PreMode where
  | conditional
  | always
  deriving DecidableEq, Repr

/-- The parameters of the engine's numerics that the step takes (R27): the table `ATAN`, a raw FX9 constant for each
micro-rotation (R108), `K_GAIN` as a fraction (R87), `QUANT` and `PRE_MODE`; log entry 34. -/
structure EngineConfig where
  atan : Vector Fx 7
  gainNum : Nat
  gainDen : Nat
  quant : Quant
  preMode : PreMode
  deriving DecidableEq, Repr

/-- The platform's parameters (R27): those that the spec leaves OPEN (R5, R17, R46, R58), and the engine's. No step
writes them; they stand in the state so that a statement about every state is one about every admitted value; log
entries 4, 5 and 34. -/
structure Platform where
  accBase0 : Word
  accBase1 : Word
  windowSize : Word
  dmaBase : Word
  memBase : Nat
  memSize : Nat
  busHeld : Bool
  engine : EngineConfig
  deriving DecidableEq, Repr

/-- The whole state (R10). -/
structure State where
  inst0 : Accel
  inst1 : Accel
  log : List Diag
  mem : List Host.Cell
  semWords : List Nat
  barriers : List (Barrier × Word)
  dma : Dma
  worker0 : Worker
  worker1 : Worker
  plat : Platform
  sched : List Agent
  turns : Nat
  active : WorkerId
  draws : Nat
  deriving DecidableEq, Repr

/-- Why a step stops with a fault. The block itself faults on nothing (R200). -/
inductive Fault where
  /-- Raised by a worker's own load or store whose bytes are not all in shared memory, in no device's range either
  or partly in one: an access that never reaches the block, which the spec leaves to the substrate (R47). Safe: the
  run stops where the platform might go on. Log entry 25. -/
  | outsideMemory
  deriving DecidableEq, Repr

/-- Why a step gives no meaning. All are safe: no statement speaks of a run that reaches one (R213). -/
inductive Refusal where
  /-- Raised by `exec` for an instruction that has no meaning in the model. Safe. -/
  | notModelled (mnemonic : String)
  /-- Raised by `DMA_RESERVED` (R178). Safe. -/
  | dmaReserved
  /-- Raised by a transaction to a device whose length is not 4, or to memory whose length is not 1 to 4 (R43).
  Safe. -/
  | transactionLength
  /-- Raised by `DMA_OP_COPY` when its two ranges share a byte (R177). Safe. -/
  | bulkOverlap
  /-- Raised by `DMA_OP_COPY` when a range passes address 0xffffffff (R177). Safe. -/
  | bulkWraps
  /-- Raised by `DMA_OP_COPY` to or from a device when an address or the length is no multiple of 4 (R176). Safe. -/
  | bulkUnaligned
  /-- Raised by `DMA_OP_COPY` when a range is neither inside one window nor wholly in shared memory (R176). Safe. -/
  | bulkStraddles
  /-- Raised by a primitive on a word that is not 4-byte aligned (R42). Safe. -/
  | misalignedWord
  /-- Raised by a primitive on a word that is not in shared memory, where the spec defines none (R18, R140). Safe. -/
  | notSharedMemory
  /-- Raised by a wait or a post on a word no `SEM_INIT` has written (R141). Safe. -/
  | semNotInitialised
  /-- Raised by a post that reads the count 0xffffffff (R143). Safe. -/
  | countOverflow
  /-- Raised by `BARRIER_INIT` with capacity 0 (R148). Safe. -/
  | capacityZero
  /-- Raised by `BARRIER_ENTER` on a barrier no `BARRIER_INIT` has completed on (R148). Safe. -/
  | barrierNotInitialised
  /-- Raised when a worker's script holds bytes that decode to no operation (R69). Safe. -/
  | undecodable
  /-- Raised when a worker's script asks for an `ENGINE_STEP`, which no software can issue (R130). Safe. -/
  | notIssuable
  deriving DecidableEq, Repr

/-- An instance at reset: empty channels, the engine process at the top of its loop (R30). -/
def Accel.reset : Accel := ⟨[], [], [], [], [], [], .idle⟩

/-- A worker at reset: no transaction outstanding, no primitive in progress (R30), nothing to issue yet. -/
def Worker.reset : Worker := ⟨[], none, .start, .none, .none, []⟩

/-- The values that this spec takes for the engine's parameters (R5): the table of R108, the constant of R87, floor,
conditional; log entries 10 to 12. -/
def EngineConfig.default : EngineConfig :=
  { atan := #v[5760, 3400, 1796, 912, 457, 229, 114], gainNum := 6072776441, gainDen := 10000000000
    quant := .floor, preMode := .conditional }

/-- The platform's numbers at reset. The spec gives no addresses (R46, N10): these are the model's, log entries 4 and
5; the engine's parameters are the spec's. -/
def Platform.reset : Platform :=
  { accBase0 := 0x50000000, accBase1 := 0x60000000, windowSize := 0x100, dmaBase := 0x70000000
    memBase := 0, memSize := addressSpace, busHeld := false, engine := .default }

/-- The launch state (R220) of a platform, with the bytes of memory and the ready word (R226) a launch supplies. -/
def State.launch (p : Platform) (memory : List Host.Cell) (ready : List Nat) : State :=
  { inst0 := .reset, inst1 := .reset, log := [], mem := memory, semWords := ready, barriers := []
    dma := ⟨0, 0, 0, 0⟩, worker0 := .reset, worker1 := .reset, plat := p
    sched := [], turns := 0, active := .w0, draws := 0 }

/-- The machine right after reset (R30), on the platform of `Platform.reset`, no byte of memory listed. -/
def State.reset : State := State.launch .reset [] []

end Sys2Proof.Machine
end

