-- ==== Sys2Proof/Machine/Fixed.lean ====
section
/-! DEFINITION. Fixed-point arithmetic (40_fixed_point.md section 2): 16-bit two's complement, wrapping, rounded as
`QUANT` says; log entries 10 and 11. -/

namespace Sys2Proof.Machine

/-- R82: addition on raw integers, wrapping. -/
def fxAdd (a b : Fx) : Fx := wrap16 (a.toInt + b.toInt)

/-- R83: negation, wrapping at -32768. -/
def fxNeg (a : Fx) : Fx := wrap16 (-a.toInt)

/-- R84: subtraction, wrapping. -/
def fxSub (a b : Fx) : Fx := wrap16 (a.toInt - b.toInt)

/-- The integer that the quotient `n / d` is rounded to: R6 `floor`, or toward zero (`QUANT`, decision D1). -/
def quantize (q : Quant) (n d : Int) : Int :=
  match q with
  | .floor => n / d
  | .towardZero => n.tdiv d

/-- `K_GAIN` is a number: its denominator is not 0 (R5). -/
def EngineConfig.ok (c : EngineConfig) : Bool := c.gainDen != 0

/-- R85: right shift, the quantised quotient by 2^n. -/
def fxAsr (q : Quant) (a : Fx) (n : Nat) : Fx := wrap16 (quantize q a.toInt ((2 : Int) ^ n))

/-- R87: the exact product by `K_GAIN`, quantised once. -/
def fxGain (c : EngineConfig) (a : Fx) : Fx := wrap16 (quantize c.quant (a.toInt * c.gainNum) c.gainDen)

end Sys2Proof.Machine
end

