-- ==== Sys2Proof/Machine/Operands.lean ====
section
/-! DEFINITION. Operand forms: a register word as binary32 and its two conversions (40_fixed_point.md section 3),
and where an address lies (20_memory.md section 3). -/

namespace Sys2Proof.Machine

/-! ### Binary32 (R88) -/

/-- A binary32 datum: a finite value `(-1)^neg * mant * 2^(scale - 150)`, or none (R88). -/
inductive F32 where
  | finite (neg : Bool) (mant : Nat) (scale : Nat)
  | infinity (neg : Bool)
  | nan
  deriving DecidableEq, Repr

/-- R88 `f32_of_word`: sign bit 31, exponent bits 30 to 23, fraction bits 22 to 0. -/
def f32OfWord (w : Word) : F32 :=
  let neg := w.toNat / 2 ^ 31 % 2 == 1
  let e := w.toNat / 2 ^ 23 % 256
  let m := w.toNat % 2 ^ 23
  if e = 255 then if m = 0 then .infinity neg else .nan
  else if e = 0 then .finite neg m 1
  else .finite neg (2 ^ 23 + m) e

/-- `v * 2^F` of the finite value `v = (-1)^neg * mant * 2^(scale - 150)`, quantised (R89). -/
def scaledValue (q : Quant) (F : Nat) (neg : Bool) (mant scale : Nat) : Int :=
  let m : Int := if neg then -(mant : Int) else (mant : Int)
  if 150 ≤ scale + F then m * (2 : Int) ^ (scale + F - 150) else quantize q m ((2 : Int) ^ (150 - (scale + F)))

/-- R89 `narrow_F`: none for a NaN or an infinity, whose element R90 leaves free. -/
def narrow (q : Quant) (F : Nat) (w : Word) : Option Fx :=
  match f32OfWord w with
  | .finite neg mant scale => some (wrap16 (scaledValue q F neg mant scale))
  | .infinity _ => none
  | .nan => none

/-- The position of the highest set bit of `a`, looked for from bit `fuel` down; 0 if none above it is set. -/
def topBit : Nat → Nat → Nat
  | 0, _ => 0
  | fuel + 1, a => if 2 ^ (fuel + 1) ≤ a then fuel + 1 else topBit fuel a

/-- R91 `word_of_f32(widen_F(r))`: the exact value `r / 2^F` as a binary32 word; raw 0 gives +0.0. -/
def widen (F : Nat) (r : Fx) : Word :=
  if r = 0 then 0
  else
    let sign := if r.toInt < 0 then 1 else 0
    let a := r.toInt.natAbs
    let h := topBit 15 a
    let m := a * 2 ^ (23 - h) % 2 ^ 23
    BitVec.ofNat 32 (sign * 2 ^ 31 + (127 + h - F) * 2 ^ 23 + m)

/-! ### Addresses (R46, R47, R63) -/

/-- `ACC_BASE[k]` (R46). -/
def Platform.accBase (p : Platform) (k : InstId) : Word :=
  match k with
  | .acc0 => p.accBase0
  | .acc1 => p.accBase1

/-- `a` lies in the `n` bytes from `lo`. -/
def within (a lo n : Nat) : Bool := decide (lo ≤ a) && decide (a < lo + n)

/-- The `n` bytes from `lo` and the `n'` bytes from `lo'` share a byte. -/
def overlaps (lo n lo' n' : Nat) : Bool := decide (lo < lo' + n') && decide (lo' < lo + n)

/-- The `n` bytes from `lo` all lie in the `n'` bytes from `lo'`. -/
def insideOf (lo n lo' n' : Nat) : Bool := decide (lo' ≤ lo) && decide (lo + n ≤ lo' + n')

/-- The bytes of the bulk transfer block: four registers (R46). -/
def dmaBytes : Nat := 16

/-- R47, R63: the address is in the window of instance k. -/
def Platform.inWindow (p : Platform) (k : InstId) (a : Nat) : Bool :=
  within a (p.accBase k).toNat p.windowSize.toNat

/-- R63: the address is in the bulk transfer block. -/
def Platform.inDma (p : Platform) (a : Nat) : Bool := within a p.dmaBase.toNat dmaBytes

/-- What an address is dispatched to. -/
inductive Device where
  | acc (k : InstId)
  | dma
  | memory
  | nowhere
  deriving DecidableEq, Repr

/-- R63: dispatch by address range. What is in no device's range is shared memory if the platform has memory there
(R17, R46), else nothing of this machine. -/
def Platform.deviceAt (p : Platform) (a : Nat) : Device :=
  if p.inWindow .acc0 a then .acc .acc0
  else if p.inWindow .acc1 a then .acc .acc1
  else if p.inDma a then .dma
  else if within a p.memBase p.memSize then .memory
  else .nowhere

/-- The `n` bytes from `lo` share a byte with a window or the bulk transfer block. -/
def Platform.touchesDevice (p : Platform) (lo n : Nat) : Bool :=
  overlaps lo n p.accBase0.toNat p.windowSize.toNat || overlaps lo n p.accBase1.toNat p.windowSize.toNat ||
    overlaps lo n p.dmaBase.toNat dmaBytes

/-- The `n` bytes from `lo` are all shared memory. -/
def Platform.memoryRange (p : Platform) (lo n : Nat) : Bool :=
  insideOf lo n p.memBase p.memSize && !p.touchesDevice lo n

/-- The `n` bytes from `lo` all lie in one window. -/
def Platform.windowRange (p : Platform) (lo n : Nat) : Bool :=
  insideOf lo n p.accBase0.toNat p.windowSize.toNat || insideOf lo n p.accBase1.toNat p.windowSize.toNat

/-- The constraints of R46 and decision D15 on the OPEN numbers: aligned bases, a window of at least 0x18 bytes,
every range inside the address space, the two windows and the bulk transfer block pairwise disjoint. -/
def Platform.ok (p : Platform) : Bool :=
  aligned4 p.accBase0 && aligned4 p.accBase1 && aligned4 p.dmaBase && decide (0x18 ≤ p.windowSize.toNat) &&
    decide (p.accBase0.toNat + p.windowSize.toNat ≤ addressSpace) &&
    decide (p.accBase1.toNat + p.windowSize.toNat ≤ addressSpace) &&
    decide (p.dmaBase.toNat + dmaBytes ≤ addressSpace) && decide (p.memBase + p.memSize ≤ addressSpace) &&
    !overlaps p.accBase0.toNat p.windowSize.toNat p.accBase1.toNat p.windowSize.toNat &&
    !overlaps p.accBase0.toNat p.windowSize.toNat p.dmaBase.toNat dmaBytes &&
    !overlaps p.accBase1.toNat p.windowSize.toNat p.dmaBase.toNat dmaBytes

/-- Why a primitive gives an address no meaning, if it does: misaligned (R42), or not a word of shared memory
(R18, R140). -/
def Platform.wordCheck (p : Platform) (a : Word) : Option Refusal :=
  if !aligned4 a then some .misalignedWord
  else if !p.memoryRange a.toNat 4 then some .notSharedMemory
  else none

end Sys2Proof.Machine
end

