-- ==== Sys2Proof/Machine/Ops.lean ====
section
/-! DEFINITION. The named operations over the state: instances, workers, memory, the diagnostic log (the block's one
exceptional event), free values, the semaphore words and barriers that are initialised, and the atomic primitive. -/

namespace Sys2Proof.Machine

/-- What an operation answers. -/
abbrev Result := Host.Outcome State Fault Refusal

/-! ### Instances and workers -/

/-- Instance k. -/
def State.inst (s : State) (k : InstId) : Accel :=
  match k with
  | .acc0 => s.inst0
  | .acc1 => s.inst1

/-- Replace instance k; the other instance keeps its state (R31). -/
def State.setInst (s : State) (k : InstId) (v : Accel) : State :=
  match k with
  | .acc0 => { s with inst0 := v }
  | .acc1 => { s with inst1 := v }

/-- Worker w. -/
def State.worker (s : State) (w : WorkerId) : Worker :=
  match w with
  | .w0 => s.worker0
  | .w1 => s.worker1

/-- Replace worker w. -/
def State.setWorker (s : State) (w : WorkerId) (v : Worker) : State :=
  match w with
  | .w0 => { s with worker0 := v }
  | .w1 => { s with worker1 := v }

/-- The other worker. -/
def otherWorker (w : WorkerId) : WorkerId :=
  match w with
  | .w0 => .w1
  | .w1 => .w0

/-- The worker whose operation is performed. -/
def State.self (s : State) : Worker := s.worker s.active

/-- Replace that worker. -/
def State.setSelf (s : State) (v : Worker) : State := s.setWorker s.active v

/-- The operation is complete: the worker gets its result and has nothing outstanding; the invocation's micro-pc,
local state and copy cease to exist (R22, R25). -/
def Worker.retire (v : Worker) (r : Ret) : Worker :=
  { v with cur := none, pc := .start, locals := .none, copy := .none, returned := v.returned ++ [r] }

/-- Retire the operation of the worker that performs it. -/
def State.retire (s : State) (r : Ret) : State := s.setSelf (s.self.retire r)

/-- The operation is not complete: it stays outstanding, its invocation at label `l` (R23, R25). -/
def State.goto (s : State) (i : Instr) (l : Label) : State := s.setSelf { s.self with cur := some i, pc := l }

/-- Write the invocation's local state (R22). -/
def State.setLocals (s : State) (v : Locals) : State := s.setSelf { s.self with locals := v }

/-- Write the copy in progress (R175). -/
def State.setCopy (s : State) (v : Copy) : State := s.setSelf { s.self with copy := v }

/-- Write the bulk transfer registers. -/
def State.setDma (s : State) (v : Dma) : State := { s with dma := v }

/-- Write the capacities of the initialised barriers. -/
def State.setBarriers (s : State) (v : List (Barrier × Word)) : State := { s with barriers := v }

/-- Write the addresses of the initialised semaphore words. -/
def State.setSemWords (s : State) (v : List Nat) : State := { s with semWords := v }

/-- Choose the worker whose operation is performed. -/
def State.setActive (s : State) (w : WorkerId) : State := { s with active := w }

/-! ### Free values -/

/-- One free value has been drawn; the next is another. -/
def State.drawn (s : State) : State := { s with draws := s.draws + 1 }

/-! ### The diagnostic (R201): the one exceptional event -/

/-- R201 `diag`: append one record; nothing else happens, no control is transferred (R205), and there is nothing to
return from (R207). -/
def State.diag (s : State) (k : InstId) (off : Word) (d : Dir) : State := { s with log := s.log ++ [⟨k, off, d⟩] }

/-! ### Memory -/

/-- The byte listed for an address, if one is. -/
def findByte : List Host.Cell → Nat → Option Byte
  | [], _ => none
  | (a, b) :: rest, x => if a = x then some b else findByte rest x

/-- What an address that is not listed reads as. The spec leaves the contents at launch to the platform (R17,
R30): a launch lists every byte that is not this one; log entry 3. -/
def unlistedByte : Byte := 0

/-- List a byte for an address, addresses rising. -/
def listByte : List Host.Cell → Nat → Byte → List Host.Cell
  | [], x, v => [(x, v)]
  | (a, b) :: rest, x, v =>
    if x < a then (x, v) :: (a, b) :: rest
    else if x = a then (x, v) :: rest
    else (a, b) :: listByte rest x v

/-- List no byte for an address. -/
def dropByte : List Host.Cell → Nat → List Host.Cell
  | [], _ => []
  | (a, b) :: rest, x => if a = x then dropByte rest x else (a, b) :: dropByte rest x

/-- Write a byte: list it, unless it is what an unlisted address reads as. -/
def putByte (m : List Host.Cell) (x : Nat) (v : Byte) : List Host.Cell :=
  if v = unlistedByte then dropByte m x else listByte m x v

/-- Every listed address is above `lo` and they rise. -/
def risesFrom : Nat → List Host.Cell → Bool
  | _, [] => true
  | lo, (a, _) :: rest => decide (lo ≤ a) && risesFrom (a + 1) rest

/-- The canonical form of memory: addresses strictly rising, each in the address space, none listed with what an
unlisted address reads as. -/
def Memory.wf (m : List Host.Cell) : Bool :=
  risesFrom 0 m && m.all (fun c => decide (c.1 < addressSpace) && c.2 != unlistedByte)

/-- The byte of shared memory at an address. -/
def State.loadByte (s : State) (a : Nat) : Byte := (findByte s.mem a).getD unlistedByte

/-- Write one byte. -/
def State.storeByte (s : State) (a : Nat) (b : Byte) : State := { s with mem := putByte s.mem a b }

/-- `MemRead(a, 4)`, little-endian (R7, R40). -/
def State.loadWord (s : State) (a : Nat) : Word :=
  le4 (s.loadByte a) (s.loadByte (a + 1)) (s.loadByte (a + 2)) (s.loadByte (a + 3))

/-- `MemWrite(a, n, v)`: the n low bytes of v, little-endian (R7, R40). -/
def State.storeBytes (s : State) (a : Nat) (v : Word) : Nat → State
  | 0 => s
  | n + 1 => (s.storeBytes a v n).storeByte (a + n) (byteAt v n)

/-- `MemWrite(a, 4, v)`. -/
def State.storeWord (s : State) (a : Nat) (v : Word) : State := s.storeBytes a v 4

/-- `MemRead(a, n)` for n up to 4, as an unsigned word (R7, R41). -/
def State.loadBytes (s : State) (a : Nat) (n : Nat) : Word :=
  le4 (if 0 < n then s.loadByte a else 0) (if 1 < n then s.loadByte (a + 1) else 0)
    (if 2 < n then s.loadByte (a + 2) else 0) (if 3 < n then s.loadByte (a + 3) else 0)

/-! ### The atomic primitive and the words it works on -/

/-- R140 in one step: the word is written only if it holds the expected value; no spurious failure. -/
def State.cas (s : State) (a : Word) (expect new : Word) : Bool × State :=
  if s.loadWord a.toNat = expect then (true, s.storeWord a.toNat new) else (false, s)

/-- List an address among rising ones, once. -/
def listAddress : List Nat → Nat → List Nat
  | [], x => [x]
  | a :: rest, x => if x < a then x :: a :: rest else if x = a then a :: rest else a :: listAddress rest x

/-- A `SEM_INIT` writes the word and it counts as initialised from then on (R141). -/
def State.initSem (s : State) (a : Word) (n : Word) : State :=
  (s.storeWord a.toNat n).setSemWords (listAddress s.semWords a.toNat)

/-- Why a wait or a post on a word is given no meaning, if it is: R42, R18, R141. -/
def State.semCheck (s : State) (a : Word) : Option Refusal :=
  match s.plat.wordCheck a with
  | some r => some r
  | none => if s.semWords.contains a.toNat then none else some .semNotInitialised

/-- The capacity fixed at `BARRIER_INIT` for the barrier with these three words (R20). -/
def findCapacity : List (Barrier × Word) → Barrier → Option Word
  | [], _ => none
  | (b, c) :: rest, x => if b = x then some c else findCapacity rest x

/-- Fix a barrier's capacity. -/
def putCapacity : List (Barrier × Word) → Barrier → Word → List (Barrier × Word)
  | [], x, v => [(x, v)]
  | (b, c) :: rest, x, v => if b = x then (x, v) :: rest else (b, c) :: putCapacity rest x v

/-- Why a barrier's three words are given no meaning, if they are (R42, R20). -/
def Platform.barrierCheck (p : Platform) (b : Barrier) : Option Refusal :=
  match p.wordCheck b.counter with
  | some r => some r
  | none =>
    match p.wordCheck b.gateLock with
    | some r => some r
    | none => p.wordCheck b.releaseSem

end Sys2Proof.Machine
end

