-- ==== Sys2Proof/Machine/Accel.lean ====
section
/-! DEFINITION. The accelerator transaction interface (42_transaction_interface.md): `WR_A`, `WR_B`, `WR_Z`, `RD_A`,
`RD_B`, `RD_Z`, `BAD_WR`, `BAD_RD`. -/

namespace Sys2Proof.Machine

/-- The element a word written to an operand register becomes (R121): narrowed (R89), or a free value for a NaN or
an infinity (R90). -/
def operand (F : Nat) (w : Word) (s : State) : Fx × State :=
  match narrow s.plat.engine.quant F w with
  | some r => (r, s)
  | none => (Config.draw16 s.draws, s.drawn)

/-- R121: one element onto `inA[k]`. -/
def writeA (k : InstId) (w : Word) (s : State) : State :=
  let (r, t) := operand 8 w s
  t.setInst k { t.inst k with inA := (t.inst k).inA ++ [r] }

/-- R122: one element onto `inB[k]`. -/
def writeB (k : InstId) (w : Word) (s : State) : State :=
  let (r, t) := operand 8 w s
  t.setInst k { t.inst k with inB := (t.inst k).inB ++ [r] }

/-- R123: one element onto `inZ[k]`, an angle with 7 fractional bits. -/
def writeZ (k : InstId) (w : Word) (s : State) : State :=
  let (r, t) := operand 7 w s
  t.setInst k { t.inst k with inZ := (t.inst k).inZ ++ [r] }

/-- R124: the head of `outA[k]` widened; none while the channel is empty. -/
def readA (k : InstId) (s : State) : Option (Word × State) :=
  match (s.inst k).outA with
  | [] => none
  | r :: rest => some (widen 8 r, s.setInst k { s.inst k with outA := rest })

/-- R125: the head of `outB[k]` widened; none while the channel is empty. -/
def readB (k : InstId) (s : State) : Option (Word × State) :=
  match (s.inst k).outB with
  | [] => none
  | r :: rest => some (widen 8 r, s.setInst k { s.inst k with outB := rest })

/-- R129: the head of `outZ[k]` widened; none while the channel is empty. -/
def readZ (k : InstId) (s : State) : Option (Word × State) :=
  match (s.inst k).outZ with
  | [] => none
  | r :: rest => some (widen 7 r, s.setInst k { s.inst k with outZ := rest })

/-- R127: the diagnostic; the word is accepted and discarded. -/
def badWrite (k : InstId) (off : Word) (s : State) : State := s.diag k off .write

/-- R128: the diagnostic, and a free word. -/
def badRead (k : InstId) (off : Word) (s : State) : Word × State :=
  (Config.draw32 s.draws, (s.diag k off .read).drawn)

/-- A write transaction decoded by instance k (R64). -/
def accWrite (k : InstId) (off w : Word) (s : State) : State :=
  match accOp .write off with
  | .wrA => writeA k w s
  | .wrB => writeB k w s
  | .wrZ => writeZ k w s
  | _ => badWrite k off s

/-- A read transaction decoded by instance k (R64); none while it blocks. -/
def accRead (k : InstId) (off : Word) (s : State) : Option (Word × State) :=
  match accOp .read off with
  | .rdA => readA k s
  | .rdB => readB k s
  | .rdZ => readZ k s
  | _ => some (badRead k off s)

/-- A read of an instance answers its word, or the worker holds with the read outstanding (R23, R124). -/
def finishRead (i : Instr) (s : State) (r : Option (Word × State)) : Result :=
  match r with
  | some (w, t) => .next (t.retire (.word w))
  | none => .next (s.goto i .start)

/-- `WR_A` (R121). -/
def execWrA (k : InstId) (w : Word) (s : State) : Result := .next ((writeA k w s).retire .ok)

/-- `WR_B` (R122). -/
def execWrB (k : InstId) (w : Word) (s : State) : Result := .next ((writeB k w s).retire .ok)

/-- `WR_Z` (R123). -/
def execWrZ (k : InstId) (w : Word) (s : State) : Result := .next ((writeZ k w s).retire .ok)

/-- `RD_A` (R124). -/
def execRdA (k : InstId) (s : State) : Result := finishRead (.rdA k) s (readA k s)

/-- `RD_B` (R125). -/
def execRdB (k : InstId) (s : State) : Result := finishRead (.rdB k) s (readB k s)

/-- `RD_Z` (R129). -/
def execRdZ (k : InstId) (s : State) : Result := finishRead (.rdZ k) s (readZ k s)

/-- `BAD_WR` (R127). -/
def execBadWr (k : InstId) (off : Word) (s : State) : Result := .next ((badWrite k off s).retire .ok)

/-- `BAD_RD` (R128). -/
def execBadRd (k : InstId) (off : Word) (s : State) : Result :=
  .next ((badRead k off s).2.retire (.word (badRead k off s).1))

end Sys2Proof.Machine
end

