-- ==== Sys2Proof/Machine/Bulk.lean ====
section
/-! DEFINITION. The bulk transfer trigger registers (44_bulk_transfer.md) and the copy. -/

namespace Sys2Proof.Machine

/-- `DMA_SRC` (R171). -/
def execDmaSrc (v : Word) (s : State) : Result := .next ((s.setDma { s.dma with src := v }).retire .ok)

/-- `DMA_DST` (R172). -/
def execDmaDst (v : Word) (s : State) : Result := .next ((s.setDma { s.dma with dst := v }).retire .ok)

/-- `DMA_LEN` (R173). -/
def execDmaLen (v : Word) (s : State) : Result := .next ((s.setDma { s.dma with len := v }).retire .ok)

/-- `DMA_OP_NOP` (R174). -/
def execDmaOpNop (s : State) : Result := .next ((s.setDma { s.dma with op := 0 }).retire .ok)

/-- `DMA_RESERVED` (R178): refused, no diagnostic. -/
def execDmaReserved (_s : State) : Result := .refused .dmaReserved

/-! ### The copy (R176, R177) -/

/-- How a copy of `len` bytes, not 0, proceeds, or why it is given no meaning (R176, R177). -/
def copyPlan (p : Platform) (src dst len : Word) : Except Refusal Label :=
  if addressSpace < src.toNat + len.toNat ∨ addressSpace < dst.toNat + len.toNat then .error .bulkWraps
  else if overlaps src.toNat len.toNat dst.toNat len.toNat then .error .bulkOverlap
  else if p.touchesDevice src.toNat len.toNat || p.touchesDevice dst.toNat len.toNat then
    if len.toNat % 4 ≠ 0 ∨ src.toNat % 4 ≠ 0 ∨ dst.toNat % 4 ≠ 0 then .error .bulkUnaligned
    else if (p.memoryRange src.toNat len.toNat || p.windowRange src.toNat len.toNat) &&
        (p.memoryRange dst.toNat len.toNat || p.windowRange dst.toNat len.toNat) then .ok .copyRead
    else .error .bulkStraddles
  else if p.memoryRange src.toNat len.toNat && p.memoryRange dst.toNat len.toNat then .ok .copyByte
  else .error .bulkStraddles

/-- The write of the operation code and the one reading of the request from the registers (R175). -/
def State.startCopy (s : State) : State :=
  (s.setDma { s.dma with op := 1 }).setCopy ⟨s.dma.src, s.dma.dst, s.dma.len, 0, 0⟩

/-- The transaction's first step: a length of 0 copies nothing and returns (R176). -/
def copyStart (s : State) : Result :=
  if s.dma.len = 0 then .next (s.startCopy.retire .ok)
  else
    match copyPlan s.plat s.dma.src s.dma.dst s.dma.len with
    | .error r => .refused r
    | .ok l => .next (s.startCopy.goto .dmaOpCopy l)

/-- `n` more bytes are copied; the write returns after the last of them (R175). -/
def State.copied (s : State) (n : Nat) (l : Label) : State :=
  let q := s.self.copy
  let t := s.setCopy { q with done := q.done + n }
  if q.len.toNat ≤ q.done + n then t.retire .ok else t.goto .dmaOpCopy l

/-- Memory to memory: one byte (R176). -/
def copyByteStep (s : State) : Result :=
  let q := s.self.copy
  .next ((s.storeByte (q.dst.toNat + q.done) (s.loadByte (q.src.toNat + q.done))).copied 1 .copyByte)

/-- R176 `Read4`: one bus read of a word, decoded as if the worker had issued it; none while it blocks. -/
def busRead4 (a : Nat) (s : State) : Except Refusal (Option (Word × State)) :=
  match s.plat.deviceAt a with
  | .acc k => .ok (accRead k (BitVec.ofNat 32 (a - (s.plat.accBase k).toNat)) s)
  | .memory => .ok (some (s.loadWord a, s))
  | .dma => .error .bulkStraddles
  | .nowhere => .error .bulkStraddles

/-- R176 `Write4`: one bus write of a word, decoded as if the worker had issued it. -/
def busWrite4 (a : Nat) (w : Word) (s : State) : Except Refusal State :=
  match s.plat.deviceAt a with
  | .acc k => .ok (accWrite k (BitVec.ofNat 32 (a - (s.plat.accBase k).toNat)) w s)
  | .memory => .ok (s.storeWord a w)
  | .dma => .error .bulkStraddles
  | .nowhere => .error .bulkStraddles

/-- The read of a word pair; the whole copy holds while it blocks (R176). -/
def copyReadStep (s : State) : Result :=
  let q := s.self.copy
  match busRead4 (q.src.toNat + q.done) s with
  | .error r => .refused r
  | .ok none => .next (s.goto .dmaOpCopy .copyRead)
  | .ok (some (w, t)) => .next ((t.setCopy { q with buf := w }).goto .dmaOpCopy .copyWrite)

/-- The write of a word pair (R176). -/
def copyWriteStep (s : State) : Result :=
  let q := s.self.copy
  match busWrite4 (q.dst.toNat + q.done) q.buf s with
  | .error r => .refused r
  | .ok t => .next (t.copied 4 .copyRead)

/-- `DMA_OP_COPY` (R175): the step at the invocation's label. -/
def execDmaOpCopy (s : State) : Result :=
  match s.self.pc with
  | .copyByte => copyByteStep s
  | .copyRead => copyReadStep s
  | .copyWrite => copyWriteStep s
  | _ => copyStart s

end Sys2Proof.Machine
end

