-- ==== Sys2Proof/Machine/Flags.lean ====
section
/-! DEFINITION. The block has no flags (R26). What stands in their place are the tests on raw integers that the
engine makes (R86): signed, zero counting as non-negative. -/

namespace Sys2Proof.Machine

/-- R86 `a >=s 0`: bit 15 is clear. -/
def nonNegative (a : Fx) : Bool := decide (0 ≤ a.toInt)

/-- R86 `a <s 0`: bit 15 is set. -/
def negative (a : Fx) : Bool := decide (a.toInt < 0)

/-- 90 degrees as an FX9 raw value (R81). -/
def ninety : Fx := 11520

/-- R86 `a >s 11520`: an angle above +90 degrees. -/
def aboveNinety (t : Fx) : Bool := decide (11520 < t.toInt)

/-- R86 `a <s -11520`: an angle below -90 degrees. -/
def belowMinusNinety (t : Fx) : Bool := decide (t.toInt < -11520)

end Sys2Proof.Machine
end

