-- ==== Sys2Proof/Machine/Cordic.lean ====
section
/-! DEFINITION. The engine function (41_cordic_engine.md) and the operations `ROTATE` and `VECTOR`. -/

namespace Sys2Proof.Machine

/-- The document's `CordicResult` and the working values of one evaluation (R100, R14). -/
structure Triple where
  x : Fx
  y : Fx
  t : Fx
  deriving DecidableEq, Repr

/-- R101, `PRE_MODE` = conditional: only strictly beyond ±90 degrees. -/
def precorrect (v : Triple) : Triple :=
  if aboveNinety v.t then ⟨fxNeg v.y, v.x, fxSub v.t ninety⟩
  else if belowMinusNinety v.t then ⟨v.y, fxNeg v.x, fxAdd v.t ninety⟩
  else v

/-- The other reading, `PRE_MODE` = always (92_eei_decisions.md section 6). -/
def precorrectAlways (v : Triple) : Triple :=
  if negative v.t then ⟨v.y, fxNeg v.x, fxAdd v.t ninety⟩ else ⟨fxNeg v.y, v.x, fxSub v.t ninety⟩

/-- Phase 1 under either value of `PRE_MODE`. -/
def precorrectWith (m : PreMode) (v : Triple) : Triple :=
  match m with
  | .conditional => precorrect v
  | .always => precorrectAlways v

/-- R103: the micro-rotation goes counter-clockwise (d = +1). `mode` false is rotation, true is vectoring. -/
def counterClockwise (v : Triple) (mode : Bool) : Bool := if mode then negative v.y else nonNegative v.t

/-- R102: one micro-rotation, its three components updated together from the old ones; `ATAN[i]` is the
configuration's (R108). -/
def microrot (c : EngineConfig) (v : Triple) (i : Fin 7) (mode : Bool) : Triple :=
  let xs := fxAsr c.quant v.x i
  let ys := fxAsr c.quant v.y i
  if counterClockwise v mode then ⟨fxSub v.x ys, fxAdd v.y xs, fxSub v.t (c.atan.get i)⟩
  else ⟨fxAdd v.x ys, fxSub v.y xs, fxAdd v.t (c.atan.get i)⟩

/-- The micro-rotations of a list of indices, in its order. -/
def microrots (c : EngineConfig) (mode : Bool) : List (Fin 7) → Triple → Triple
  | [], v => v
  | i :: rest, v => microrots c mode rest (microrot c v i mode)

/-- R104: the gain correction of both components; the angle is left as it is. -/
def gainCorrect (c : EngineConfig) (v : Triple) : Triple := ⟨fxGain c v.x, fxGain c v.y, v.t⟩

/-- R100: the engine function, its three phases in order, exactly seven micro-rotations. -/
def rotate (c : EngineConfig) (x0 y0 t0 : Fx) (mode : Bool) : Triple :=
  gainCorrect c (microrots c mode [0, 1, 2, 3, 4, 5, 6] (precorrectWith c.preMode ⟨x0, y0, t0⟩))

/-- A call of the engine function returns its triple to the caller and touches no state of the block (R14, R100);
log entry 15. -/
def State.returnTriple (s : State) (v : Triple) : State := s.retire (.triple v.x v.y v.t)

/-- `ROTATE` (R100, mode false). -/
def execRotate (x0 y0 t0 : Fx) (s : State) : Result := .next (s.returnTriple (rotate s.plat.engine x0 y0 t0 false))

/-- `VECTOR` (R105, mode true). -/
def execVector (x0 y0 t0 : Fx) (s : State) : Result := .next (s.returnTriple (rotate s.plat.engine x0 y0 t0 true))

end Sys2Proof.Machine
end

