-- ==== Sys2Proof/Machine/Engine.lean ====
section
/-! DEFINITION. The engine process E_k (R130): one atomic step of its loop; log entry 14. -/

namespace Sys2Proof.Machine

/-- The three heads taken, rotated under the engine's parameters, and the three results pushed (R130); none while an
input channel is empty. -/
def Accel.stepEngine (c : EngineConfig) (v : Accel) : Option Accel :=
  match v.inA, v.inB, v.inZ with
  | x0 :: as, y0 :: bs, t0 :: zs =>
    let r := rotate c x0 y0 t0 false
    some { inA := as, inB := bs, inZ := zs, outA := v.outA ++ [r.x], outB := v.outB ++ [r.y],
           outZ := v.outZ ++ [r.t], epc := .idle }
  | _, _, _ => none

/-- E_k has an enabled step (R130). -/
def Accel.engineEnabled (v : Accel) : Bool := !v.inA.isEmpty && !v.inB.isEmpty && !v.inZ.isEmpty

/-- `ENGINE_STEP` (R130): while it is not enabled the engine holds and nothing changes. -/
def execEngineStep (k : InstId) (s : State) : Result :=
  match (s.inst k).stepEngine s.plat.engine with
  | some v => .next (s.setInst k v)
  | none => .next s

end Sys2Proof.Machine
end

