-- ==== Sys2Proof/Machine/Sync.lean ====
section
/-! DEFINITION. The synchronisation primitives (43_sync_primitives.md). One call of a meaning performs one labelled
micro-step of the invocation of the worker that performs it; a label that is none of the primitive's own is its
first. -/

namespace Sys2Proof.Machine

/-! ### The micro-steps (R142, R143) -/

/-- W1: read the count; stay at `l1` while it is 0, else go on to `l2` (R142). -/
def waitRead (i : Instr) (a : Word) (l1 l2 : Label) (s : State) : State :=
  let old := s.loadWord a.toNat
  (s.setLocals { s.self.locals with old := old }).goto i (if old = 0 then l1 else l2)

/-- W2: the decrement-if-unchanged; done on success, back to `l1` on a lost race (R142). -/
def waitTry (i : Instr) (a : Word) (l1 : Label) (fin : State → State) (s : State) : State :=
  let old := s.self.locals.old
  let (ok, t) := s.cas a old (old - 1)
  let u := t.setLocals { t.self.locals with ok := ok }
  if ok then fin u else u.goto i l1

/-- One micro-step of `SEM_WAIT` on the word at `a`: W2 at label `l2`, else W1. -/
def waitStep (i : Instr) (a : Word) (l1 l2 : Label) (fin : State → State) (s : State) : Result :=
  match s.semCheck a with
  | some r => .refused r
  | none => if s.self.pc = l2 then .next (waitTry i a l1 fin s) else .next (waitRead i a l1 l2 s)

/-- P1: read the count and go on to `l2`; the maximum count is refused (R143). -/
def postRead (i : Instr) (a : Word) (l2 : Label) (s : State) : Result :=
  let old := s.loadWord a.toNat
  if old = 0xffffffff then .refused .countOverflow
  else .next ((s.setLocals { s.self.locals with old := old }).goto i l2)

/-- P2: the increment-if-unchanged; done on success, back to `l1` on a lost race (R143). -/
def postTry (i : Instr) (a : Word) (l1 : Label) (fin : State → State) (s : State) : State :=
  let old := s.self.locals.old
  let (ok, t) := s.cas a old (old + 1)
  let u := t.setLocals { t.self.locals with ok := ok }
  if ok then fin u else u.goto i l1

/-- One micro-step of `SEM_POST` on the word at `a`: P2 at label `l2`, else P1. -/
def postStep (i : Instr) (a : Word) (l1 l2 : Label) (fin : State → State) (s : State) : Result :=
  match s.semCheck a with
  | some r => .refused r
  | none => if s.self.pc = l2 then .next (postTry i a l1 fin s) else postRead i a l2 s

/-- A primitive returns (R142, R143). -/
def State.returnDone (s : State) : State := s.retire .done

/-- I1: one plain store that makes the word a semaphore's (R141). -/
def semInitStep (a n : Word) (s : State) : Result :=
  match s.plat.wordCheck a with
  | some r => .refused r
  | none => .next (s.initSem a n).returnDone

/-! ### The primitives -/

/-- `CAS32` (R140). -/
def execCas32 (addr expect new : Word) (s : State) : Result :=
  match s.plat.wordCheck addr with
  | some r => .refused r
  | none => .next ((s.cas addr expect new).2.retire (.flag (s.cas addr expect new).1))

/-- `SEM_INIT` (R141). -/
def execSemInit (a n : Word) (s : State) : Result := semInitStep a n s

/-- `SEM_WAIT` (R142). -/
def execSemWait (a : Word) (s : State) : Result := waitStep (.semWait a) a .w1 .w2 State.returnDone s

/-- `SEM_POST` (R143). -/
def execSemPost (a : Word) (s : State) : Result := postStep (.semPost a) a .p1 .p2 State.returnDone s

/-- `MUTEX_INIT` (R144): `SEM_INIT(m, 1)`. -/
def execMutexInit (m : Word) (s : State) : Result := semInitStep m 1 s

/-- `MUTEX_LOCK` (R145): `SEM_WAIT(m)`. -/
def execMutexLock (m : Word) (s : State) : Result := waitStep (.mutexLock m) m .w1 .w2 State.returnDone s

/-- `MUTEX_UNLOCK` (R146): `SEM_POST(m)`. -/
def execMutexUnlock (m : Word) (s : State) : Result := postStep (.mutexUnlock m) m .p1 .p2 State.returnDone s

/-! ### Barriers -/

/-- `BARRIER_INIT` (R148): N1 at `start`, then N2, then N3 with the capacity. -/
def execBarrierInit (b : Barrier) (capacity : Word) (s : State) : Result :=
  match s.plat.barrierCheck b with
  | some r => .refused r
  | none =>
    if capacity = 0 then .refused .capacityZero
    else
      match s.self.pc with
      | .n2 => .next ((s.initSem b.gateLock 1).goto (.barrierInit b capacity) .n3)
      | .n3 =>
        .next ((s.initSem b.releaseSem 0).setBarriers (putCapacity s.barriers b capacity)).returnDone
      | _ => .next ((s.storeWord b.counter.toNat 0).goto (.barrierInit b capacity) .n2)

/-- B2: read the counter; the last arrival goes to B3, any other to B6 (R149). -/
def barrierCount (b : Barrier) (capacity : Word) (s : State) : State :=
  let c := s.loadWord b.counter.toNat
  (s.setLocals { s.self.locals with c := c }).goto (.barrierEnter b) (if c = capacity - 1 then .b3 else .b6)

/-- The end of B4: `n <- capacity - 1`, and the while of B5 ends at once if that is 0 (R149). -/
def barrierRelease (b : Barrier) (n : Word) (s : State) : State :=
  if n = 0 then s.returnDone else (s.setLocals { s.self.locals with n := n }).goto (.barrierEnter b) .b5p1

/-- `BARRIER_ENTER` (R149): the micro-step at the invocation's label. -/
def execBarrierEnter (b : Barrier) (s : State) : Result :=
  match s.plat.barrierCheck b with
  | some r => .refused r
  | none =>
    match findCapacity s.barriers b with
    | none => .refused .barrierNotInitialised
    | some capacity =>
      match s.self.pc with
      | .b2 => .next (barrierCount b capacity s)
      | .b3 => .next ((s.storeWord b.counter.toNat 0).goto (.barrierEnter b) .b4p1)
      | .b4p1 => postStep (.barrierEnter b) b.gateLock .b4p1 .b4p2 (barrierRelease b (capacity - 1)) s
      | .b4p2 => postStep (.barrierEnter b) b.gateLock .b4p1 .b4p2 (barrierRelease b (capacity - 1)) s
      | .b5p1 =>
        if s.self.locals.n = 0 then .next s.returnDone
        else postStep (.barrierEnter b) b.releaseSem .b5p1 .b5p2 (barrierRelease b (s.self.locals.n - 1)) s
      | .b5p2 => postStep (.barrierEnter b) b.releaseSem .b5p1 .b5p2 (barrierRelease b (s.self.locals.n - 1)) s
      | .b6 => .next ((s.storeWord b.counter.toNat (s.self.locals.c + 1)).goto (.barrierEnter b) .b7p1)
      | .b7p1 => postStep (.barrierEnter b) b.gateLock .b7p1 .b7p2 (fun t => t.goto (.barrierEnter b) .b8w1) s
      | .b7p2 => postStep (.barrierEnter b) b.gateLock .b7p1 .b7p2 (fun t => t.goto (.barrierEnter b) .b8w1) s
      | .b8w1 => waitStep (.barrierEnter b) b.releaseSem .b8w1 .b8w2 State.returnDone s
      | .b8w2 => waitStep (.barrierEnter b) b.releaseSem .b8w1 .b8w2 State.returnDone s
      | _ => waitStep (.barrierEnter b) b.gateLock .b1w1 .b1w2 (fun t => t.goto (.barrierEnter b) .b2) s

end Sys2Proof.Machine
end

