-- ==== Sys2Proof/Machine/Fetch.lean ====
section
/-! DEFINITION. Whose turn it is and what that agent does: the schedule, a worker's next request and its dispatch by
address (R63), a worker's own loads and stores (R71), and the bus held by a blocked read (R58). -/

namespace Sys2Proof.Machine

/-- The agent that moves: the supplied schedule's next, else the scheduler's free choice; log entry 2. -/
def State.nextAgent (s : State) : Agent :=
  match s.sched with
  | a :: _ => a
  | [] => Config.schedule s.turns

/-- A turn is taken. -/
def State.tick (s : State) : State := { s with sched := s.sched.tail, turns := s.turns + 1 }

/-- What a turn comes to: an operation to perform, or an outcome already settled. -/
inductive Plan where
  | run (i : Instr) (s : State)
  | settle (o : Result)

/-- A read of window offset `off` of instance k would hold (R124, R125, R129). -/
def State.readHolds (s : State) (k : InstId) (off : Word) : Bool :=
  match accOp .read off with
  | .rdA => (s.inst k).outA.isEmpty
  | .rdB => (s.inst k).outB.isEmpty
  | .rdZ => (s.inst k).outZ.isEmpty
  | _ => false

/-- The address is a result register of an instance whose channel is empty. -/
def State.addressHolds (s : State) (a : Nat) : Bool :=
  match s.plat.deviceAt a with
  | .acc k => s.readHolds k (BitVec.ofNat 32 (a - (s.plat.accBase k).toNat))
  | .dma => false
  | .memory => false
  | .nowhere => false

/-- R23: worker w is blocked in a read, its own or its copy's, whose channel is empty. -/
def State.blockedRead (s : State) (w : WorkerId) : Bool :=
  match (s.worker w).cur with
  | some (.rdA k) => (s.inst k).outA.isEmpty
  | some (.rdB k) => (s.inst k).outB.isEmpty
  | some (.rdZ k) => (s.inst k).outZ.isEmpty
  | some .dmaOpCopy =>
    (s.worker w).pc == .copyRead && s.addressHolds ((s.worker w).copy.src.toNat + (s.worker w).copy.done)
  | _ => false

/-- R58: the other worker's blocked read keeps the bus, on a platform where it does. -/
def State.busStopped (s : State) (w : WorkerId) : Bool := s.blockedRead (otherWorker w) && s.plat.busHeld

/-- A request that uses the bus: all but a call of the engine function (R58). -/
def requestUsesBus : Request → Bool
  | .bus _ _ _ _ => true
  | .descriptor .eng _ => false
  | .descriptor _ _ => true

/-- A worker's own load or store of shared memory, 1 to 4 bytes in one step (R7, R41, R71); log entry 25. -/
def memoryAccess (dir : Dir) (a : Nat) (len : Nat) (data : Word) (s : State) : Result :=
  if len = 0 ∨ 4 < len then .refused .transactionLength
  else if s.plat.memoryRange a len then
    match dir with
    | .read => .next (s.retire (.word (s.loadBytes a len)))
    | .write => .next ((s.storeBytes a data len).retire .ok)
  else .fault .outsideMemory

/-- A transaction by bus address, dispatched (R63): a device gets exactly 4 bytes (R43). -/
def issueBus (dir : Dir) (addr : Word) (len : Nat) (data : Word) (s : State) : Plan :=
  match s.plat.deviceAt addr.toNat with
  | .acc k =>
    if len = 4 then .run (decodeAcc k dir (addr - s.plat.accBase k) data) s
    else .settle (.refused .transactionLength)
  | .dma =>
    if len = 4 then .run (decodeDma dir (addr - s.plat.dmaBase) data) s
    else .settle (.refused .transactionLength)
  | .memory => .settle (memoryAccess dir addr.toNat len data s)
  | .nowhere => .settle (.fault .outsideMemory)

/-- A request of a worker: software cannot issue an `ENGINE_STEP` (R130). -/
def issue (r : Request) (s : State) : Plan :=
  match r with
  | .bus dir addr len data => issueBus dir addr len data s
  | .descriptor t bytes =>
    match decode t bytes with
    | .error _ => .settle (.refused .undecodable)
    | .ok (.engineStep _) => .settle (.refused .notIssuable)
    | .ok i => .run i s

/-- The turn of the active worker: its outstanding operation goes on (R23), else it issues its next request; with
neither, or with the bus held, it takes no step. -/
def planWorker (s : State) : Plan :=
  match s.self.cur with
  | some i => if s.busStopped s.active then .settle (.next s) else .run i s
  | none =>
    match s.self.script with
    | [] => .settle (.next s)
    | r :: rest =>
      if requestUsesBus r && s.busStopped s.active then .settle (.next s)
      else issue r (s.setSelf { s.self with script := rest })

/-- What the next turn comes to. -/
def plan (s : State) : Plan :=
  match s.nextAgent with
  | .engine k => .run (.engineStep k) s.tick
  | .worker w => planWorker (s.tick.setActive w)

end Sys2Proof.Machine
end

