-- ==== Sys2Proof/Machine/Dispatch.lean ====
section
/-! DEFINITION. The meaning of every operation: one arm per constructor of `Instr`. -/

namespace Sys2Proof.Machine

def exec (i : Instr) (s : State) : Host.Outcome State Fault Refusal :=
  match i with
  | .wrA k w => Sys2Proof.Machine.execWrA k w s
  | .wrB k w => Sys2Proof.Machine.execWrB k w s
  | .wrZ k w => Sys2Proof.Machine.execWrZ k w s
  | .rdA k => Sys2Proof.Machine.execRdA k s
  | .rdB k => Sys2Proof.Machine.execRdB k s
  | .rdZ k => Sys2Proof.Machine.execRdZ k s
  | .badWr k off _ => Sys2Proof.Machine.execBadWr k off s
  | .badRd k off => Sys2Proof.Machine.execBadRd k off s
  | .engineStep k => Sys2Proof.Machine.execEngineStep k s
  | .rotate x0 y0 t0 => Sys2Proof.Machine.execRotate x0 y0 t0 s
  | .vector x0 y0 t0 => Sys2Proof.Machine.execVector x0 y0 t0 s
  | .dmaSrc v => Sys2Proof.Machine.execDmaSrc v s
  | .dmaDst v => Sys2Proof.Machine.execDmaDst v s
  | .dmaLen v => Sys2Proof.Machine.execDmaLen v s
  | .dmaOpNop => Sys2Proof.Machine.execDmaOpNop s
  | .dmaOpCopy => Sys2Proof.Machine.execDmaOpCopy s
  | .dmaReserved _ _ _ => Sys2Proof.Machine.execDmaReserved s
  | .cas32 addr expect new => Sys2Proof.Machine.execCas32 addr expect new s
  | .semInit a n => Sys2Proof.Machine.execSemInit a n s
  | .semWait a => Sys2Proof.Machine.execSemWait a s
  | .semPost a => Sys2Proof.Machine.execSemPost a s
  | .mutexInit m => Sys2Proof.Machine.execMutexInit m s
  | .mutexLock m => Sys2Proof.Machine.execMutexLock m s
  | .mutexUnlock m => Sys2Proof.Machine.execMutexUnlock m s
  | .barrierInit b capacity => Sys2Proof.Machine.execBarrierInit b capacity s
  | .barrierEnter b => Sys2Proof.Machine.execBarrierEnter b s

end Sys2Proof.Machine
end

