-- ==== Sys2Proof/Machine/Step.lean ====
section
/-! DEFINITION. One step of the machine: one turn of one agent; and where the host places an operation so that the
next step runs it. -/

namespace Sys2Proof.Machine

/-- One turn (R49: one agent's atomic step at a time). -/
def step (s : State) : Host.Outcome State Fault Refusal :=
  match plan s with
  | .run i t => exec i t
  | .settle o => o

/-- A worker that has nothing outstanding. -/
def Worker.released (v : Worker) : Worker := { v with cur := none, pc := .start, locals := .none, copy := .none }

/-- `s` with the operation that spec/opcode_table.json numbers `w` next: an event of E_0 comes first in the
schedule; any other operation comes first in worker 0's script, worker 0 has nothing outstanding and comes first in
the schedule, and worker 1 is in no read that could hold the bus; log entries 1 and 16. -/
def State.withFetchWord (s : State) (nbits w : Nat) : State :=
  match tableDescriptor nbits w with
  | (.internal k, _) => { s with sched := .engine k :: s.sched }
  | (t, bytes) =>
    { s with
      sched := .worker .w0 :: s.sched
      worker0 := { s.worker0.released with script := .descriptor t bytes :: s.worker0.script }
      worker1 := if s.blockedRead .w1 then s.worker1.released else s.worker1 }

end Sys2Proof.Machine
end

