-- ==== Sys2Proof/Machine/Effects.lean ====
section
/-! DEFINITION. Where an operation stores in shared memory when it is performed: the address and the number of bytes,
computed as its meaning computes them. Statements of what an operation leaves unchanged are made with it; no step
reads it. -/

namespace Sys2Proof.Machine

/-- A compare-and-swap stores to its word only if the word holds the expected value (R140). -/
def State.casStores (s : State) (a expect : Word) : Option (Nat × Nat) :=
  if s.loadWord a.toNat = expect then some (a.toNat, 4) else none

/-- `SEM_WAIT` and `MUTEX_LOCK` store in W2, `SEM_POST` and `MUTEX_UNLOCK` in P2 (R142, R143). -/
def State.trialStores (s : State) (l : Label) (a : Word) : Option (Nat × Nat) :=
  if s.self.pc = l then s.casStores a s.self.locals.old else none

/-- The micro-step of `BARRIER_INIT` stores to one of the three words (R148). -/
def barrierInitStores (b : Barrier) (l : Label) : Nat :=
  match l with
  | .n2 => b.gateLock.toNat
  | .n3 => b.releaseSem.toNat
  | _ => b.counter.toNat

/-- The micro-step of `BARRIER_ENTER` (R149). -/
def State.barrierEnterStores (s : State) (b : Barrier) : Option (Nat × Nat) :=
  match s.self.pc with
  | .b1w2 => s.casStores b.gateLock s.self.locals.old
  | .b3 => some (b.counter.toNat, 4)
  | .b4p2 => s.casStores b.gateLock s.self.locals.old
  | .b5p2 => s.casStores b.releaseSem s.self.locals.old
  | .b6 => some (b.counter.toNat, 4)
  | .b7p2 => s.casStores b.gateLock s.self.locals.old
  | .b8w2 => s.casStores b.releaseSem s.self.locals.old
  | _ => none

/-- The step of a bulk copy: one byte, or one word where the destination is memory (R176). -/
def State.copyStores (s : State) : Option (Nat × Nat) :=
  match s.self.pc with
  | .copyByte => some (s.self.copy.dst.toNat + s.self.copy.done, 1)
  | .copyWrite =>
    match s.plat.deviceAt (s.self.copy.dst.toNat + s.self.copy.done) with
    | .memory => some (s.self.copy.dst.toNat + s.self.copy.done, 4)
    | _ => none
  | _ => none

/-- The bytes of shared memory that performing an operation stores to, if it stores. -/
def storesTo (i : Instr) (s : State) : Option (Nat × Nat) :=
  match i with
  | .wrA _ _ => none
  | .wrB _ _ => none
  | .wrZ _ _ => none
  | .rdA _ => none
  | .rdB _ => none
  | .rdZ _ => none
  | .badWr _ _ _ => none
  | .badRd _ _ => none
  | .engineStep _ => none
  | .rotate _ _ _ => none
  | .vector _ _ _ => none
  | .dmaSrc _ => none
  | .dmaDst _ => none
  | .dmaLen _ => none
  | .dmaOpNop => none
  | .dmaOpCopy => s.copyStores
  | .dmaReserved _ _ _ => none
  | .cas32 addr expect _ => s.casStores addr expect
  | .semInit a _ => some (a.toNat, 4)
  | .semWait a => s.trialStores .w2 a
  | .semPost a => s.trialStores .p2 a
  | .mutexInit m => some (m.toNat, 4)
  | .mutexLock m => s.trialStores .w2 m
  | .mutexUnlock m => s.trialStores .p2 m
  | .barrierInit b _ => some (barrierInitStores b s.self.pc, 4)
  | .barrierEnter b => s.barrierEnterStores b

end Sys2Proof.Machine
end

