-- ==== Sys2Proof/Machine/Script.lean ====
section
/-! DEFINITION. The notation of scripts (R71), the pseudo-operations (R72) and the driver's exchange (R183) as lists
of requests, software that goes on, and the driver's phase correction (R185). These are the environment's side of the interface: nothing
in the step reads them. -/

namespace Sys2Proof.Machine

/-- `BUSW k, off, v` (R71): a raw write to `ACC_BASE[k]` + off. -/
def Platform.busw (p : Platform) (k : InstId) (off v : Word) : Request := .bus .write (p.accBase k + off) 4 v

/-- `BUSR k, off` (R71): a raw read from `ACC_BASE[k]` + off. -/
def Platform.busr (p : Platform) (k : InstId) (off : Word) : Request := .bus .read (p.accBase k + off) 4 0

/-- `DMAW X, v` (R71): a write of the bulk transfer register at an offset. -/
def Platform.dmaw (p : Platform) (off v : Word) : Request := .bus .write (p.dmaBase + off) 4 v

/-- `LD a` (R71). -/
def requestLd (a : Word) : Request := .bus .read a 4 0

/-- `ST a, v` (R71). -/
def requestSt (a v : Word) : Request := .bus .write a 4 v

/-- The call of a primitive or of the engine function, or a descriptor of a device, as a request. -/
def requestOf (i : Instr) : Request := .descriptor (encode i).1 (encode i).2

/-- `SUBMIT k, a, b, z` (R72). -/
def Platform.submit (p : Platform) (k : InstId) (a b z : Word) : List Request :=
  [p.busw k 0x00 a, p.busw k 0x04 b, p.busw k 0x08 z]

/-- `COLLECT k` (R72). -/
def Platform.collect (p : Platform) (k : InstId) : List Request := [p.busr k 0x0c, p.busr k 0x10, p.busr k 0x14]

/-- `COSSIN k, amp, theta` (R72). -/
def Platform.cossin (p : Platform) (k : InstId) (amp theta : Word) : List Request :=
  p.submit k amp 0 theta ++ p.collect k

/-- `DMACOPY src, dst, len` (R72). -/
def Platform.dmacopy (p : Platform) (src dst len : Word) : List Request :=
  [p.dmaw 0x00 src, p.dmaw 0x04 dst, p.dmaw 0x08 len, p.dmaw 0x0c 1]

/-- `LOCK m` (R72). -/
def requestLock (m : Word) : Request := requestOf (.mutexLock m)

/-- `UNLOCK m` (R72). -/
def requestUnlock (m : Word) : Request := requestOf (.mutexUnlock m)

/-- R183: one exchange of worker w with its own instance, under the global mutex; amplitude 1.0. -/
def Platform.exchange (p : Platform) (mutex : Word) (k : InstId) (phase : Word) : List Request :=
  requestLock mutex :: (p.cossin k 0x3f800000 phase ++ [requestUnlock mutex])

/-- R225: worker 0's setup, in the order of R225's list, and the post of the ready semaphore after it. -/
def setupScript (mutex order ready : Word) (b : Barrier) : List Request :=
  [requestOf (.mutexInit mutex), requestOf (.semInit order 0), requestOf (.barrierInit b 2), requestOf (.semPost ready)]

/-- The software goes on: each worker has more to issue after what it has. A program that never ends is supplied so,
piece by piece; log entry 1. -/
def State.supplied (s : State) (more : WorkerId → List Request) : State :=
  { s with
    worker0 := { s.worker0 with script := s.worker0.script ++ more .w0 }
    worker1 := { s.worker1 with script := s.worker1.script ++ more .w1 } }

/-- R185 `phase_correction`: software of the driver, on phases in degrees, which are reals. Written for any ordered
field with a ceiling, so that it is a function on the reals and can be evaluated on the rationals among them. -/
def phaseCorrection {α : Type} [Field α] [LinearOrder α] [FloorRing α] (p : α) : α :=
  p - 360 * (⌈(p - 180) / 360⌉ : α)

end Sys2Proof.Machine
end

