-- ==== Sys2Proof/Safety.lean ====
section
/-! DEFINITION. What statements about the block are stated with: what an operation leaves unchanged and what its
worker gets, operations performed on end, safe runs, endless runs and the fairness of their schedules, idle
instances, and the invariant of every state a run reaches. -/

namespace Sys2Proof.Machine

/-! ### Outcomes -/

/-- Neither a fault nor a refusal. -/
def completes (o : Result) : Bool :=
  match o with
  | .next _ => true
  | .fault _ => false
  | .refused _ => false

/-- `n` micro-steps of one operation by the active worker with no other agent's step between them; it stops at the
first fault or refusal. -/
def execTimes : Nat → Instr → State → Result
  | 0, _, s => .next s
  | n + 1, i, s =>
    match exec i s with
    | .next t => execTimes n i t
    | .fault r => .fault r
    | .refused r => .refused r

/-- Operations performed one after another by the active worker, an `ENGINE_STEP` among them being the engine's own;
it stops at the first fault or refusal. -/
def execAll : List Instr → State → Result
  | [], s => .next s
  | i :: rest, s =>
    match exec i s with
    | .next t => execAll rest t
    | .fault r => .fault r
    | .refused r => .refused r

/-- `n` steps of the machine, stopping at the first fault or refusal: a run is safe if it answers a next state. -/
def run (n : Nat) (s : State) : Result := Host.Core.run core n s

/-! ### Endless runs and fairness (R153) -/

/-- One step of the machine in which agent `a` has the turn. -/
def stepOf (a : Agent) (s : State) : Result := step { s with sched := a :: s.sched }

/-- Worker w has a step: its outstanding operation, unless that is a read that blocks (R23), or a request to issue;
neither while the other worker's blocked read holds the bus it needs (R58). A worker that spins has one (R142). -/
def State.workerEnabled (s : State) (w : WorkerId) : Bool :=
  match (s.worker w).cur with
  | some _ => !s.busStopped w && !s.blockedRead w
  | none =>
    match (s.worker w).script with
    | [] => false
    | r :: _ => !(requestUsesBus r && s.busStopped w)

/-- The agent has an enabled step: an engine process by R130, a worker as above. -/
def State.agentEnabled (s : State) (a : Agent) : Bool :=
  match a with
  | .engine k => (s.inst k).engineEnabled
  | .worker w => s.workerEnabled w

/-- An endless run: turn n starts in the state `σ n`, the agent `g n` has it, and after it the software of each worker
has the requests `e n` more to issue, so that a worker's program may go on for ever. No step of it faults or is
refused. Any `g` is a schedule (R27) and any `e` is software (R210). -/
def IsRun (g : Nat → Agent) (e : Nat → WorkerId → List Request) (σ : Nat → State) : Prop :=
  ∀ n, ∃ t, stepOf (g n) (σ n) = .next t ∧ σ (n + 1) = t.supplied (e n)

/-- R153, decision D35: weak fairness of agents. An agent that is enabled from some turn on without interruption takes
a turn from then on; log entry 33. There is no fairness among contenders for a word. -/
def WeaklyFair (g : Nat → Agent) (σ : Nat → State) : Prop :=
  ∀ a n, (∀ m, n ≤ m → (σ m).agentEnabled a = true) → ∃ m, n ≤ m ∧ g m = a

/-! ### What is unchanged -/

/-- The parts of the state. -/
inductive Part where
  | inst (k : InstId)
  | log
  | memory
  | semWords
  | barriers
  | dma
  | worker (w : WorkerId)
  | plat
  | schedule
  | draws
  deriving DecidableEq, Repr

/-- A part of the state is as before; of memory: every byte reads as before. -/
def samePart (s t : State) (p : Part) : Prop :=
  match p with
  | .inst k => t.inst k = s.inst k
  | .log => t.log = s.log
  | .memory => t.mem = s.mem ∧ ∀ a, t.loadByte a = s.loadByte a
  | .semWords => t.semWords = s.semWords
  | .barriers => t.barriers = s.barriers
  | .dma => t.dma = s.dma
  | .worker w => t.worker w = s.worker w
  | .plat => t.plat = s.plat
  | .schedule => t.sched = s.sched ∧ t.turns = s.turns ∧ t.active = s.active
  | .draws => t.draws = s.draws

/-- Every part of the state but the listed ones is as before. -/
def Frame (s t : State) (changed : List Part) : Prop := ∀ p, p ∉ changed → samePart s t p

/-- Every byte outside the `n` from `a` reads as before. -/
def sameOutside (s t : State) (a n : Nat) : Prop := ∀ x, x < a ∨ a + n ≤ x → t.loadByte x = s.loadByte x

/-- The active worker's operation is complete with a result: the result is the last it has been given, and nothing is
outstanding; what it will issue next is as before. -/
def returns (s t : State) (r : Ret) : Prop :=
  t.self.returned = s.self.returned ++ [r] ∧ t.self.cur = none ∧ t.self.script = s.self.script

/-- The active worker's operation stays outstanding at a label, with nothing given back. -/
def staysAt (s t : State) (i : Instr) (l : Label) : Prop :=
  t.self.cur = some i ∧ t.self.pc = l ∧ t.self.returned = s.self.returned ∧ t.self.script = s.self.script

/-! ### Values -/

/-- R88: the exact rational value of a finite binary32 datum. -/
def f32Value (neg : Bool) (mant scale : Nat) : ℚ :=
  (if neg then -1 else 1) * (mant : ℚ) * (2 : ℚ) ^ ((scale : Int) - 150)

/-! ### The block at rest -/

/-- R207: no protocol error has occurred. -/
def State.noProtocolError (s : State) : Bool := s.log.isEmpty

/-- R183, R221: every channel of the instance is empty. -/
def Accel.drained (v : Accel) : Bool :=
  v.inA.isEmpty && v.inB.isEmpty && v.inZ.isEmpty && v.outA.isEmpty && v.outB.isEmpty && v.outZ.isEmpty

/-! ### The invariant -/

/-- Addresses of semaphore words: rising from `lo`, each 4-byte aligned and in the address space (R18, R42). -/
def semWordsRise : Nat → List Nat → Bool
  | _, [] => true
  | lo, a :: rest => decide (lo ≤ a) && decide (a % 4 = 0) && decide (a < addressSpace) && semWordsRise (a + 1) rest

/-- A copy in progress has bytes left, and both its ranges lie in the address space (R177). -/
def bytesLeft (q : Copy) : Bool :=
  decide (q.done < q.len.toNat) && decide (q.src.toNat + q.len.toNat ≤ addressSpace) &&
    decide (q.dst.toNat + q.len.toNat ≤ addressSpace)

/-- A copy to or from a window moves whole aligned words (R176). -/
def wholeWords (q : Copy) : Bool :=
  decide (q.done % 4 = 0) && decide (q.len.toNat % 4 = 0) && decide (q.src.toNat % 4 = 0) &&
    decide (q.dst.toNat % 4 = 0)

/-- What holds of a copy at a label of one. -/
def copyOk (l : Label) (q : Copy) : Bool :=
  match l with
  | .copyByte => bytesLeft q
  | .copyRead => bytesLeft q && wholeWords q
  | .copyWrite => bytesLeft q && wholeWords q
  | _ => true

/-- What holds of the local state at a label: a decrement is tried only with a snapshot that is not 0 (R142), an
increment only with one below the maximum (R143), and B5 posts only while releases are left (R149). -/
def snapshotOk (l : Label) (v : Locals) : Bool :=
  match l with
  | .w2 => v.old != 0
  | .b1w2 => v.old != 0
  | .b8w2 => v.old != 0
  | .p2 => v.old != 0xffffffff
  | .b4p2 => v.old != 0xffffffff
  | .b7p2 => v.old != 0xffffffff
  | .b5p1 => v.n != 0
  | .b5p2 => v.old != 0xffffffff && v.n != 0
  | _ => true

/-- No `ENGINE_STEP` is outstanding: it is no operation of a worker (R130). -/
def Worker.issuable (v : Worker) : Bool := v.cur != some (.engineStep .acc0) && v.cur != some (.engineStep .acc1)

/-- A worker with nothing outstanding has no invocation: no micro-pc, no local state, no copy (R22, R25); no engine
step is outstanding; the local state of an invocation fits its label, and a copy in progress is in bounds. -/
def Worker.wf (v : Worker) : Bool :=
  v.issuable &&
  (v.cur.isSome || (v.pc == .start && v.locals == .none && v.copy == .none)) && snapshotOk v.pc v.locals &&
    copyOk v.pc v.copy

/-- What holds at reset and after every step: the platform's numbers meet R46 and `K_GAIN` is a number (R5); memory is in its canonical form;
semaphore words are aligned (R18); every initialised barrier has a capacity of at least 1 (R20); the operation code
register holds 0 or 1 (R174, R175); both workers are well-formed. -/
def State.inv (s : State) : Bool :=
  s.plat.ok && s.plat.engine.ok && Memory.wf s.mem && semWordsRise 0 s.semWords && s.barriers.all (fun c => c.2 != 0) &&
    (s.dma.op == 0 || s.dma.op == 1) && s.worker0.wf && s.worker1.wf

end Sys2Proof.Machine
end

