-- ==== Sys2Proof/Certificates/Slice0/Obligations.lean ====
section
/-! DEFINITION. The statements for the provers: what the operations of the block, their decoding and one turn of the
machine do, from the numbered rules of spec/. -/

open Sys2Proof Sys2Proof.Machine

/-! ### Encoding -/

/-- 30_encoding.md section 2: descriptors written out byte by byte decode to the operations they stand for; the
packing into bytes is decision D33 and log entry 16. -/
def Obligations.DescriptorWordsDecode : Prop :=
  decode (.acc .acc0) [0x00, 0x00, 0x80, 0x3f, 0x00, 0, 0, 0, 1] = .ok (.wrA .acc0 0x3f800000) ∧
  decode (.acc .acc1) [0, 0, 0, 0, 0x14, 0, 0, 0, 0] = .ok (.rdZ .acc1) ∧
  decode (.acc .acc0) [1, 0, 0, 0, 0x0c, 0, 0, 0, 1] = .ok (.badWr .acc0 0x0c 1) ∧
  decode .eng [1, 0, 1, 0, 1, 0, 0] = .ok (.vector 256 256 0) ∧
  decode .dma [0x0c, 0, 0, 0, 0x08, 0, 0, 0, 1] = .ok (.dmaLen 12) ∧
  decode .prim [8, 0x10, 0, 0, 0, 1, 0, 0, 0, 0, 0, 0, 0] = .ok (.cas32 0x10 1 0) ∧
  decode .prim [6, 0, 0, 0, 0, 4, 0, 0, 0, 8, 0, 0, 0, 2, 0, 0, 0] = .ok (.barrierInit ⟨0, 4, 8⟩ 2)

/-- 30_encoding.md sections 1 and 2: decoding the encoding of a well-formed operation gives the operation, with every
operand at every value; the packing is decision D33 and log entry 16. -/
def Obligations.DecodeOfEncode : Prop := ∀ i : Instr, i.wf = true → decode (encode i).1 (encode i).2 = .ok i

/-- 30_encoding.md sections 1 and 2: no bit of a descriptor is dropped, but for the data field of a read of an
accelerator register, which is no input (decision D33, log entry 16). -/
def Obligations.EncodeOfDecode : Prop :=
  ∀ (t : Target) (bytes : List Byte) (i : Instr), decode t bytes = .ok i →
    (∀ k off, i ≠ .rdA k ∧ i ≠ .rdB k ∧ i ≠ .rdZ k ∧ i ≠ .badRd k off) → encode i = (t, bytes)

/-- R64 `decode_acc`: equality on direction and offset, first match, data ignored, total. -/
def Obligations.AcceleratorDecodeFirstMatch : Prop :=
  ∀ (k : InstId) (cmd : Dir) (off data : Word),
    decodeAcc k cmd off data =
      if cmd = .write ∧ off = 0x00 then .wrA k data
      else if cmd = .write ∧ off = 0x04 then .wrB k data
      else if cmd = .write ∧ off = 0x08 then .wrZ k data
      else if cmd = .read ∧ off = 0x0c then .rdA k
      else if cmd = .read ∧ off = 0x10 then .rdB k
      else if cmd = .read ∧ off = 0x14 then .rdZ k
      else if cmd = .write then .badWr k off data
      else .badRd k off

/-- 30_encoding.md section 2: whatever a device or the engine function decodes has operands its rule admits. -/
def Obligations.DecodedOperationsWellFormed : Prop :=
  ∀ (t : Target) (bytes : List Byte) (i : Instr), decode t bytes = .ok i → t ≠ .prim → i.wf = true

/-! ### One turn of the machine -/

/-- The step of a worker whose next request is a descriptor performs the operation it decodes to, the request taken
off what the worker will issue. A request that uses the bus waits while the other worker holds it (20_memory.md
section 4, decision D32). How requests reach the block is log entry 1. -/
def Obligations.StepRunsTheDescriptor : Prop :=
  ∀ (s : State) (w : WorkerId) (t : Target) (bytes : List Byte) (rest : List Request) (i : Instr),
    s.nextAgent = .worker w → (s.worker w).cur = none → (s.worker w).script = .descriptor t bytes :: rest →
    decode t bytes = .ok i → (∀ k, i ≠ .engineStep k) → (t = .eng ∨ s.busStopped w = false) →
    step s = exec i ((s.tick.setActive w).setWorker w { s.worker w with script := rest })

/-- R63: a transaction by bus address is performed by the instance whose window holds the address, by the bulk
transfer block if its 16 bytes hold it, and otherwise not by this block: the instances, the bulk transfer registers
and the log are then as before. -/
def Obligations.StepDispatchesByAddress : Prop :=
  ∀ (s : State) (w : WorkerId) (dir : Dir) (addr data : Word) (rest : List Request),
    s.plat.ok = true → s.nextAgent = .worker w → (s.worker w).cur = none →
    (s.worker w).script = .bus dir addr 4 data :: rest → s.busStopped w = false →
    (∀ k, (s.plat.accBase k).toNat ≤ addr.toNat → addr.toNat < (s.plat.accBase k).toNat + s.plat.windowSize.toNat →
      step s = exec (decodeAcc k dir (addr - s.plat.accBase k) data)
        ((s.tick.setActive w).setWorker w { s.worker w with script := rest })) ∧
    (s.plat.dmaBase.toNat ≤ addr.toNat → addr.toNat < s.plat.dmaBase.toNat + 0x10 →
      step s = exec (decodeDma dir (addr - s.plat.dmaBase) data)
        ((s.tick.setActive w).setWorker w { s.worker w with script := rest })) ∧
    ((∀ k, ¬((s.plat.accBase k).toNat ≤ addr.toNat ∧
        addr.toNat < (s.plat.accBase k).toNat + s.plat.windowSize.toNat)) →
      ¬(s.plat.dmaBase.toNat ≤ addr.toNat ∧ addr.toNat < s.plat.dmaBase.toNat + 0x10) →
      ∀ t, step s = .next t → t.inst0 = s.inst0 ∧ t.inst1 = s.inst1 ∧ t.dma = s.dma ∧ t.log = s.log)

/-- 10_state.md section 7: a worker's outstanding operation goes on at its turn, and an engine process takes its step
at its own, whatever the workers do. -/
def Obligations.StepContinuesOrRunsTheEngine : Prop :=
  (∀ (s : State) (w : WorkerId) (i : Instr), s.nextAgent = .worker w → (s.worker w).cur = some i →
    s.busStopped w = false → step s = exec i (s.tick.setActive w)) ∧
  (∀ (s : State) (k : InstId), s.nextAgent = .engine k → step s = exec (.engineStep k) s.tick)

/-- 20_memory.md section 4, decision D32 (log entry 5): on a platform whose bus a blocked read holds, a worker takes
no step while the other worker is blocked in a read, unless it calls the engine function; on any other platform
a blocked read of the other worker stops nothing. -/
def Obligations.BlockedReadHoldsTheBus : Prop :=
  (∀ (s : State) (w : WorkerId) (r : Request) (rest : List Request), s.nextAgent = .worker w →
    s.plat.busHeld = true → s.blockedRead (otherWorker w) = true → (s.worker w).cur = none →
    (s.worker w).script = r :: rest → requestUsesBus r = true → step s = .next (s.tick.setActive w)) ∧
  (∀ (s : State) (w : WorkerId) (i : Instr), s.nextAgent = .worker w → s.plat.busHeld = true →
    s.blockedRead (otherWorker w) = true → (s.worker w).cur = some i → step s = .next (s.tick.setActive w)) ∧
  (∀ (s : State) (w : WorkerId), s.plat.busHeld = false → s.busStopped w = false)

/-- 30_encoding.md section 5 (`LD`, `ST`), 20_memory.md section 1 (little-endian, decision D9): a worker's own 4-byte
load gives it the word of shared memory; its store writes that word and no other byte. -/
def Obligations.WorkerLoadsAndStores : Prop :=
  ∀ (s : State) (w : WorkerId) (addr data : Word) (rest : List Request), s.nextAgent = .worker w →
    (s.worker w).cur = none → s.busStopped w = false → s.plat.memoryRange addr.toNat 4 = true →
    ((s.worker w).script = .bus .read addr 4 data :: rest → ∃ t, step s = .next t ∧
      (t.worker w).returned = (s.worker w).returned ++ [.word (s.loadWord addr.toNat)] ∧ (t.worker w).script = rest ∧
      Frame s t [.worker w, .schedule]) ∧
    ((s.worker w).script = .bus .write addr 4 data :: rest → ∃ t, step s = .next t ∧
      (t.worker w).returned = (s.worker w).returned ++ [.ok] ∧ (t.worker w).script = rest ∧
      t.loadWord addr.toNat = data ∧ sameOutside s t addr.toNat 4 ∧ Frame s t [.memory, .worker w, .schedule])

/-! ### Fixed point -/

/-- 40_fixed_point.md section 2 (two's complement and wrap: decision D2, log entry 10): a sum and a difference are
the exact ones reduced to 16 bits, so exact where they fit. -/
def Obligations.FixedSumsWrap : Prop :=
  ∀ a b : Fx,
    (fxAdd a b).toInt = (a.toInt + b.toInt + 32768) % 65536 - 32768 ∧
    (fxSub a b).toInt = (a.toInt - b.toInt + 32768) % 65536 - 32768 ∧
    (-32768 ≤ a.toInt + b.toInt → a.toInt + b.toInt ≤ 32767 → (fxAdd a b).toInt = a.toInt + b.toInt) ∧
    (-32768 ≤ a.toInt - b.toInt → a.toInt - b.toInt ≤ 32767 → (fxSub a b).toInt = a.toInt - b.toInt)

/-- R83: negation wraps; it is exact for every raw value but -32768, which is its own negation. -/
def Obligations.FixedNegation : Prop :=
  (∀ a : Fx, (fxNeg a).toInt = (-a.toInt + 32768) % 65536 - 32768) ∧
  (∀ a : Fx, a.toInt ≠ -32768 → (fxNeg a).toInt = -a.toInt) ∧ (fxNeg (-32768)).toInt = -32768 ∧ fxNeg 0 = 0 ∧
  fxNeg 256 = -256

/-- R86: the four tests, on the signed raw integer; the first two are the sign bit's, zero counting as non-negative. -/
def Obligations.SignTests : Prop :=
  ∀ a : Fx, (nonNegative a = true ↔ 0 ≤ a.toInt) ∧ (nonNegative a = true ↔ a.getLsbD 15 = false) ∧
    (negative a = true ↔ a.toInt < 0) ∧ (negative a = true ↔ a.getLsbD 15 = true) ∧ nonNegative 0 = true ∧
    (aboveNinety a = true ↔ 11520 < a.toInt) ∧ (belowMinusNinety a = true ↔ a.toInt < -11520)

/-- 40_fixed_point.md section 2 (toward minus infinity: decision D1, log entry 10): a right shift is the floor of the
quotient, which is the arithmetic shift of the pattern, and never wraps. Under either value of QUANT (log entry
34) it never wraps and a shift by 0 bits changes nothing. -/
def Obligations.FixedShiftIsFloor : Prop :=
  (∀ (a : Fx) (n : Nat),
    (2 : Int) ^ n * (fxAsr .floor a n).toInt ≤ a.toInt ∧ a.toInt < (2 : Int) ^ n * ((fxAsr .floor a n).toInt + 1) ∧
      fxAsr .floor a n = a.sshiftRight n) ∧
  (∀ (q : Quant) (a : Fx) (n : Nat), (fxAsr q a n).toInt = quantize q a.toInt ((2 : Int) ^ n) ∧ fxAsr q a 0 = a)

/-- 40_fixed_point.md section 2 (exact product, floor: decisions D5 and D1, log entries 10, 11 and 34): the gain
correction is the floor of the exact rational product by K_GAIN, reduced to 16 bits; by the spec's constant it
never wraps. -/
def Obligations.FixedGainIsFloor : Prop :=
  (∀ (c : EngineConfig) (a : Fx), c.quant = .floor →
    fxGain c a = wrap16 ⌊(a.toInt : ℚ) * ((c.gainNum : ℚ) / (c.gainDen : ℚ))⌋) ∧
  (∀ a : Fx, (fxGain .default a).toInt = ⌊(a.toInt : ℚ) * (6072776441 / 10000000000)⌋)

/-- 40_fixed_point.md section 3 (floor and wrap: decisions D1 and D2, log entry 10; the binary32 layout is general
knowledge, log entry 13): the fields of a word make its value, and narrowing is that value scaled, floored and
reduced to 16 bits; a NaN and an infinity have no narrowing of their own. -/
def Obligations.NarrowingIsFloorOfTheValue : Prop :=
  (∀ (neg : Bool) (e m : Nat), e < 256 → m < 2 ^ 23 →
    f32OfWord (BitVec.ofNat 32 ((if neg then 1 else 0) * 2 ^ 31 + e * 2 ^ 23 + m)) =
      if e = 255 then if m = 0 then .infinity neg else .nan
      else if e = 0 then .finite neg m 1 else .finite neg (2 ^ 23 + m) e) ∧
  (∀ (F : Nat) (w : Word) (neg : Bool) (mant scale : Nat), f32OfWord w = .finite neg mant scale →
    narrow .floor F w = some (wrap16 ⌊f32Value neg mant scale * 2 ^ F⌋)) ∧
  (∀ (q : Quant) (F : Nat) (w : Word), (∀ neg mant scale, f32OfWord w ≠ .finite neg mant scale) →
    narrow q F w = none)

/-- 40_fixed_point.md section 3 (sign of zero: decision D36, log entry 13): widening gives the word whose value is
exactly the raw value over its scale; raw 0 gives +0.0, and no other raw value gives a zero or a subnormal. A result
read and written back to an operand register of its type is the same raw value (an inference of the spec). -/
def Obligations.WideningIsExact : Prop :=
  ∀ (F : Nat) (r : Fx), F = 7 ∨ F = 8 →
    (∃ neg mant scale, f32OfWord (widen F r) = .finite neg mant scale ∧
      f32Value neg mant scale = (r.toInt : ℚ) / 2 ^ F ∧ (r ≠ 0 → 2 ^ 23 ≤ mant)) ∧ widen F 0 = 0 ∧
    ∀ q : Quant, narrow q F (widen F r) = some r

/-! ### The engine function -/

/-- 41_cordic_engine.md section 2 (pre-rotation strictly beyond 90 degrees: decision D6, log entry 12): the angle is
moved by exactly 90 degrees, never wraps, and from at most 180 degrees ends within 90. -/
def Obligations.PrecorrectionRange : Prop :=
  ∀ x y t : Fx,
    (11520 < t.toInt → (precorrect ⟨x, y, t⟩).t.toInt = t.toInt - 11520 ∧ (precorrect ⟨x, y, t⟩).x = fxNeg y ∧
      (precorrect ⟨x, y, t⟩).y = x) ∧
    (t.toInt < -11520 → (precorrect ⟨x, y, t⟩).t.toInt = t.toInt + 11520 ∧ (precorrect ⟨x, y, t⟩).x = y ∧
      (precorrect ⟨x, y, t⟩).y = fxNeg x) ∧
    (-11520 ≤ t.toInt → t.toInt ≤ 11520 → precorrect ⟨x, y, t⟩ = ⟨x, y, t⟩) ∧
    (-21248 ≤ (precorrect ⟨x, y, t⟩).t.toInt ∧ (precorrect ⟨x, y, t⟩).t.toInt ≤ 21247) ∧
    (-23040 ≤ t.toInt → t.toInt ≤ 23040 →
      -11520 ≤ (precorrect ⟨x, y, t⟩).t.toInt ∧ (precorrect ⟨x, y, t⟩).t.toInt ≤ 11520)

/-- 41_cordic_engine.md section 6 (an inference of the spec from its decisions D1, D4, D6 and D7; log entries 10, 11
and 12): in rotation mode the residual angle does not depend on the vector, whatever the engine's parameters, and
with the spec's table it is at most 115 raw from an angle of at most 180 degrees. -/
def Obligations.ResidualAngleAtMost115 : Prop :=
  ∀ x y t : Fx, (∀ (c : EngineConfig) (x' y' : Fx), (rotate c x' y' t false).t = (rotate c x y t false).t) ∧
    (-23040 ≤ t.toInt → t.toInt ≤ 23040 →
      -115 ≤ (rotate .default x y t false).t.toInt ∧ (rotate .default x y t false).t.toInt ≤ 115)

/-- 41_cordic_engine.md section 2 and 92_eei_decisions.md section 6 (decision D6, an inference of the spec; log entry
12): in rotation mode the two readings of the pre-correction differ at +90 degrees only, with any table whose first
constant is 45 degrees and any gain and quantisation; at +90 degrees the spec's values tell them apart. -/
def Obligations.PreModesAgreeBelowNinety : Prop :=
  (∀ (c : EngineConfig) (x y t : Fx), c.atan.get 0 = 5760 → t ≠ 11520 →
    rotate { c with preMode := .always } x y t false = rotate { c with preMode := .conditional } x y t false) ∧
  rotate .default 256 0 11520 false = ⟨-1, 256, -6⟩ ∧
  rotate { EngineConfig.default with preMode := .always } 256 0 11520 false = ⟨0, 256, 6⟩

/-- 41_cordic_engine.md sections 1 to 5: `ROTATE` and `VECTOR` return the triple of the engine function in their mode,
under the engine's parameters, and change no state of the block (that the call is a worker's is log entry 15). The
engine function is the pre-correction, then seven micro-rotations with the table's constants, counter-clockwise
(d = 1) in rotation mode exactly if the angle is not negative and in vectoring mode exactly if y is negative
(decision D7, log entry 12), then the gain on x and y alone (log entries 10, 11 and 34). -/
def Obligations.EngineFunctionReturnsItsTriple : Prop :=
  (∀ (x y t0 : Fx) (s : State),
    (∃ t, exec (.rotate x y t0) s = .next t ∧
      returns s t (.triple (rotate s.plat.engine x y t0 false).x (rotate s.plat.engine x y t0 false).y
        (rotate s.plat.engine x y t0 false).t) ∧ Frame s t [.worker s.active]) ∧
    (∃ t, exec (.vector x y t0) s = .next t ∧
      returns s t (.triple (rotate s.plat.engine x y t0 true).x (rotate s.plat.engine x y t0 true).y
        (rotate s.plat.engine x y t0 true).t) ∧ Frame s t [.worker s.active])) ∧
  (∀ (c : EngineConfig) (x y t0 : Fx) (mode : Bool) (v : Nat → Triple),
    v 0 = precorrectWith c.preMode ⟨x, y, t0⟩ →
    (∀ i : Fin 7, ∃ d : Int,
      (d = 1 ↔ if mode then (v i.val).y.toInt < 0 else 0 ≤ (v i.val).t.toInt) ∧ (d = 1 ∨ d = -1) ∧
      v (i.val + 1) = ⟨wrap16 ((v i.val).x.toInt - d * quantize c.quant (v i.val).y.toInt (2 ^ i.val)),
        wrap16 ((v i.val).y.toInt + d * quantize c.quant (v i.val).x.toInt (2 ^ i.val)),
        wrap16 ((v i.val).t.toInt - d * (c.atan.get i).toInt)⟩) →
    rotate c x y t0 mode =
      ⟨wrap16 (quantize c.quant ((v 7).x.toInt * c.gainNum) c.gainDen),
        wrap16 (quantize c.quant ((v 7).y.toInt * c.gainNum) c.gainDen), (v 7).t⟩)

/-! ### The transaction interface -/

/-- 42_transaction_interface.md section 2: a write to an operand register always completes and enqueues exactly one
element, the word narrowed to the register's type; for a NaN or an infinity it is the next free value
(decision D11, log entry 9). -/
def Obligations.WritesEnqueueOneElement : Prop :=
  ∀ (k : InstId) (w : Word) (s : State),
    (∃ t r, exec (.wrA k w) s = .next t ∧ returns s t .ok ∧
      t.inst k = { s.inst k with inA := (s.inst k).inA ++ [r] } ∧ Frame s t [.inst k, .worker s.active, .draws] ∧
      (∀ q, narrow s.plat.engine.quant 8 w = some q → r = q ∧ t.draws = s.draws) ∧
      (narrow s.plat.engine.quant 8 w = none → r = Config.draw16 s.draws ∧ t.draws = s.draws + 1)) ∧
    (∃ t r, exec (.wrB k w) s = .next t ∧ returns s t .ok ∧
      t.inst k = { s.inst k with inB := (s.inst k).inB ++ [r] } ∧ Frame s t [.inst k, .worker s.active, .draws] ∧
      (∀ q, narrow s.plat.engine.quant 8 w = some q → r = q ∧ t.draws = s.draws) ∧
      (narrow s.plat.engine.quant 8 w = none → r = Config.draw16 s.draws ∧ t.draws = s.draws + 1)) ∧
    (∃ t r, exec (.wrZ k w) s = .next t ∧ returns s t .ok ∧
      t.inst k = { s.inst k with inZ := (s.inst k).inZ ++ [r] } ∧ Frame s t [.inst k, .worker s.active, .draws] ∧
      (∀ q, narrow s.plat.engine.quant 7 w = some q → r = q ∧ t.draws = s.draws) ∧
      (narrow s.plat.engine.quant 7 w = none → r = Config.draw16 s.draws ∧ t.draws = s.draws + 1))

/-- R124, R125, R129: a read of a result register whose channel holds an element takes the head and returns it widened
to its word; nothing else changes. -/
def Obligations.ReadsTakeTheHead : Prop :=
  ∀ (k : InstId) (s : State) (r : Fx) (rest : List Fx),
    ((s.inst k).outA = r :: rest → ∃ t, exec (.rdA k) s = .next t ∧ returns s t (.word (widen 8 r)) ∧
      t.inst k = { s.inst k with outA := rest } ∧ Frame s t [.inst k, .worker s.active]) ∧
    ((s.inst k).outB = r :: rest → ∃ t, exec (.rdB k) s = .next t ∧ returns s t (.word (widen 8 r)) ∧
      t.inst k = { s.inst k with outB := rest } ∧ Frame s t [.inst k, .worker s.active]) ∧
    ((s.inst k).outZ = r :: rest → ∃ t, exec (.rdZ k) s = .next t ∧ returns s t (.word (widen 7 r)) ∧
      t.inst k = { s.inst k with outZ := rest } ∧ Frame s t [.inst k, .worker s.active])

/-- 42_transaction_interface.md section 3, 10_state.md section 7: a read of a result register whose channel is empty
holds: it stays outstanding, returns nothing, and nothing but its worker changes. -/
def Obligations.ReadsHoldWhileEmpty : Prop :=
  ∀ (k : InstId) (s : State),
    ((s.inst k).outA = [] → ∃ t, exec (.rdA k) s = .next t ∧ staysAt s t (.rdA k) .start ∧
      Frame s t [.worker s.active]) ∧
    ((s.inst k).outB = [] → ∃ t, exec (.rdB k) s = .next t ∧ staysAt s t (.rdB k) .start ∧
      Frame s t [.worker s.active]) ∧
    ((s.inst k).outZ = [] → ∃ t, exec (.rdZ k) s = .next t ∧ staysAt s t (.rdZ k) .start ∧
      Frame s t [.worker s.active])

/-- R127: a write of any offset but the three is `BAD_WR`; it always completes with success, appends its one record
and changes nothing else, whatever its data. -/
def Obligations.BadWriteLogsAndDiscards : Prop :=
  (∀ (k : InstId) (off w : Word), decodeAcc k .write off w = .badWr k off w ↔
    off ≠ 0x00 ∧ off ≠ 0x04 ∧ off ≠ 0x08) ∧
  (∀ (k : InstId) (off w : Word) (s : State), ∃ t, exec (.badWr k off w) s = .next t ∧ returns s t .ok ∧
    t.log = s.log ++ [⟨k, off, .write⟩] ∧ Frame s t [.log, .worker s.active])

/-- 42_transaction_interface.md section 4: a read of any offset but the three always completes, appends its one record
and returns the next free word (decision D12, log entry 9); nothing else changes. -/
def Obligations.BadReadLogsAndReturnsAFreeWord : Prop :=
  (∀ (k : InstId) (off w : Word), decodeAcc k .read off w = .badRd k off ↔
    off ≠ 0x0c ∧ off ≠ 0x10 ∧ off ≠ 0x14) ∧
  (∀ (k : InstId) (off : Word) (s : State), ∃ t, exec (.badRd k off) s = .next t ∧
    returns s t (.word (Config.draw32 s.draws)) ∧ t.log = s.log ++ [⟨k, off, .read⟩] ∧ t.draws = s.draws + 1 ∧
    Frame s t [.log, .worker s.active, .draws])

/-- 42_transaction_interface.md section 5 (one atomic step: decision D16, log entry 14): an enabled engine step takes
the three heads, rotates them in rotation mode and pushes the three results; with any input channel empty nothing
changes. -/
def Obligations.EngineStepTakesThree : Prop :=
  (∀ (k : InstId) (s : State) (x y t0 : Fx) (as bs zs : List Fx), (s.inst k).inA = x :: as →
    (s.inst k).inB = y :: bs → (s.inst k).inZ = t0 :: zs → ∃ t, exec (.engineStep k) s = .next t ∧
      t.inst k = ⟨as, bs, zs, (s.inst k).outA ++ [(rotate s.plat.engine x y t0 false).x], (s.inst k).outB ++
        [(rotate s.plat.engine x y t0 false).y], (s.inst k).outZ ++ [(rotate s.plat.engine x y t0 false).t],
        .idle⟩ ∧ Frame s t [.inst k]) ∧
  (∀ (k : InstId) (s : State), (s.inst k).inA = [] ∨ (s.inst k).inB = [] ∨ (s.inst k).inZ = [] →
    exec (.engineStep k) s = .next s)

/-- 42_transaction_interface.md section 6 (an inference of the spec): the n-th engine step consumes the n-th elements
of the three input channels, and its results are the n-th elements pushed to the three output channels. -/
def Obligations.EngineIsFirstInFirstOut : Prop :=
  ∀ (n : Nat) (k : InstId) (s : State), n ≤ (s.inst k).inA.length → n ≤ (s.inst k).inB.length →
    n ≤ (s.inst k).inZ.length → ∃ t, execTimes n (.engineStep k) s = .next t ∧
      (t.inst k).inA = (s.inst k).inA.drop n ∧ (t.inst k).inB = (s.inst k).inB.drop n ∧
      (t.inst k).inZ = (s.inst k).inZ.drop n ∧
      (t.inst k).outA = (s.inst k).outA ++ ((((s.inst k).inA.zip ((s.inst k).inB.zip (s.inst k).inZ)).take n).map
        fun v => (rotate s.plat.engine v.1 v.2.1 v.2.2 false).x) ∧
      (t.inst k).outB = (s.inst k).outB ++ ((((s.inst k).inA.zip ((s.inst k).inB.zip (s.inst k).inZ)).take n).map
        fun v => (rotate s.plat.engine v.1 v.2.1 v.2.2 false).y) ∧
      (t.inst k).outZ = (s.inst k).outZ ++ ((((s.inst k).inA.zip ((s.inst k).inB.zip (s.inst k).inZ)).take n).map
        fun v => (rotate s.plat.engine v.1 v.2.1 v.2.2 false).t) ∧ Frame s t [.inst k]

/-- 45_host_protocol.md section 2: on a drained instance, three operand writes, the engine step they enable and three
reads return the rotation of the narrowed operands, and the instance is drained again. -/
def Obligations.ExchangeReturnsTheRotation : Prop :=
  ∀ (k : InstId) (s : State) (wa wb wz : Word) (x y z : Fx), (s.inst k).drained = true →
    narrow s.plat.engine.quant 8 wa = some x → narrow s.plat.engine.quant 8 wb = some y →
    narrow s.plat.engine.quant 7 wz = some z →
    ∃ t, execAll [.wrA k wa, .wrB k wb, .wrZ k wz, .engineStep k, .rdA k, .rdB k, .rdZ k] s = .next t ∧
      t.self.returned = s.self.returned ++ [.ok, .ok, .ok, .word (widen 8 (rotate s.plat.engine x y z false).x),
        .word (widen 8 (rotate s.plat.engine x y z false).y), .word (widen 7 (rotate s.plat.engine x y z false).t)] ∧
      (t.inst k).drained = true ∧ Frame s t [.inst k, .worker s.active]

/-! ### The bulk transfer block -/

/-- 44_bulk_transfer.md section 2 (register layout: decision D24, log entry 32): a write of a pointer or of the length
stores the word and does nothing else. -/
def Obligations.BulkRegisterWritesStore : Prop :=
  ∀ (v : Word) (s : State),
    (∃ t, exec (.dmaSrc v) s = .next t ∧ returns s t .ok ∧ t.dma = ⟨v, s.dma.dst, s.dma.len, s.dma.op⟩ ∧
      Frame s t [.dma, .worker s.active]) ∧
    (∃ t, exec (.dmaDst v) s = .next t ∧ returns s t .ok ∧ t.dma = ⟨s.dma.src, v, s.dma.len, s.dma.op⟩ ∧
      Frame s t [.dma, .worker s.active]) ∧
    (∃ t, exec (.dmaLen v) s = .next t ∧ returns s t .ok ∧ t.dma = ⟨s.dma.src, s.dma.dst, v, s.dma.op⟩ ∧
      Frame s t [.dma, .worker s.active])

/-- R174: a write of 0 to the operation code copies nothing; the three other registers keep their values. -/
def Obligations.BulkNoOperation : Prop :=
  decodeDma .write 0x0c 0 = .dmaOpNop ∧
  ∀ s : State, ∃ t, exec .dmaOpNop s = .next t ∧ returns s t .ok ∧ t.dma.op = 0 ∧ t.dma.src = s.dma.src ∧
    t.dma.dst = s.dma.dst ∧ t.dma.len = s.dma.len ∧ Frame s t [.dma, .worker s.active]

/-- 44_bulk_transfer.md section 3: a copy of length 0 copies nothing and returns at once. -/
def Obligations.CopyOfNothingReturns : Prop :=
  ∀ s : State, s.self.pc = .start → s.dma.len = 0 → ∃ t, exec .dmaOpCopy s = .next t ∧ returns s t .ok ∧
    t.dma = ⟨s.dma.src, s.dma.dst, s.dma.len, 1⟩ ∧ Frame s t [.dma, .worker s.active]

/-- 44_bulk_transfer.md sections 2 and 3 (unit and order: decision D26, log entry 20): a byte of a memory copy is one
step that reads the next source byte and writes the next destination byte; the write returns with the last. -/
def Obligations.CopyMovesOneByteAStep : Prop :=
  ∀ s : State, s.self.pc = .copyByte → ∃ t, exec .dmaOpCopy s = .next t ∧
    t.loadByte (s.self.copy.dst.toNat + s.self.copy.done) = s.loadByte (s.self.copy.src.toNat + s.self.copy.done) ∧
    sameOutside s t (s.self.copy.dst.toNat + s.self.copy.done) 1 ∧ Frame s t [.memory, .worker s.active] ∧
    (s.self.copy.len.toNat ≤ s.self.copy.done + 1 → returns s t .ok) ∧
    (s.self.copy.done + 1 < s.self.copy.len.toNat → staysAt s t .dmaOpCopy .copyByte ∧
      t.self.copy = { s.self.copy with done := s.self.copy.done + 1 })

/-- 44_bulk_transfer.md sections 2 and 3 (decision D26, log entry 20): a copy between disjoint ranges of shared memory
runs to its end in one step for the request and one a byte; the destination then holds the source's bytes, no
other byte changes, and the registers keep their values. -/
def Obligations.CopyOfMemoryCompletes : Prop :=
  ∀ s : State, s.plat.ok = true → s.self.pc = .start → s.dma.len ≠ 0 →
    s.plat.memoryRange s.dma.src.toNat s.dma.len.toNat = true →
    s.plat.memoryRange s.dma.dst.toNat s.dma.len.toNat = true →
    overlaps s.dma.src.toNat s.dma.len.toNat s.dma.dst.toNat s.dma.len.toNat = false →
    ∃ t, execTimes (1 + s.dma.len.toNat) .dmaOpCopy s = .next t ∧ returns s t .ok ∧
      (∀ j, j < s.dma.len.toNat → t.loadByte (s.dma.dst.toNat + j) = s.loadByte (s.dma.src.toNat + j)) ∧
      sameOutside s t s.dma.dst.toNat s.dma.len.toNat ∧ t.dma = ⟨s.dma.src, s.dma.dst, s.dma.len, 1⟩ ∧
      Frame s t [.memory, .dma, .worker s.active]

/-- 44_bulk_transfer.md sections 2 and 3 (decision D26, log entry 20): a 12-byte copy from memory to the first
register of an instance performs `WR_A`, `WR_B`, `WR_Z` with the three words. -/
def Obligations.CopyToWindowSubmits : Prop :=
  ∀ (k : InstId) (s : State) (x y z : Fx), s.plat.ok = true → s.self.pc = .start → s.dma.len = 12 →
    s.dma.dst = s.plat.accBase k → s.dma.src.toNat % 4 = 0 → s.plat.memoryRange s.dma.src.toNat 12 = true →
    narrow s.plat.engine.quant 8 (s.loadWord s.dma.src.toNat) = some x →
    narrow s.plat.engine.quant 8 (s.loadWord (s.dma.src.toNat + 4)) = some y →
    narrow s.plat.engine.quant 7 (s.loadWord (s.dma.src.toNat + 8)) = some z →
    ∃ t, execTimes 7 .dmaOpCopy s = .next t ∧ returns s t .ok ∧
      t.inst k = { s.inst k with inA := (s.inst k).inA ++ [x], inB := (s.inst k).inB ++ [y],
                                 inZ := (s.inst k).inZ ++ [z] } ∧
      Frame s t [.inst k, .dma, .worker s.active]

/-- 44_bulk_transfer.md section 3 (decision D26, log entry 20): a 12-byte copy from the first result register of an
instance to memory stores the three widened heads and takes them off their channels. -/
def Obligations.CopyFromWindowCollects : Prop :=
  ∀ (k : InstId) (s : State) (x y z : Fx) (as bs zs : List Fx), s.plat.ok = true → s.self.pc = .start →
    s.dma.len = 12 → s.dma.src = s.plat.accBase k + 0x0c → s.dma.dst.toNat % 4 = 0 →
    s.plat.memoryRange s.dma.dst.toNat 12 = true →
    (s.inst k).outA = x :: as → (s.inst k).outB = y :: bs → (s.inst k).outZ = z :: zs →
    ∃ t, execTimes 7 .dmaOpCopy s = .next t ∧ returns s t .ok ∧
      t.loadWord s.dma.dst.toNat = widen 8 x ∧ t.loadWord (s.dma.dst.toNat + 4) = widen 8 y ∧
      t.loadWord (s.dma.dst.toNat + 8) = widen 7 z ∧ sameOutside s t s.dma.dst.toNat 12 ∧
      t.inst k = { s.inst k with outA := as, outB := bs, outZ := zs } ∧
      Frame s t [.inst k, .memory, .dma, .worker s.active]

/-- 44_bulk_transfer.md section 3: a copy whose next word comes from a result register of an instance, at offset 0x0c,
0x10 or 0x14, whose channel is empty holds with it, and nothing but its worker changes. -/
def Obligations.CopyHoldsAtAnEmptyChannel : Prop :=
  ∀ (k : InstId) (s : State) (off : Nat), s.plat.ok = true → s.self.pc = .copyRead →
    s.self.copy.src.toNat + s.self.copy.done = (s.plat.accBase k).toNat + off →
    (off = 0x0c ∧ (s.inst k).outA = []) ∨ (off = 0x10 ∧ (s.inst k).outB = []) ∨
      (off = 0x14 ∧ (s.inst k).outZ = []) →
    ∃ t, exec .dmaOpCopy s = .next t ∧ staysAt s t .dmaOpCopy .copyRead ∧ t.self.copy = s.self.copy ∧
      Frame s t [.worker s.active]

/-- 44_bulk_transfer.md section 3 (decisions D26 and D27, log entry 20): a copy of a length that is not 0 is refused
where a range passes the last address, where its ranges share a byte, where it touches a device with an address or
a length that is no multiple of 4, and where a range is neither all shared memory nor inside one window; any other
starts. A range that crosses an end of a window, or shares a byte with the bulk transfer registers, is neither. -/
def Obligations.CopyRefusals : Prop :=
  (∀ s : State, s.self.pc = .start → s.dma.len ≠ 0 →
    if addressSpace < s.dma.src.toNat + s.dma.len.toNat ∨ addressSpace < s.dma.dst.toNat + s.dma.len.toNat then
      exec .dmaOpCopy s = .refused .bulkWraps
    else if overlaps s.dma.src.toNat s.dma.len.toNat s.dma.dst.toNat s.dma.len.toNat = true then
      exec .dmaOpCopy s = .refused .bulkOverlap
    else if (s.plat.touchesDevice s.dma.src.toNat s.dma.len.toNat = true ∨
        s.plat.touchesDevice s.dma.dst.toNat s.dma.len.toNat = true) ∧
        (s.dma.len.toNat % 4 ≠ 0 ∨ s.dma.src.toNat % 4 ≠ 0 ∨ s.dma.dst.toNat % 4 ≠ 0) then
      exec .dmaOpCopy s = .refused .bulkUnaligned
    else if (s.plat.memoryRange s.dma.src.toNat s.dma.len.toNat = false ∧
        s.plat.windowRange s.dma.src.toNat s.dma.len.toNat = false) ∨
        (s.plat.memoryRange s.dma.dst.toNat s.dma.len.toNat = false ∧
          s.plat.windowRange s.dma.dst.toNat s.dma.len.toNat = false) then
      exec .dmaOpCopy s = .refused .bulkStraddles
    else ∃ t, exec .dmaOpCopy s = .next t ∧ Frame s t [.dma, .worker s.active] ∧
      staysAt s t .dmaOpCopy (if s.plat.touchesDevice s.dma.src.toNat s.dma.len.toNat = true ∨
        s.plat.touchesDevice s.dma.dst.toNat s.dma.len.toNat = true then .copyRead else .copyByte)) ∧
  (∀ (p : Platform) (lo n : Nat), p.ok = true → 0 < n →
    (∃ k, overlaps lo n (p.accBase k).toNat p.windowSize.toNat = true ∧
      insideOf lo n (p.accBase k).toNat p.windowSize.toNat = false) ∨
      overlaps lo n p.dmaBase.toNat dmaBytes = true →
    p.memoryRange lo n = false ∧ p.windowRange lo n = false)

/-- 30_encoding.md section 2 `decode_dma` and 44_bulk_transfer.md section 4 (offsets: decision D24, log entry 32;
refusal: decision D25, log entry 21): the five forms, first match, and every other transaction to the bulk transfer
block is refused. 20_memory.md section 2 (decision D10, log entry 21): a transaction to a window or to the bulk
transfer block of a length that is not 4 is refused. -/
def Obligations.BulkDecodeAndReserved : Prop :=
  (∀ (cmd : Dir) (off data : Word),
    decodeDma cmd off data =
      if cmd = .write ∧ off = 0x00 then .dmaSrc data
      else if cmd = .write ∧ off = 0x04 then .dmaDst data
      else if cmd = .write ∧ off = 0x08 then .dmaLen data
      else if cmd = .write ∧ off = 0x0c ∧ data = 0 then .dmaOpNop
      else if cmd = .write ∧ off = 0x0c ∧ data = 1 then .dmaOpCopy
      else .dmaReserved cmd off data) ∧
  (∀ (cmd : Dir) (off data : Word) (s : State), exec (.dmaReserved cmd off data) s = .refused .dmaReserved) ∧
  (∀ (s : State) (w : WorkerId) (dir : Dir) (addr data : Word) (len : Nat) (rest : List Request),
    s.nextAgent = .worker w → (s.worker w).cur = none → (s.worker w).script = .bus dir addr len data :: rest →
    s.busStopped w = false → len ≠ 4 →
    (∃ k, (s.plat.accBase k).toNat ≤ addr.toNat ∧
      addr.toNat < (s.plat.accBase k).toNat + s.plat.windowSize.toNat) ∨
      (s.plat.dmaBase.toNat ≤ addr.toNat ∧ addr.toNat < s.plat.dmaBase.toNat + 0x10) →
    step s = .refused .transactionLength)

/-! ### The synchronisation primitives -/

/-- 43_sync_primitives.md section 1 (no spurious failure: decision D19, log entry 24): one step that writes the word
exactly if it holds the expected value, and returns whether it did. -/
def Obligations.CompareAndSwap : Prop :=
  ∀ (addr expect new : Word) (s : State), s.plat.wordCheck addr = none →
    ∃ t, exec (.cas32 addr expect new) s = .next t ∧
      returns s t (.flag (decide (s.loadWord addr.toNat = expect))) ∧
      t.loadWord addr.toNat = (if s.loadWord addr.toNat = expect then new else s.loadWord addr.toNat) ∧
      sameOutside s t addr.toNat 4 ∧ (s.loadWord addr.toNat ≠ expect → t.mem = s.mem) ∧
      Frame s t [.memory, .worker s.active]

/-- 43_sync_primitives.md sections 2 and 3 (one plain store: decision D21, log entry 17): `SEM_INIT` and `MUTEX_INIT`
write the count, 1 for a mutex, and no other byte; the word counts as initialised. -/
def Obligations.InitialisationStoresTheCount : Prop :=
  ∀ (a n : Word) (s : State), s.plat.wordCheck a = none →
    (∃ t, exec (.semInit a n) s = .next t ∧ returns s t .done ∧ t.loadWord a.toNat = n ∧
      sameOutside s t a.toNat 4 ∧ t.semCheck a = none ∧ Frame s t [.memory, .semWords, .worker s.active]) ∧
    (∃ t, exec (.mutexInit a) s = .next t ∧ returns s t .done ∧ t.loadWord a.toNat = 1 ∧
      sameOutside s t a.toNat 4 ∧ t.semCheck a = none ∧ Frame s t [.memory, .semWords, .worker s.active])

/-- 43_sync_primitives.md sections 2 and 3: with the count not 0, W1 and W2 of `SEM_WAIT` or `MUTEX_LOCK` on end take
exactly one from the count and return. -/
def Obligations.WaitTakesOne : Prop :=
  ∀ (a : Word) (s : State), s.semCheck a = none → s.self.pc ≠ .w2 → s.loadWord a.toNat ≠ 0 →
    (∃ u t, exec (.semWait a) s = .next u ∧ staysAt s u (.semWait a) .w2 ∧ exec (.semWait a) u = .next t ∧
      returns s t .done ∧ (t.loadWord a.toNat).toNat = (s.loadWord a.toNat).toNat - 1 ∧
      sameOutside s t a.toNat 4 ∧ Frame s t [.memory, .worker s.active]) ∧
    (∃ u t, exec (.mutexLock a) s = .next u ∧ staysAt s u (.mutexLock a) .w2 ∧ exec (.mutexLock a) u = .next t ∧
      returns s t .done ∧ (t.loadWord a.toNat).toNat = (s.loadWord a.toNat).toNat - 1 ∧
      sameOutside s t a.toNat 4 ∧ Frame s t [.memory, .worker s.active])

/-- 43_sync_primitives.md section 2: W1 at a count of 0 stays at W1, and W2 at a count that changed goes back to W1;
neither returns or changes memory. -/
def Obligations.WaitGoesBack : Prop :=
  ∀ (a : Word) (s : State), s.semCheck a = none →
    (s.self.pc ≠ .w2 ∧ s.loadWord a.toNat = 0) ∨ (s.self.pc = .w2 ∧ s.loadWord a.toNat ≠ s.self.locals.old) →
    (∃ t, exec (.semWait a) s = .next t ∧ staysAt s t (.semWait a) .w1 ∧ Frame s t [.worker s.active]) ∧
    (∃ t, exec (.mutexLock a) s = .next t ∧ staysAt s t (.mutexLock a) .w1 ∧ Frame s t [.worker s.active])

/-- 43_sync_primitives.md section 2 (an inference of the spec: property (b) of the semaphore): in a state that meets
the invariant, a wait on a count of 0 does not return and leaves the count 0. -/
def Obligations.WaitDoesNotReturnAtZero : Prop :=
  ∀ (a : Word) (s t : State), s.inv = true → s.loadWord a.toNat = 0 →
    exec (.semWait a) s = .next t ∨ exec (.mutexLock a) s = .next t →
    t.self.returned = s.self.returned ∧ t.loadWord a.toNat = 0

/-- 43_sync_primitives.md sections 2 and 3: with the count below the maximum, P1 and P2 of `SEM_POST` or
`MUTEX_UNLOCK` on end add exactly one to the count and return, whoever holds a mutex. -/
def Obligations.PostAddsOne : Prop :=
  ∀ (a : Word) (s : State), s.semCheck a = none → s.self.pc ≠ .p2 → s.loadWord a.toNat ≠ 0xffffffff →
    (∃ u t, exec (.semPost a) s = .next u ∧ staysAt s u (.semPost a) .p2 ∧ exec (.semPost a) u = .next t ∧
      returns s t .done ∧ (t.loadWord a.toNat).toNat = (s.loadWord a.toNat).toNat + 1 ∧
      sameOutside s t a.toNat 4 ∧ Frame s t [.memory, .worker s.active]) ∧
    (∃ u t, exec (.mutexUnlock a) s = .next u ∧ staysAt s u (.mutexUnlock a) .p2 ∧
      exec (.mutexUnlock a) u = .next t ∧
      returns s t .done ∧ (t.loadWord a.toNat).toNat = (s.loadWord a.toNat).toNat + 1 ∧
      sameOutside s t a.toNat 4 ∧ Frame s t [.memory, .worker s.active])

/-- 43_sync_primitives.md section 2 (the maximum is refused: decision D18, log entry 21): P1 at the maximum count is
refused; P2 at a count that changed goes back to P1. -/
def Obligations.PostRefusedOrGoesBack : Prop :=
  ∀ (a : Word) (s : State), s.semCheck a = none →
    (s.self.pc ≠ .p2 → s.loadWord a.toNat = 0xffffffff →
      exec (.semPost a) s = .refused .countOverflow ∧ exec (.mutexUnlock a) s = .refused .countOverflow) ∧
    (s.self.pc = .p2 → s.loadWord a.toNat ≠ s.self.locals.old →
      (∃ t, exec (.semPost a) s = .next t ∧ staysAt s t (.semPost a) .p1 ∧ Frame s t [.worker s.active]) ∧
      (∃ t, exec (.mutexUnlock a) s = .next t ∧ staysAt s t (.mutexUnlock a) .p1 ∧ Frame s t [.worker s.active]))

/-- 20_memory.md section 2 and 43_sync_primitives.md section 2 (decision D18, log entries 17, 19 and 21): a primitive
on a misaligned word or a word that is not shared memory, a barrier's three words tested in the order counter,
lock, release, and a wait or a post on a word of memory no `SEM_INIT` has written, is refused. -/
def Obligations.PrimitivesRefuseBadWords : Prop :=
  (∀ (a n m : Word) (s : State) (why : Refusal),
    (aligned4 a = false ∧ why = .misalignedWord) ∨
      (aligned4 a = true ∧ s.plat.memoryRange a.toNat 4 = false ∧ why = .notSharedMemory) →
    exec (.cas32 a n m) s = .refused why ∧ exec (.semInit a n) s = .refused why ∧
      exec (.mutexInit a) s = .refused why ∧ exec (.semWait a) s = .refused why ∧
      exec (.mutexLock a) s = .refused why ∧ exec (.semPost a) s = .refused why ∧
      exec (.mutexUnlock a) s = .refused why ∧
      (∀ (b : Barrier) (capacity : Word), b.counter = a ∨ (s.plat.wordCheck b.counter = none ∧ b.gateLock = a) ∨
        (s.plat.wordCheck b.counter = none ∧ s.plat.wordCheck b.gateLock = none ∧ b.releaseSem = a) →
        exec (.barrierInit b capacity) s = .refused why ∧ exec (.barrierEnter b) s = .refused why)) ∧
  (∀ (a : Word) (s : State),
    aligned4 a = true → s.plat.memoryRange a.toNat 4 = true → s.semWords.contains a.toNat = false →
    exec (.semWait a) s = .refused .semNotInitialised ∧ exec (.mutexLock a) s = .refused .semNotInitialised ∧
      exec (.semPost a) s = .refused .semNotInitialised ∧ exec (.mutexUnlock a) s = .refused .semNotInitialised)

/-- 43_sync_primitives.md section 4 (initial values and order: decision D22, log entry 18): N1, N2 and N3 of
`BARRIER_INIT` on end leave the counter 0, the lock 1, the release count 0 and the capacity fixed, and the lock and
the release word count as initialised semaphores; capacity 0 is refused. -/
def Obligations.BarrierInitialises : Prop :=
  ∀ (b : Barrier) (capacity : Word) (s : State), b.wf = true → s.plat.barrierCheck b = none → s.self.pc = .start →
    (capacity ≠ 0 → ∃ u v t, exec (.barrierInit b capacity) s = .next u ∧ exec (.barrierInit b capacity) u = .next v ∧
      exec (.barrierInit b capacity) v = .next t ∧ returns s t .done ∧ t.loadWord b.counter.toNat = 0 ∧
      t.loadWord b.gateLock.toNat = 1 ∧ t.loadWord b.releaseSem.toNat = 0 ∧
      findCapacity t.barriers b = some capacity ∧ t.semCheck b.gateLock = none ∧ t.semCheck b.releaseSem = none ∧
      (∀ x, (x < b.counter.toNat ∨ b.counter.toNat + 4 ≤ x) → (x < b.gateLock.toNat ∨ b.gateLock.toNat + 4 ≤ x) →
        (x < b.releaseSem.toNat ∨ b.releaseSem.toNat + 4 ≤ x) → t.loadByte x = s.loadByte x) ∧
      Frame s t [.memory, .semWords, .barriers, .worker s.active]) ∧
    (capacity = 0 → exec (.barrierInit b capacity) s = .refused .capacityZero)

/-- 43_sync_primitives.md section 4 (counter accesses: decision D23): an arrival that is not the last takes the lock,
counts itself, frees the lock and waits at B8; it returns nothing. -/
def Obligations.BarrierArrivalWaits : Prop :=
  ∀ (b : Barrier) (capacity : Word) (s : State), b.wf = true → s.plat.barrierCheck b = none →
    findCapacity s.barriers b = some capacity → s.semCheck b.gateLock = none → s.self.pc = .start →
    s.loadWord b.gateLock.toNat ≠ 0 → s.loadWord b.counter.toNat ≠ capacity - 1 →
    ∃ t, execTimes 6 (.barrierEnter b) s = .next t ∧ staysAt s t (.barrierEnter b) .b8w1 ∧
      t.loadWord b.counter.toNat = s.loadWord b.counter.toNat + 1 ∧
      t.loadWord b.gateLock.toNat = s.loadWord b.gateLock.toNat ∧
      t.loadWord b.releaseSem.toNat = s.loadWord b.releaseSem.toNat ∧ sameOutside s t b.counter.toNat 4 ∧
      Frame s t [.memory, .worker s.active]

/-- 43_sync_primitives.md section 4 (decision D23): the last arrival takes the lock, resets the counter, frees the
lock, posts the release count exactly capacity - 1 times and returns without waiting for anybody. -/
def Obligations.BarrierLastArrivalReleases : Prop :=
  ∀ (b : Barrier) (capacity : Word) (s : State), b.wf = true → s.plat.barrierCheck b = none →
    findCapacity s.barriers b = some capacity → capacity ≠ 0 → s.semCheck b.gateLock = none →
    s.semCheck b.releaseSem = none → s.self.pc = .start → s.loadWord b.gateLock.toNat ≠ 0 →
    s.loadWord b.counter.toNat = capacity - 1 →
    (s.loadWord b.releaseSem.toNat).toNat + (capacity.toNat - 1) < 2 ^ 32 →
    ∃ t, execTimes (6 + 2 * (capacity.toNat - 1)) (.barrierEnter b) s = .next t ∧ returns s t .done ∧
      t.loadWord b.counter.toNat = 0 ∧ t.loadWord b.gateLock.toNat = s.loadWord b.gateLock.toNat ∧
      (t.loadWord b.releaseSem.toNat).toNat = (s.loadWord b.releaseSem.toNat).toNat + (capacity.toNat - 1) ∧
      (∀ x, (x < b.counter.toNat ∨ b.counter.toNat + 4 ≤ x) →
        (x < b.releaseSem.toNat ∨ b.releaseSem.toNat + 4 ≤ x) → t.loadByte x = s.loadByte x) ∧
      Frame s t [.memory, .worker s.active]

/-- 43_sync_primitives.md section 4: a worker at B8 returns once it has taken a release, and spins while there is
none; a barrier never initialised is refused. -/
def Obligations.BarrierWaiterLeaves : Prop :=
  ∀ (b : Barrier) (s : State), s.plat.barrierCheck b = none →
    (∀ capacity, findCapacity s.barriers b = some capacity → s.semCheck b.releaseSem = none → s.self.pc = .b8w1 →
      s.loadWord b.releaseSem.toNat ≠ 0 → ∃ u t, exec (.barrierEnter b) s = .next u ∧
        staysAt s u (.barrierEnter b) .b8w2 ∧ exec (.barrierEnter b) u = .next t ∧ returns s t .done ∧
        (t.loadWord b.releaseSem.toNat).toNat = (s.loadWord b.releaseSem.toNat).toNat - 1 ∧
        sameOutside s t b.releaseSem.toNat 4 ∧ Frame s t [.memory, .worker s.active]) ∧
    (∀ capacity, findCapacity s.barriers b = some capacity → s.semCheck b.releaseSem = none → s.self.pc = .b8w1 →
      s.loadWord b.releaseSem.toNat = 0 → ∃ t, exec (.barrierEnter b) s = .next t ∧
        staysAt s t (.barrierEnter b) .b8w1 ∧ Frame s t [.worker s.active]) ∧
    (findCapacity s.barriers b = none → exec (.barrierEnter b) s = .refused .barrierNotInitialised)

/-! ### The whole machine -/

/-- 10_state.md sections 2 to 7: whatever operation is performed, a byte of shared memory outside the bytes it stores
to reads as before. The stored bytes are those `storesTo` computes as the meaning does. -/
def Obligations.OnlyTheStoredBytesChange : Prop :=
  ∀ (i : Instr) (s t : State), exec i s = .next t → ∀ x,
    (∀ a n, storesTo i s = some (a, n) → x < a ∨ a + n ≤ x) → t.loadByte x = s.loadByte x

/-- 10_state.md sections 1, 2 and 7: no operation touches the other worker's outstanding operation, its invocation's
local state or what it has been given, nor what is configuration, nor the schedule. -/
def Obligations.OtherWorkerUntouched : Prop :=
  ∀ (i : Instr) (s t : State), exec i s = .next t →
    t.worker (otherWorker s.active) = s.worker (otherWorker s.active) ∧ t.plat = s.plat ∧ t.active = s.active ∧
      t.sched = s.sched ∧ t.turns = s.turns

/-- R135: no operation but the engine's step removes an element from an input channel, and no operation but a read
(or a bulk copy's) removes one from an output channel; 10_state.md section 3: none but the engine's step adds to an
output channel. -/
def Obligations.ChannelsHaveTheirOwnEnds : Prop :=
  ∀ (i : Instr) (k : InstId) (s t : State), exec i s = .next t → i ≠ .engineStep k →
    (s.inst k).inA <+: (t.inst k).inA ∧ (s.inst k).inB <+: (t.inst k).inB ∧ (s.inst k).inZ <+: (t.inst k).inZ ∧
    (t.inst k).outA <:+ (s.inst k).outA ∧ (t.inst k).outB <:+ (s.inst k).outB ∧
    (t.inst k).outZ <:+ (s.inst k).outZ ∧
    (i ≠ .rdA k → i ≠ .rdB k → i ≠ .rdZ k → i ≠ .dmaOpCopy → (t.inst k).outA = (s.inst k).outA ∧
      (t.inst k).outB = (s.inst k).outB ∧ (t.inst k).outZ = (s.inst k).outZ)

/-- 60_exceptions.md section 1 and 10_state.md section 4: one step appends at most one record and nothing shortens the
log. A record is that of a `BAD_WR` or a `BAD_RD`, or of a copy's word whose direction and offset the addressed
instance decodes to one of them; it holds that instance, that offset and that direction. -/
def Obligations.AtMostOneDiagnostic : Prop :=
  ∀ (i : Instr) (s t : State), exec i s = .next t →
    t.log = s.log ∨ ∃ (k : InstId) (off : Word) (dir : Dir), t.log = s.log ++ [⟨k, off, dir⟩] ∧
      ((dir = .write ∧ ∃ w, i = .badWr k off w) ∨ (dir = .read ∧ i = .badRd k off) ∨
        (i = .dmaOpCopy ∧ dir = .read ∧ s.self.pc = .copyRead ∧
          s.plat.deviceAt (s.self.copy.src.toNat + s.self.copy.done) = .acc k ∧
          off = BitVec.ofNat 32 (s.self.copy.src.toNat + s.self.copy.done - (s.plat.accBase k).toNat) ∧
          decodeAcc k .read off 0 = .badRd k off) ∨
        (i = .dmaOpCopy ∧ dir = .write ∧ s.self.pc = .copyWrite ∧
          s.plat.deviceAt (s.self.copy.dst.toNat + s.self.copy.done) = .acc k ∧
          off = BitVec.ofNat 32 (s.self.copy.dst.toNat + s.self.copy.done - (s.plat.accBase k).toNat) ∧
          decodeAcc k .write off s.self.copy.buf = .badWr k off s.self.copy.buf))

/-- 10_state.md section 9: the values after reset. The spec's own choice of them is decision D14 (log entry 7); that
no byte of memory is listed is the model's (log entry 3). The engine's parameters are then those the spec takes
(00_scope.md section 4, 41_cordic_engine.md section 3; decisions D1, D4, D5 and D6, log entries 10 to 12 and 34). -/
def Obligations.ResetState : Prop :=
  (∀ k, (State.reset.inst k).inA = [] ∧ (State.reset.inst k).inB = [] ∧ (State.reset.inst k).inZ = [] ∧
    (State.reset.inst k).outA = [] ∧ (State.reset.inst k).outB = [] ∧ (State.reset.inst k).outZ = [] ∧
    (State.reset.inst k).epc = .idle) ∧ State.reset.log = [] ∧ State.reset.dma = ⟨0, 0, 0, 0⟩ ∧
  State.reset.mem = [] ∧ (∀ w, (State.reset.worker w).cur = none ∧ (State.reset.worker w).pc = .start) ∧
  State.reset.plat.engine.atan.toList = [5760, 3400, 1796, 912, 457, 229, 114] ∧
  State.reset.plat.engine.gainNum = 6072776441 ∧ State.reset.plat.engine.gainDen = 10000000000 ∧
  State.reset.plat.engine.quant = .floor ∧ State.reset.plat.engine.preMode = .conditional

/-- The invariant holds after reset (10_state.md section 9; the reset values are decision D14 and log entries 3, 4, 6
and 7). -/
def Obligations.InvariantAtReset : Prop := State.reset.inv = true

/-- Every step keeps the invariant: the platform's numbers meet 20_memory.md section 3 and K_GAIN is a number, memory keeps its
canonical form, semaphore words stay aligned, capacities stay at least 1, the operation code register holds 0 or 1, a worker
with nothing outstanding has no invocation, no engine step is a worker's, a decrement is tried only with a snapshot that is not 0 and an
increment only with one below the maximum, and a copy in progress stays in bounds. -/
def Obligations.InvariantKeptByStep : Prop := ∀ s t : State, s.inv = true → step s = .next t → t.inv = true

/-- 43_sync_primitives.md section 5 (property (c), which the spec infers; weak fairness is decision D35, log entry
33), in states that meet the invariant: an engine step that is enabled stays enabled until that engine process takes
its turn; in an endless run whose schedule is weakly fair, whatever its software goes on to issue, it takes it, and a
read that waits for the result of the three operands returns it, where the other worker takes no element of that
channel and holds no bus the reader needs. -/
def Obligations.EnabledEngineIsTaken : Prop :=
  (∀ (k : InstId) (s t : State), s.inv = true → (s.inst k).engineEnabled = true → s.nextAgent ≠ .engine k →
    step s = .next t → (t.inst k).engineEnabled = true) ∧
  (∀ (g : Nat → Agent) (e : Nat → WorkerId → List Request) (σ : Nat → State), IsRun g e σ → WeaklyFair g σ →
    (σ 0).inv = true →
    (∀ (k : InstId) (n : Nat), ((σ n).inst k).engineEnabled = true →
      ∃ m, n ≤ m ∧ g m = .engine k ∧ ((σ m).inst k).engineEnabled = true) ∧
    (∀ (k : InstId) (w : WorkerId) (n : Nat) (x y t0 : Fx) (as bs zs : List Fx), ((σ n).inst k).inA = x :: as →
      ((σ n).inst k).inB = y :: bs → ((σ n).inst k).inZ = t0 :: zs →
      (∀ m, n ≤ m → (σ m).busStopped w = false) →
      (((σ n).worker w).cur = some (.rdA k) → ((σ n).inst k).outA = [] →
        (∀ m, n ≤ m → g m = .worker (otherWorker w) → ((σ (m + 1)).inst k).outA = ((σ m).inst k).outA) →
        ∃ m, n ≤ m ∧ ((σ m).worker w).cur = none ∧ ((σ m).worker w).returned = ((σ n).worker w).returned ++
          [.word (widen 8 (rotate (σ n).plat.engine x y t0 false).x)]) ∧
      (((σ n).worker w).cur = some (.rdB k) → ((σ n).inst k).outB = [] →
        (∀ m, n ≤ m → g m = .worker (otherWorker w) → ((σ (m + 1)).inst k).outB = ((σ m).inst k).outB) →
        ∃ m, n ≤ m ∧ ((σ m).worker w).cur = none ∧ ((σ m).worker w).returned = ((σ n).worker w).returned ++
          [.word (widen 8 (rotate (σ n).plat.engine x y t0 false).y)]) ∧
      (((σ n).worker w).cur = some (.rdZ k) → ((σ n).inst k).outZ = [] →
        (∀ m, n ≤ m → g m = .worker (otherWorker w) → ((σ (m + 1)).inst k).outZ = ((σ m).inst k).outZ) →
        ∃ m, n ≤ m ∧ ((σ m).worker w).cur = none ∧ ((σ m).worker w).returned = ((σ n).worker w).returned ++
          [.word (widen 7 (rotate (σ n).plat.engine x y t0 false).t)])))

/-- 45_host_protocol.md section 2: for every real phase the phase correction of the driver gives the one value above
-180 and at most 180 that differs from the phase by a multiple of 360; on a rational phase it is the same value. A
word whose value is so folded is narrowed for `Z_IN` without wrap (decisions D1 and D2, log entry 10). -/
def Obligations.PhaseCorrectionFolds : Prop :=
  (∀ p : ℝ, -180 < phaseCorrection p ∧ phaseCorrection p ≤ 180 ∧
    (∃ n : Int, phaseCorrection p = p - 360 * (n : ℝ)) ∧
    ∀ x : ℝ, -180 < x → x ≤ 180 → (∃ n : Int, x = p - 360 * (n : ℝ)) → x = phaseCorrection p) ∧
  (∀ p : ℚ, phaseCorrection (p : ℝ) = ((phaseCorrection p : ℚ) : ℝ)) ∧
  (∀ (w : Word) (neg : Bool) (mant scale : Nat), f32OfWord w = .finite neg mant scale →
    -180 < f32Value neg mant scale → f32Value neg mant scale ≤ 180 →
    ∃ r, narrow .floor 7 w = some r ∧ r.toInt = ⌊f32Value neg mant scale * 2 ^ 7⌋)
end

