-- ==== Sys2Proof/Laws/State.lean ====
section
/-! SUPPORT. What each named update of the state leaves and changes: one lemma per field per update, and the order
updates are written in (that of the active worker outermost). -/

namespace Sys2Proof.Machine

variable (s : State)

/-! ### setInst -/

@[simp] theorem State.log_setInst (k : InstId) (v : Accel) : (s.setInst k v).log = s.log := by cases k <;> rfl
@[simp] theorem State.mem_setInst (k : InstId) (v : Accel) : (s.setInst k v).mem = s.mem := by cases k <;> rfl
@[simp] theorem State.semWords_setInst (k : InstId) (v : Accel) : (s.setInst k v).semWords = s.semWords := by cases k <;> rfl
@[simp] theorem State.barriers_setInst (k : InstId) (v : Accel) : (s.setInst k v).barriers = s.barriers := by cases k <;> rfl
@[simp] theorem State.dma_setInst (k : InstId) (v : Accel) : (s.setInst k v).dma = s.dma := by cases k <;> rfl
@[simp] theorem State.plat_setInst (k : InstId) (v : Accel) : (s.setInst k v).plat = s.plat := by cases k <;> rfl
@[simp] theorem State.sched_setInst (k : InstId) (v : Accel) : (s.setInst k v).sched = s.sched := by cases k <;> rfl
@[simp] theorem State.turns_setInst (k : InstId) (v : Accel) : (s.setInst k v).turns = s.turns := by cases k <;> rfl
@[simp] theorem State.active_setInst (k : InstId) (v : Accel) : (s.setInst k v).active = s.active := by cases k <;> rfl
@[simp] theorem State.draws_setInst (k : InstId) (v : Accel) : (s.setInst k v).draws = s.draws := by cases k <;> rfl
@[simp] theorem State.inst_setInst_same (k : InstId) (v : Accel) : (s.setInst k v).inst k = v := by cases k <;> rfl
theorem State.inst_setInst (k j : InstId) (v : Accel) :
    (s.setInst k v).inst j = if j = k then v else s.inst j := by cases k <;> cases j <;> rfl
@[simp] theorem State.inst_setInst_other (k j : InstId) (v : Accel) (h : j ≠ k) :
    (s.setInst k v).inst j = s.inst j := by rw [State.inst_setInst, if_neg h]
@[simp] theorem State.setInst_setInst (k : InstId) (u v : Accel) : (s.setInst k u).setInst k v = s.setInst k v := by
  cases k <;> rfl
@[simp] theorem State.setInst_inst (k : InstId) : s.setInst k (s.inst k) = s := by cases k <;> rfl
@[simp] theorem State.worker_setInst (x : WorkerId) (k : InstId) (v : Accel) : (s.setInst k v).worker x = s.worker x := by cases k <;> cases x <;> rfl
@[simp] theorem State.self_setInst (k : InstId) (v : Accel) : (s.setInst k v).self = s.self := by simp [State.self]

/-! ### setWorker -/

@[simp] theorem State.log_setWorker (w : WorkerId) (v : Worker) : (s.setWorker w v).log = s.log := by cases w <;> rfl
@[simp] theorem State.mem_setWorker (w : WorkerId) (v : Worker) : (s.setWorker w v).mem = s.mem := by cases w <;> rfl
@[simp] theorem State.semWords_setWorker (w : WorkerId) (v : Worker) : (s.setWorker w v).semWords = s.semWords := by cases w <;> rfl
@[simp] theorem State.barriers_setWorker (w : WorkerId) (v : Worker) : (s.setWorker w v).barriers = s.barriers := by cases w <;> rfl
@[simp] theorem State.dma_setWorker (w : WorkerId) (v : Worker) : (s.setWorker w v).dma = s.dma := by cases w <;> rfl
@[simp] theorem State.plat_setWorker (w : WorkerId) (v : Worker) : (s.setWorker w v).plat = s.plat := by cases w <;> rfl
@[simp] theorem State.sched_setWorker (w : WorkerId) (v : Worker) : (s.setWorker w v).sched = s.sched := by cases w <;> rfl
@[simp] theorem State.turns_setWorker (w : WorkerId) (v : Worker) : (s.setWorker w v).turns = s.turns := by cases w <;> rfl
@[simp] theorem State.active_setWorker (w : WorkerId) (v : Worker) : (s.setWorker w v).active = s.active := by cases w <;> rfl
@[simp] theorem State.draws_setWorker (w : WorkerId) (v : Worker) : (s.setWorker w v).draws = s.draws := by cases w <;> rfl
@[simp] theorem State.inst_setWorker (j : InstId) (w : WorkerId) (v : Worker) : (s.setWorker w v).inst j = s.inst j := by cases w <;> cases j <;> rfl
@[simp] theorem State.worker_setWorker_same (w : WorkerId) (v : Worker) : (s.setWorker w v).worker w = v := by
  cases w <;> rfl
theorem State.worker_setWorker (w x : WorkerId) (v : Worker) :
    (s.setWorker w v).worker x = if x = w then v else s.worker x := by cases w <;> cases x <;> rfl
@[simp] theorem State.worker_setWorker_other (w x : WorkerId) (v : Worker) (h : x ≠ w) :
    (s.setWorker w v).worker x = s.worker x := by rw [State.worker_setWorker, if_neg h]
@[simp] theorem State.setWorker_setWorker (w : WorkerId) (u v : Worker) :
    (s.setWorker w u).setWorker w v = s.setWorker w v := by cases w <;> rfl
@[simp] theorem State.setWorker_worker (w : WorkerId) : s.setWorker w (s.worker w) = s := by cases w <;> rfl

/-! ### setSelf -/

@[simp] theorem State.log_setSelf (v : Worker) : (s.setSelf v).log = s.log := by simp [State.setSelf]
@[simp] theorem State.mem_setSelf (v : Worker) : (s.setSelf v).mem = s.mem := by simp [State.setSelf]
@[simp] theorem State.semWords_setSelf (v : Worker) : (s.setSelf v).semWords = s.semWords := by simp [State.setSelf]
@[simp] theorem State.barriers_setSelf (v : Worker) : (s.setSelf v).barriers = s.barriers := by simp [State.setSelf]
@[simp] theorem State.dma_setSelf (v : Worker) : (s.setSelf v).dma = s.dma := by simp [State.setSelf]
@[simp] theorem State.plat_setSelf (v : Worker) : (s.setSelf v).plat = s.plat := by simp [State.setSelf]
@[simp] theorem State.sched_setSelf (v : Worker) : (s.setSelf v).sched = s.sched := by simp [State.setSelf]
@[simp] theorem State.turns_setSelf (v : Worker) : (s.setSelf v).turns = s.turns := by simp [State.setSelf]
@[simp] theorem State.active_setSelf (v : Worker) : (s.setSelf v).active = s.active := by simp [State.setSelf]
@[simp] theorem State.draws_setSelf (v : Worker) : (s.setSelf v).draws = s.draws := by simp [State.setSelf]
@[simp] theorem State.inst_setSelf (j : InstId) (v : Worker) : (s.setSelf v).inst j = s.inst j := by simp [State.setSelf]
theorem State.worker_active : s.worker s.active = s.self := rfl
@[simp] theorem State.self_setSelf (v : Worker) : (s.setSelf v).self = v := by simp [State.self, State.setSelf]
theorem State.worker_setSelf (x : WorkerId) (v : Worker) :
    (s.setSelf v).worker x = if x = s.active then v else s.worker x := s.worker_setWorker s.active x v
@[simp] theorem State.worker_setSelf_other (x : WorkerId) (v : Worker) (h : x ≠ s.active) :
    (s.setSelf v).worker x = s.worker x := by rw [State.worker_setSelf, if_neg h]
@[simp] theorem State.setSelf_setSelf (u v : Worker) : (s.setSelf u).setSelf v = s.setSelf v := by simp [State.setSelf]
@[simp] theorem State.setSelf_self : s.setSelf s.self = s := by simp [State.self, State.setSelf]

/-! ### retire -/

@[simp] theorem Worker.script_retire (v : Worker) (r : Ret) : (v.retire r).script = v.script := rfl
@[simp] theorem Worker.cur_retire (v : Worker) (r : Ret) : (v.retire r).cur = none := rfl
@[simp] theorem Worker.pc_retire (v : Worker) (r : Ret) : (v.retire r).pc = .start := rfl
@[simp] theorem Worker.locals_retire (v : Worker) (r : Ret) : (v.retire r).locals = .none := rfl
@[simp] theorem Worker.copy_retire (v : Worker) (r : Ret) : (v.retire r).copy = .none := rfl
@[simp] theorem Worker.returned_retire (v : Worker) (r : Ret) : (v.retire r).returned = v.returned ++ [r] := rfl

@[simp] theorem State.log_retire (r : Ret) : (s.retire r).log = s.log := by simp [State.retire]
@[simp] theorem State.mem_retire (r : Ret) : (s.retire r).mem = s.mem := by simp [State.retire]
@[simp] theorem State.semWords_retire (r : Ret) : (s.retire r).semWords = s.semWords := by simp [State.retire]
@[simp] theorem State.barriers_retire (r : Ret) : (s.retire r).barriers = s.barriers := by simp [State.retire]
@[simp] theorem State.dma_retire (r : Ret) : (s.retire r).dma = s.dma := by simp [State.retire]
@[simp] theorem State.plat_retire (r : Ret) : (s.retire r).plat = s.plat := by simp [State.retire]
@[simp] theorem State.sched_retire (r : Ret) : (s.retire r).sched = s.sched := by simp [State.retire]
@[simp] theorem State.turns_retire (r : Ret) : (s.retire r).turns = s.turns := by simp [State.retire]
@[simp] theorem State.active_retire (r : Ret) : (s.retire r).active = s.active := by simp [State.retire]
@[simp] theorem State.draws_retire (r : Ret) : (s.retire r).draws = s.draws := by simp [State.retire]
@[simp] theorem State.inst_retire (j : InstId) (r : Ret) : (s.retire r).inst j = s.inst j := by simp [State.retire]
@[simp] theorem State.self_retire (r : Ret) : (s.retire r).self = s.self.retire r := by simp [State.retire]
@[simp] theorem State.worker_retire_other (x : WorkerId) (r : Ret) (h : x ≠ s.active) :
    (s.retire r).worker x = s.worker x := by simp [State.retire, h]

/-! ### goto -/

@[simp] theorem State.log_goto (i : Instr) (l : Label) : (s.goto i l).log = s.log := by simp [State.goto]
@[simp] theorem State.mem_goto (i : Instr) (l : Label) : (s.goto i l).mem = s.mem := by simp [State.goto]
@[simp] theorem State.semWords_goto (i : Instr) (l : Label) : (s.goto i l).semWords = s.semWords := by simp [State.goto]
@[simp] theorem State.barriers_goto (i : Instr) (l : Label) : (s.goto i l).barriers = s.barriers := by simp [State.goto]
@[simp] theorem State.dma_goto (i : Instr) (l : Label) : (s.goto i l).dma = s.dma := by simp [State.goto]
@[simp] theorem State.plat_goto (i : Instr) (l : Label) : (s.goto i l).plat = s.plat := by simp [State.goto]
@[simp] theorem State.sched_goto (i : Instr) (l : Label) : (s.goto i l).sched = s.sched := by simp [State.goto]
@[simp] theorem State.turns_goto (i : Instr) (l : Label) : (s.goto i l).turns = s.turns := by simp [State.goto]
@[simp] theorem State.active_goto (i : Instr) (l : Label) : (s.goto i l).active = s.active := by simp [State.goto]
@[simp] theorem State.draws_goto (i : Instr) (l : Label) : (s.goto i l).draws = s.draws := by simp [State.goto]
@[simp] theorem State.inst_goto (j : InstId) (i : Instr) (l : Label) : (s.goto i l).inst j = s.inst j := by simp [State.goto]
@[simp] theorem State.self_goto (i : Instr) (l : Label) : (s.goto i l).self = { s.self with cur := some i, pc := l } := by simp [State.goto]
@[simp] theorem State.worker_goto_other (x : WorkerId) (i : Instr) (l : Label) (h : x ≠ s.active) :
    (s.goto i l).worker x = s.worker x := by simp [State.goto, h]

/-! ### setLocals -/

@[simp] theorem State.log_setLocals (v : Locals) : (s.setLocals v).log = s.log := by simp [State.setLocals]
@[simp] theorem State.mem_setLocals (v : Locals) : (s.setLocals v).mem = s.mem := by simp [State.setLocals]
@[simp] theorem State.semWords_setLocals (v : Locals) : (s.setLocals v).semWords = s.semWords := by simp [State.setLocals]
@[simp] theorem State.barriers_setLocals (v : Locals) : (s.setLocals v).barriers = s.barriers := by simp [State.setLocals]
@[simp] theorem State.dma_setLocals (v : Locals) : (s.setLocals v).dma = s.dma := by simp [State.setLocals]
@[simp] theorem State.plat_setLocals (v : Locals) : (s.setLocals v).plat = s.plat := by simp [State.setLocals]
@[simp] theorem State.sched_setLocals (v : Locals) : (s.setLocals v).sched = s.sched := by simp [State.setLocals]
@[simp] theorem State.turns_setLocals (v : Locals) : (s.setLocals v).turns = s.turns := by simp [State.setLocals]
@[simp] theorem State.active_setLocals (v : Locals) : (s.setLocals v).active = s.active := by simp [State.setLocals]
@[simp] theorem State.draws_setLocals (v : Locals) : (s.setLocals v).draws = s.draws := by simp [State.setLocals]
@[simp] theorem State.inst_setLocals (j : InstId) (v : Locals) : (s.setLocals v).inst j = s.inst j := by simp [State.setLocals]
@[simp] theorem State.self_setLocals (v : Locals) : (s.setLocals v).self = { s.self with locals := v } := by simp [State.setLocals]
@[simp] theorem State.worker_setLocals_other (x : WorkerId) (v : Locals) (h : x ≠ s.active) :
    (s.setLocals v).worker x = s.worker x := by simp [State.setLocals, h]

/-! ### setCopy -/

@[simp] theorem State.log_setCopy (v : Copy) : (s.setCopy v).log = s.log := by simp [State.setCopy]
@[simp] theorem State.mem_setCopy (v : Copy) : (s.setCopy v).mem = s.mem := by simp [State.setCopy]
@[simp] theorem State.semWords_setCopy (v : Copy) : (s.setCopy v).semWords = s.semWords := by simp [State.setCopy]
@[simp] theorem State.barriers_setCopy (v : Copy) : (s.setCopy v).barriers = s.barriers := by simp [State.setCopy]
@[simp] theorem State.dma_setCopy (v : Copy) : (s.setCopy v).dma = s.dma := by simp [State.setCopy]
@[simp] theorem State.plat_setCopy (v : Copy) : (s.setCopy v).plat = s.plat := by simp [State.setCopy]
@[simp] theorem State.sched_setCopy (v : Copy) : (s.setCopy v).sched = s.sched := by simp [State.setCopy]
@[simp] theorem State.turns_setCopy (v : Copy) : (s.setCopy v).turns = s.turns := by simp [State.setCopy]
@[simp] theorem State.active_setCopy (v : Copy) : (s.setCopy v).active = s.active := by simp [State.setCopy]
@[simp] theorem State.draws_setCopy (v : Copy) : (s.setCopy v).draws = s.draws := by simp [State.setCopy]
@[simp] theorem State.inst_setCopy (j : InstId) (v : Copy) : (s.setCopy v).inst j = s.inst j := by simp [State.setCopy]
@[simp] theorem State.self_setCopy (v : Copy) : (s.setCopy v).self = { s.self with copy := v } := by simp [State.setCopy]
@[simp] theorem State.worker_setCopy_other (x : WorkerId) (v : Copy) (h : x ≠ s.active) :
    (s.setCopy v).worker x = s.worker x := by simp [State.setCopy, h]

/-! ### setDma -/

@[simp] theorem State.log_setDma (v : Dma) : (s.setDma v).log = s.log := rfl
@[simp] theorem State.mem_setDma (v : Dma) : (s.setDma v).mem = s.mem := rfl
@[simp] theorem State.semWords_setDma (v : Dma) : (s.setDma v).semWords = s.semWords := rfl
@[simp] theorem State.barriers_setDma (v : Dma) : (s.setDma v).barriers = s.barriers := rfl
@[simp] theorem State.dma_setDma (v : Dma) : (s.setDma v).dma = v := rfl
@[simp] theorem State.plat_setDma (v : Dma) : (s.setDma v).plat = s.plat := rfl
@[simp] theorem State.sched_setDma (v : Dma) : (s.setDma v).sched = s.sched := rfl
@[simp] theorem State.turns_setDma (v : Dma) : (s.setDma v).turns = s.turns := rfl
@[simp] theorem State.active_setDma (v : Dma) : (s.setDma v).active = s.active := rfl
@[simp] theorem State.draws_setDma (v : Dma) : (s.setDma v).draws = s.draws := rfl
@[simp] theorem State.inst_setDma (j : InstId) (v : Dma) : (s.setDma v).inst j = s.inst j := by cases j <;> rfl
@[simp] theorem State.worker_setDma (x : WorkerId) (v : Dma) : (s.setDma v).worker x = s.worker x := by cases x <;> rfl
@[simp] theorem State.self_setDma (v : Dma) : (s.setDma v).self = s.self := by simp [State.self]

/-! ### setBarriers -/

@[simp] theorem State.log_setBarriers (v : List (Barrier × Word)) : (s.setBarriers v).log = s.log := rfl
@[simp] theorem State.mem_setBarriers (v : List (Barrier × Word)) : (s.setBarriers v).mem = s.mem := rfl
@[simp] theorem State.semWords_setBarriers (v : List (Barrier × Word)) : (s.setBarriers v).semWords = s.semWords := rfl
@[simp] theorem State.barriers_setBarriers (v : List (Barrier × Word)) : (s.setBarriers v).barriers = v := rfl
@[simp] theorem State.dma_setBarriers (v : List (Barrier × Word)) : (s.setBarriers v).dma = s.dma := rfl
@[simp] theorem State.plat_setBarriers (v : List (Barrier × Word)) : (s.setBarriers v).plat = s.plat := rfl
@[simp] theorem State.sched_setBarriers (v : List (Barrier × Word)) : (s.setBarriers v).sched = s.sched := rfl
@[simp] theorem State.turns_setBarriers (v : List (Barrier × Word)) : (s.setBarriers v).turns = s.turns := rfl
@[simp] theorem State.active_setBarriers (v : List (Barrier × Word)) : (s.setBarriers v).active = s.active := rfl
@[simp] theorem State.draws_setBarriers (v : List (Barrier × Word)) : (s.setBarriers v).draws = s.draws := rfl
@[simp] theorem State.inst_setBarriers (j : InstId) (v : List (Barrier × Word)) : (s.setBarriers v).inst j = s.inst j := by cases j <;> rfl
@[simp] theorem State.worker_setBarriers (x : WorkerId) (v : List (Barrier × Word)) : (s.setBarriers v).worker x = s.worker x := by cases x <;> rfl
@[simp] theorem State.self_setBarriers (v : List (Barrier × Word)) : (s.setBarriers v).self = s.self := by simp [State.self]

/-! ### setSemWords -/

@[simp] theorem State.log_setSemWords (v : List Nat) : (s.setSemWords v).log = s.log := rfl
@[simp] theorem State.mem_setSemWords (v : List Nat) : (s.setSemWords v).mem = s.mem := rfl
@[simp] theorem State.semWords_setSemWords (v : List Nat) : (s.setSemWords v).semWords = v := rfl
@[simp] theorem State.barriers_setSemWords (v : List Nat) : (s.setSemWords v).barriers = s.barriers := rfl
@[simp] theorem State.dma_setSemWords (v : List Nat) : (s.setSemWords v).dma = s.dma := rfl
@[simp] theorem State.plat_setSemWords (v : List Nat) : (s.setSemWords v).plat = s.plat := rfl
@[simp] theorem State.sched_setSemWords (v : List Nat) : (s.setSemWords v).sched = s.sched := rfl
@[simp] theorem State.turns_setSemWords (v : List Nat) : (s.setSemWords v).turns = s.turns := rfl
@[simp] theorem State.active_setSemWords (v : List Nat) : (s.setSemWords v).active = s.active := rfl
@[simp] theorem State.draws_setSemWords (v : List Nat) : (s.setSemWords v).draws = s.draws := rfl
@[simp] theorem State.inst_setSemWords (j : InstId) (v : List Nat) : (s.setSemWords v).inst j = s.inst j := by cases j <;> rfl
@[simp] theorem State.worker_setSemWords (x : WorkerId) (v : List Nat) : (s.setSemWords v).worker x = s.worker x := by cases x <;> rfl
@[simp] theorem State.self_setSemWords (v : List Nat) : (s.setSemWords v).self = s.self := by simp [State.self]

/-! ### setActive -/

@[simp] theorem State.log_setActive (w : WorkerId) : (s.setActive w).log = s.log := rfl
@[simp] theorem State.mem_setActive (w : WorkerId) : (s.setActive w).mem = s.mem := rfl
@[simp] theorem State.semWords_setActive (w : WorkerId) : (s.setActive w).semWords = s.semWords := rfl
@[simp] theorem State.barriers_setActive (w : WorkerId) : (s.setActive w).barriers = s.barriers := rfl
@[simp] theorem State.dma_setActive (w : WorkerId) : (s.setActive w).dma = s.dma := rfl
@[simp] theorem State.plat_setActive (w : WorkerId) : (s.setActive w).plat = s.plat := rfl
@[simp] theorem State.sched_setActive (w : WorkerId) : (s.setActive w).sched = s.sched := rfl
@[simp] theorem State.turns_setActive (w : WorkerId) : (s.setActive w).turns = s.turns := rfl
@[simp] theorem State.active_setActive (w : WorkerId) : (s.setActive w).active = w := rfl
@[simp] theorem State.draws_setActive (w : WorkerId) : (s.setActive w).draws = s.draws := rfl
@[simp] theorem State.inst_setActive (j : InstId) (w : WorkerId) : (s.setActive w).inst j = s.inst j := by cases j <;> rfl
@[simp] theorem State.worker_setActive (x : WorkerId) (w : WorkerId) : (s.setActive w).worker x = s.worker x := by cases x <;> rfl
@[simp] theorem State.self_setActive (w : WorkerId) : (s.setActive w).self = s.worker w := by cases w <;> rfl

/-! ### drawn -/

@[simp] theorem State.log_drawn : s.drawn.log = s.log := rfl
@[simp] theorem State.mem_drawn : s.drawn.mem = s.mem := rfl
@[simp] theorem State.semWords_drawn : s.drawn.semWords = s.semWords := rfl
@[simp] theorem State.barriers_drawn : s.drawn.barriers = s.barriers := rfl
@[simp] theorem State.dma_drawn : s.drawn.dma = s.dma := rfl
@[simp] theorem State.plat_drawn : s.drawn.plat = s.plat := rfl
@[simp] theorem State.sched_drawn : s.drawn.sched = s.sched := rfl
@[simp] theorem State.turns_drawn : s.drawn.turns = s.turns := rfl
@[simp] theorem State.active_drawn : s.drawn.active = s.active := rfl
@[simp] theorem State.draws_drawn : s.drawn.draws = s.draws + 1 := rfl
@[simp] theorem State.inst_drawn (j : InstId) : s.drawn.inst j = s.inst j := by cases j <;> rfl
@[simp] theorem State.worker_drawn (x : WorkerId) : s.drawn.worker x = s.worker x := by cases x <;> rfl
@[simp] theorem State.self_drawn : s.drawn.self = s.self := by simp [State.self]

/-! ### diag -/

@[simp] theorem State.log_diag (k : InstId) (off : Word) (d : Dir) : (s.diag k off d).log = s.log ++ [⟨k, off, d⟩] := rfl
@[simp] theorem State.mem_diag (k : InstId) (off : Word) (d : Dir) : (s.diag k off d).mem = s.mem := rfl
@[simp] theorem State.semWords_diag (k : InstId) (off : Word) (d : Dir) : (s.diag k off d).semWords = s.semWords := rfl
@[simp] theorem State.barriers_diag (k : InstId) (off : Word) (d : Dir) : (s.diag k off d).barriers = s.barriers := rfl
@[simp] theorem State.dma_diag (k : InstId) (off : Word) (d : Dir) : (s.diag k off d).dma = s.dma := rfl
@[simp] theorem State.plat_diag (k : InstId) (off : Word) (d : Dir) : (s.diag k off d).plat = s.plat := rfl
@[simp] theorem State.sched_diag (k : InstId) (off : Word) (d : Dir) : (s.diag k off d).sched = s.sched := rfl
@[simp] theorem State.turns_diag (k : InstId) (off : Word) (d : Dir) : (s.diag k off d).turns = s.turns := rfl
@[simp] theorem State.active_diag (k : InstId) (off : Word) (d : Dir) : (s.diag k off d).active = s.active := rfl
@[simp] theorem State.draws_diag (k : InstId) (off : Word) (d : Dir) : (s.diag k off d).draws = s.draws := rfl
@[simp] theorem State.inst_diag (j : InstId) (k : InstId) (off : Word) (d : Dir) : (s.diag k off d).inst j = s.inst j := by cases j <;> rfl
@[simp] theorem State.worker_diag (x : WorkerId) (k : InstId) (off : Word) (d : Dir) : (s.diag k off d).worker x = s.worker x := by cases x <;> rfl
@[simp] theorem State.self_diag (k : InstId) (off : Word) (d : Dir) : (s.diag k off d).self = s.self := by simp [State.self]

/-! ### storeByte -/

@[simp] theorem State.log_storeByte (a : Nat) (b : Byte) : (s.storeByte a b).log = s.log := rfl
@[simp] theorem State.mem_storeByte (a : Nat) (b : Byte) : (s.storeByte a b).mem = putByte s.mem a b := rfl
@[simp] theorem State.semWords_storeByte (a : Nat) (b : Byte) : (s.storeByte a b).semWords = s.semWords := rfl
@[simp] theorem State.barriers_storeByte (a : Nat) (b : Byte) : (s.storeByte a b).barriers = s.barriers := rfl
@[simp] theorem State.dma_storeByte (a : Nat) (b : Byte) : (s.storeByte a b).dma = s.dma := rfl
@[simp] theorem State.plat_storeByte (a : Nat) (b : Byte) : (s.storeByte a b).plat = s.plat := rfl
@[simp] theorem State.sched_storeByte (a : Nat) (b : Byte) : (s.storeByte a b).sched = s.sched := rfl
@[simp] theorem State.turns_storeByte (a : Nat) (b : Byte) : (s.storeByte a b).turns = s.turns := rfl
@[simp] theorem State.active_storeByte (a : Nat) (b : Byte) : (s.storeByte a b).active = s.active := rfl
@[simp] theorem State.draws_storeByte (a : Nat) (b : Byte) : (s.storeByte a b).draws = s.draws := rfl
@[simp] theorem State.inst_storeByte (j : InstId) (a : Nat) (b : Byte) : (s.storeByte a b).inst j = s.inst j := by cases j <;> rfl
@[simp] theorem State.worker_storeByte (x : WorkerId) (a : Nat) (b : Byte) : (s.storeByte a b).worker x = s.worker x := by cases x <;> rfl
@[simp] theorem State.self_storeByte (a : Nat) (b : Byte) : (s.storeByte a b).self = s.self := by simp [State.self]

/-! ### tick -/

@[simp] theorem State.log_tick : s.tick.log = s.log := rfl
@[simp] theorem State.mem_tick : s.tick.mem = s.mem := rfl
@[simp] theorem State.semWords_tick : s.tick.semWords = s.semWords := rfl
@[simp] theorem State.barriers_tick : s.tick.barriers = s.barriers := rfl
@[simp] theorem State.dma_tick : s.tick.dma = s.dma := rfl
@[simp] theorem State.plat_tick : s.tick.plat = s.plat := rfl
@[simp] theorem State.sched_tick : s.tick.sched = s.sched.tail := rfl
@[simp] theorem State.turns_tick : s.tick.turns = s.turns + 1 := rfl
@[simp] theorem State.active_tick : s.tick.active = s.active := rfl
@[simp] theorem State.draws_tick : s.tick.draws = s.draws := rfl
@[simp] theorem State.inst_tick (j : InstId) : s.tick.inst j = s.inst j := by cases j <;> rfl
@[simp] theorem State.worker_tick (x : WorkerId) : s.tick.worker x = s.worker x := by cases x <;> rfl
@[simp] theorem State.self_tick : s.tick.self = s.self := by simp [State.self]

/-! ### Stores of several bytes -/

@[simp] theorem State.log_storeBytes (a : Nat) (v : Word) (n : Nat) : (s.storeBytes a v n).log = s.log := by
  induction n with
  | zero => rfl
  | succ n ih => simp [State.storeBytes, ih]
@[simp] theorem State.log_storeWord (a : Nat) (v : Word) : (s.storeWord a v).log = s.log := by simp [State.storeWord]
@[simp] theorem State.semWords_storeBytes (a : Nat) (v : Word) (n : Nat) : (s.storeBytes a v n).semWords = s.semWords := by
  induction n with
  | zero => rfl
  | succ n ih => simp [State.storeBytes, ih]
@[simp] theorem State.semWords_storeWord (a : Nat) (v : Word) : (s.storeWord a v).semWords = s.semWords := by simp [State.storeWord]
@[simp] theorem State.barriers_storeBytes (a : Nat) (v : Word) (n : Nat) : (s.storeBytes a v n).barriers = s.barriers := by
  induction n with
  | zero => rfl
  | succ n ih => simp [State.storeBytes, ih]
@[simp] theorem State.barriers_storeWord (a : Nat) (v : Word) : (s.storeWord a v).barriers = s.barriers := by simp [State.storeWord]
@[simp] theorem State.dma_storeBytes (a : Nat) (v : Word) (n : Nat) : (s.storeBytes a v n).dma = s.dma := by
  induction n with
  | zero => rfl
  | succ n ih => simp [State.storeBytes, ih]
@[simp] theorem State.dma_storeWord (a : Nat) (v : Word) : (s.storeWord a v).dma = s.dma := by simp [State.storeWord]
@[simp] theorem State.plat_storeBytes (a : Nat) (v : Word) (n : Nat) : (s.storeBytes a v n).plat = s.plat := by
  induction n with
  | zero => rfl
  | succ n ih => simp [State.storeBytes, ih]
@[simp] theorem State.plat_storeWord (a : Nat) (v : Word) : (s.storeWord a v).plat = s.plat := by simp [State.storeWord]
@[simp] theorem State.sched_storeBytes (a : Nat) (v : Word) (n : Nat) : (s.storeBytes a v n).sched = s.sched := by
  induction n with
  | zero => rfl
  | succ n ih => simp [State.storeBytes, ih]
@[simp] theorem State.sched_storeWord (a : Nat) (v : Word) : (s.storeWord a v).sched = s.sched := by simp [State.storeWord]
@[simp] theorem State.turns_storeBytes (a : Nat) (v : Word) (n : Nat) : (s.storeBytes a v n).turns = s.turns := by
  induction n with
  | zero => rfl
  | succ n ih => simp [State.storeBytes, ih]
@[simp] theorem State.turns_storeWord (a : Nat) (v : Word) : (s.storeWord a v).turns = s.turns := by simp [State.storeWord]
@[simp] theorem State.active_storeBytes (a : Nat) (v : Word) (n : Nat) : (s.storeBytes a v n).active = s.active := by
  induction n with
  | zero => rfl
  | succ n ih => simp [State.storeBytes, ih]
@[simp] theorem State.active_storeWord (a : Nat) (v : Word) : (s.storeWord a v).active = s.active := by simp [State.storeWord]
@[simp] theorem State.draws_storeBytes (a : Nat) (v : Word) (n : Nat) : (s.storeBytes a v n).draws = s.draws := by
  induction n with
  | zero => rfl
  | succ n ih => simp [State.storeBytes, ih]
@[simp] theorem State.draws_storeWord (a : Nat) (v : Word) : (s.storeWord a v).draws = s.draws := by simp [State.storeWord]
@[simp] theorem State.inst_storeBytes (j : InstId) (a : Nat) (v : Word) (n : Nat) :
    (s.storeBytes a v n).inst j = s.inst j := by
  induction n with
  | zero => rfl
  | succ n ih => simp [State.storeBytes, ih]
@[simp] theorem State.inst_storeWord (j : InstId) (a : Nat) (v : Word) : (s.storeWord a v).inst j = s.inst j := by
  simp [State.storeWord]
@[simp] theorem State.worker_storeBytes (x : WorkerId) (a : Nat) (v : Word) (n : Nat) :
    (s.storeBytes a v n).worker x = s.worker x := by
  induction n with
  | zero => rfl
  | succ n ih => simp [State.storeBytes, ih]
@[simp] theorem State.worker_storeWord (x : WorkerId) (a : Nat) (v : Word) : (s.storeWord a v).worker x = s.worker x := by
  simp [State.storeWord]
@[simp] theorem State.self_storeBytes (a : Nat) (v : Word) (n : Nat) : (s.storeBytes a v n).self = s.self := by
  simp [State.self]
@[simp] theorem State.self_storeWord (a : Nat) (v : Word) : (s.storeWord a v).self = s.self := by simp [State.self]

/-! ### What memory reads as depends on memory alone -/

theorem State.loadByte_congr {s t : State} (h : s.mem = t.mem) (a : Nat) : s.loadByte a = t.loadByte a := by
  simp [State.loadByte, h]
theorem State.loadWord_congr {s t : State} (h : s.mem = t.mem) (a : Nat) : s.loadWord a = t.loadWord a := by
  simp [State.loadWord, State.loadByte, h]

@[simp] theorem State.loadByte_setInst (x : Nat) (k : InstId) (v : Accel) : (s.setInst k v).loadByte x = s.loadByte x :=
  State.loadByte_congr (by simp) x
@[simp] theorem State.loadWord_setInst (x : Nat) (k : InstId) (v : Accel) : (s.setInst k v).loadWord x = s.loadWord x :=
  State.loadWord_congr (by simp) x
@[simp] theorem State.loadByte_setWorker (x : Nat) (w : WorkerId) (v : Worker) : (s.setWorker w v).loadByte x = s.loadByte x :=
  State.loadByte_congr (by simp) x
@[simp] theorem State.loadWord_setWorker (x : Nat) (w : WorkerId) (v : Worker) : (s.setWorker w v).loadWord x = s.loadWord x :=
  State.loadWord_congr (by simp) x
@[simp] theorem State.loadByte_setSelf (x : Nat) (v : Worker) : (s.setSelf v).loadByte x = s.loadByte x :=
  State.loadByte_congr (by simp) x
@[simp] theorem State.loadWord_setSelf (x : Nat) (v : Worker) : (s.setSelf v).loadWord x = s.loadWord x :=
  State.loadWord_congr (by simp) x
@[simp] theorem State.loadByte_retire (x : Nat) (r : Ret) : (s.retire r).loadByte x = s.loadByte x :=
  State.loadByte_congr (by simp) x
@[simp] theorem State.loadWord_retire (x : Nat) (r : Ret) : (s.retire r).loadWord x = s.loadWord x :=
  State.loadWord_congr (by simp) x
@[simp] theorem State.loadByte_goto (x : Nat) (i : Instr) (l : Label) : (s.goto i l).loadByte x = s.loadByte x :=
  State.loadByte_congr (by simp) x
@[simp] theorem State.loadWord_goto (x : Nat) (i : Instr) (l : Label) : (s.goto i l).loadWord x = s.loadWord x :=
  State.loadWord_congr (by simp) x
@[simp] theorem State.loadByte_setLocals (x : Nat) (v : Locals) : (s.setLocals v).loadByte x = s.loadByte x :=
  State.loadByte_congr (by simp) x
@[simp] theorem State.loadWord_setLocals (x : Nat) (v : Locals) : (s.setLocals v).loadWord x = s.loadWord x :=
  State.loadWord_congr (by simp) x
@[simp] theorem State.loadByte_setCopy (x : Nat) (v : Copy) : (s.setCopy v).loadByte x = s.loadByte x :=
  State.loadByte_congr (by simp) x
@[simp] theorem State.loadWord_setCopy (x : Nat) (v : Copy) : (s.setCopy v).loadWord x = s.loadWord x :=
  State.loadWord_congr (by simp) x
@[simp] theorem State.loadByte_setDma (x : Nat) (v : Dma) : (s.setDma v).loadByte x = s.loadByte x :=
  State.loadByte_congr (by simp) x
@[simp] theorem State.loadWord_setDma (x : Nat) (v : Dma) : (s.setDma v).loadWord x = s.loadWord x :=
  State.loadWord_congr (by simp) x
@[simp] theorem State.loadByte_setBarriers (x : Nat) (v : List (Barrier × Word)) : (s.setBarriers v).loadByte x = s.loadByte x :=
  State.loadByte_congr (by simp) x
@[simp] theorem State.loadWord_setBarriers (x : Nat) (v : List (Barrier × Word)) : (s.setBarriers v).loadWord x = s.loadWord x :=
  State.loadWord_congr (by simp) x
@[simp] theorem State.loadByte_setSemWords (x : Nat) (v : List Nat) : (s.setSemWords v).loadByte x = s.loadByte x :=
  State.loadByte_congr (by simp) x
@[simp] theorem State.loadWord_setSemWords (x : Nat) (v : List Nat) : (s.setSemWords v).loadWord x = s.loadWord x :=
  State.loadWord_congr (by simp) x
@[simp] theorem State.loadByte_setActive (x : Nat) (w : WorkerId) : (s.setActive w).loadByte x = s.loadByte x :=
  State.loadByte_congr (by simp) x
@[simp] theorem State.loadWord_setActive (x : Nat) (w : WorkerId) : (s.setActive w).loadWord x = s.loadWord x :=
  State.loadWord_congr (by simp) x
@[simp] theorem State.loadByte_drawn (x : Nat) : s.drawn.loadByte x = s.loadByte x :=
  State.loadByte_congr (by simp) x
@[simp] theorem State.loadWord_drawn (x : Nat) : s.drawn.loadWord x = s.loadWord x :=
  State.loadWord_congr (by simp) x
@[simp] theorem State.loadByte_diag (x : Nat) (k : InstId) (off : Word) (d : Dir) : (s.diag k off d).loadByte x = s.loadByte x :=
  State.loadByte_congr (by simp) x
@[simp] theorem State.loadWord_diag (x : Nat) (k : InstId) (off : Word) (d : Dir) : (s.diag k off d).loadWord x = s.loadWord x :=
  State.loadWord_congr (by simp) x
@[simp] theorem State.loadByte_tick (x : Nat) : s.tick.loadByte x = s.loadByte x :=
  State.loadByte_congr (by simp) x
@[simp] theorem State.loadWord_tick (x : Nat) : s.tick.loadWord x = s.loadWord x :=
  State.loadWord_congr (by simp) x

/-! ### supplied -/

@[simp] theorem State.inst_supplied (m : WorkerId → List Request) (k : InstId) : (s.supplied m).inst k = s.inst k := by
  cases k <;> rfl
@[simp] theorem State.log_supplied (m : WorkerId → List Request) : (s.supplied m).log = s.log := rfl
@[simp] theorem State.mem_supplied (m : WorkerId → List Request) : (s.supplied m).mem = s.mem := rfl
@[simp] theorem State.semWords_supplied (m : WorkerId → List Request) : (s.supplied m).semWords = s.semWords := rfl
@[simp] theorem State.barriers_supplied (m : WorkerId → List Request) : (s.supplied m).barriers = s.barriers := rfl
@[simp] theorem State.dma_supplied (m : WorkerId → List Request) : (s.supplied m).dma = s.dma := rfl
@[simp] theorem State.plat_supplied (m : WorkerId → List Request) : (s.supplied m).plat = s.plat := rfl
@[simp] theorem State.sched_supplied (m : WorkerId → List Request) : (s.supplied m).sched = s.sched := rfl
@[simp] theorem State.turns_supplied (m : WorkerId → List Request) : (s.supplied m).turns = s.turns := rfl
@[simp] theorem State.active_supplied (m : WorkerId → List Request) : (s.supplied m).active = s.active := rfl
@[simp] theorem State.draws_supplied (m : WorkerId → List Request) : (s.supplied m).draws = s.draws := rfl
@[simp] theorem State.worker_supplied (m : WorkerId → List Request) (w : WorkerId) :
    (s.supplied m).worker w = { s.worker w with script := (s.worker w).script ++ m w } := by cases w <;> rfl
@[simp] theorem State.loadByte_supplied (m : WorkerId → List Request) (x : Nat) :
    (s.supplied m).loadByte x = s.loadByte x := State.loadByte_congr (by simp) x
@[simp] theorem State.loadWord_supplied (m : WorkerId → List Request) (x : Nat) :
    (s.supplied m).loadWord x = s.loadWord x := State.loadWord_congr (by simp) x
theorem State.supplied_nothing : s.supplied (fun _ => []) = s := by simp [State.supplied]

/-! ### Updates of the active worker are written outermost -/

@[simp] theorem State.setInst_setSelf (u : Worker) (k : InstId) (v : Accel) : (s.setSelf u).setInst k v = (s.setInst k v).setSelf u := by
  cases k <;> (unfold State.setSelf; cases h : s.active <;> simp [State.setWorker, State.setInst, h])
@[simp] theorem State.setDma_setSelf (u : Worker) (v : Dma) : (s.setSelf u).setDma v = (s.setDma v).setSelf u := by
  unfold State.setSelf; cases h : s.active <;> simp [State.setWorker, State.setDma, h]
@[simp] theorem State.setBarriers_setSelf (u : Worker) (v : List (Barrier × Word)) : (s.setSelf u).setBarriers v = (s.setBarriers v).setSelf u := by
  unfold State.setSelf; cases h : s.active <;> simp [State.setWorker, State.setBarriers, h]
@[simp] theorem State.setSemWords_setSelf (u : Worker) (v : List Nat) : (s.setSelf u).setSemWords v = (s.setSemWords v).setSelf u := by
  unfold State.setSelf; cases h : s.active <;> simp [State.setWorker, State.setSemWords, h]
@[simp] theorem State.drawn_setSelf (u : Worker) : (s.setSelf u).drawn = s.drawn.setSelf u := by
  unfold State.setSelf; cases h : s.active <;> simp [State.setWorker, State.drawn, h]
@[simp] theorem State.diag_setSelf (u : Worker) (k : InstId) (off : Word) (d : Dir) : (s.setSelf u).diag k off d = (s.diag k off d).setSelf u := by
  unfold State.setSelf; cases h : s.active <;> simp [State.setWorker, State.diag, h]
@[simp] theorem State.storeByte_setSelf (u : Worker) (a : Nat) (b : Byte) : (s.setSelf u).storeByte a b = (s.storeByte a b).setSelf u := by
  unfold State.setSelf; cases h : s.active <;> simp [State.setWorker, State.storeByte, h]
@[simp] theorem State.tick_setSelf (u : Worker) : (s.setSelf u).tick = s.tick.setSelf u := by
  unfold State.setSelf; cases h : s.active <;> simp [State.setWorker, State.tick, h]
@[simp] theorem State.storeBytes_setSelf (u : Worker) (a : Nat) (v : Word) (n : Nat) :
    (s.setSelf u).storeBytes a v n = (s.storeBytes a v n).setSelf u := by
  induction n with
  | zero => rfl
  | succ n ih => simp [State.storeBytes, ih]
@[simp] theorem State.storeWord_setSelf (u : Worker) (a : Nat) (v : Word) :
    (s.setSelf u).storeWord a v = (s.storeWord a v).setSelf u := by simp [State.storeWord]

end Sys2Proof.Machine
end

