-- ==== Sys2Proof/Laws/Memory.lean ====
section
/-! SUPPORT. Memory: reading after writing, the canonical form, and bytes and words. -/

namespace Sys2Proof.Machine

/-! ### The list -/

theorem findByte_listByte (m : List Host.Cell) (x y : Nat) (v : Byte) :
    findByte (listByte m x v) y = if y = x then some v else findByte m y := by
  induction m with
  | nil => simp [listByte, findByte, eq_comm]
  | cons c rest ih =>
    obtain ⟨a, b⟩ := c
    simp only [listByte]
    split
    · simp [findByte, eq_comm]
    · split
      · subst_vars; simp only [findByte]; split <;> simp_all [eq_comm]
      · simp only [findByte, ih]; split <;> split <;> simp_all

theorem findByte_dropByte (m : List Host.Cell) (x y : Nat) :
    findByte (dropByte m x) y = if y = x then none else findByte m y := by
  induction m with
  | nil => simp [dropByte, findByte]
  | cons c rest ih =>
    obtain ⟨a, b⟩ := c
    simp only [dropByte]
    split
    · rw [ih]; subst_vars; simp only [findByte]; split <;> simp_all [eq_comm]
    · simp only [findByte, ih]; split <;> split <;> simp_all

/-- Reading the list of bytes after a write. -/
theorem findByte_putByte (m : List Host.Cell) (x y : Nat) (v : Byte) :
    (findByte (putByte m x v) y).getD unlistedByte = if y = x then v else (findByte m y).getD unlistedByte := by
  simp only [putByte]
  split
  · rw [findByte_dropByte]; split <;> simp_all
  · rw [findByte_listByte]; split <;> simp

theorem risesFrom_mono {m : List Host.Cell} {lo hi : Nat} (h : risesFrom hi m) (hl : lo ≤ hi) : risesFrom lo m := by
  cases m with
  | nil => rfl
  | cons c rest =>
    simp only [risesFrom, Bool.and_eq_true, decide_eq_true_eq] at *
    exact ⟨by omega, h.2⟩

theorem risesFrom_listByte {m : List Host.Cell} {lo x : Nat} (v : Byte) (h : risesFrom lo m) (hx : lo ≤ x) :
    risesFrom lo (listByte m x v) := by
  induction m generalizing lo with
  | nil => simp [listByte, risesFrom, hx]
  | cons c rest ih =>
    obtain ⟨a, b⟩ := c
    simp only [risesFrom, Bool.and_eq_true, decide_eq_true_eq] at h
    simp only [listByte]
    split
    · simp only [risesFrom, Bool.and_eq_true, decide_eq_true_eq]
      exact ⟨hx, by omega, h.2⟩
    · split
      · subst_vars; simp [risesFrom, h]
      · simp only [risesFrom, Bool.and_eq_true, decide_eq_true_eq]
        exact ⟨h.1, ih h.2 (by omega)⟩

theorem risesFrom_dropByte {m : List Host.Cell} {lo : Nat} (x : Nat) (h : risesFrom lo m) :
    risesFrom lo (dropByte m x) := by
  induction m generalizing lo with
  | nil => rfl
  | cons c rest ih =>
    obtain ⟨a, b⟩ := c
    simp only [risesFrom, Bool.and_eq_true, decide_eq_true_eq] at h
    simp only [dropByte]
    split
    · exact risesFrom_mono (ih h.2) (by omega)
    · simp only [risesFrom, Bool.and_eq_true, decide_eq_true_eq]
      exact ⟨h.1, ih h.2⟩

theorem all_listByte {p : Host.Cell → Bool} {m : List Host.Cell} {x : Nat} {v : Byte} (h : m.all p) (hx : p (x, v)) :
    (listByte m x v).all p := by
  induction m with
  | nil => simpa [listByte] using hx
  | cons c rest ih =>
    obtain ⟨a, b⟩ := c
    simp only [List.all_cons, Bool.and_eq_true] at h
    simp only [listByte]
    split
    · simp only [List.all_cons, hx, h, Bool.and_self]
    · split
      · simp only [List.all_cons, hx, h.2, Bool.and_self]
      · simp only [List.all_cons, h.1, ih h.2, Bool.and_self]

theorem all_dropByte {p : Host.Cell → Bool} {m : List Host.Cell} (x : Nat) (h : m.all p) : (dropByte m x).all p := by
  induction m with
  | nil => rfl
  | cons c rest ih =>
    obtain ⟨a, b⟩ := c
    simp only [List.all_cons, Bool.and_eq_true] at h
    simp only [dropByte]
    split
    · exact ih h.2
    · simp only [List.all_cons, h.1, ih h.2, Bool.and_self]

/-- A write of one byte keeps the canonical form. -/
theorem Memory.wf_putByte {m : List Host.Cell} {x : Nat} (v : Byte) (h : Memory.wf m) (hx : x < addressSpace) :
    Memory.wf (putByte m x v) := by
  simp only [Memory.wf, Bool.and_eq_true] at *
  simp only [putByte]
  split
  · exact ⟨risesFrom_dropByte x h.1, all_dropByte x h.2⟩
  · exact ⟨risesFrom_listByte v h.1 (Nat.zero_le x), all_listByte h.2 (by simp_all)⟩

/-- Canonical memories that list the same bytes are the same list. -/
theorem risesFrom_ext {m n : List Host.Cell} {lo lo' : Nat} (hm : risesFrom lo m) (hn : risesFrom lo' n)
    (h : ∀ x, findByte m x = findByte n x) : m = n := by
  have below : ∀ {l : List Host.Cell} {k x : Nat}, risesFrom k l → x < k → findByte l x = none := by
    intro l
    induction l with
    | nil => intros; rfl
    | cons c rest ih =>
      intro k x hk hx
      simp only [risesFrom, Bool.and_eq_true, decide_eq_true_eq] at hk
      simp only [findByte]
      rw [if_neg (by omega)]
      exact ih hk.2 (by omega)
  induction m generalizing n lo lo' with
  | nil =>
    cases n with
    | nil => rfl
    | cons c rest => simpa [findByte] using h c.1
  | cons c rest ih =>
    obtain ⟨a, b⟩ := c
    cases n with
    | nil => simpa [findByte] using h a
    | cons c' rest' =>
      obtain ⟨a', b'⟩ := c'
      simp only [risesFrom, Bool.and_eq_true, decide_eq_true_eq] at hm hn
      have haa : a = a' := by
        rcases Nat.lt_trichotomy a a' with hlt | heq | hgt
        · have := h a
          simp only [findByte, if_true, if_neg (Nat.ne_of_gt hlt), below hn.2 (by omega : a < a' + 1)] at this
          exact absurd this (by simp)
        · exact heq
        · have := h a'
          simp only [findByte, if_true, if_neg (Nat.ne_of_gt hgt), below hm.2 (by omega : a' < a + 1)] at this
          exact absurd this (by simp)
      subst haa
      have hb : b = b' := by simpa [findByte] using h a
      subst hb
      congr 1
      refine ih hm.2 hn.2 fun x => ?_
      by_cases hx : a = x
      · subst hx
        rw [below hm.2 (by omega), below hn.2 (by omega)]
      · simpa [findByte, hx] using h x

/-- A canonical memory lists no byte that an unlisted address reads as. -/
theorem findByte_ne_unlisted {m : List Host.Cell} (h : Memory.wf m) (x : Nat) : findByte m x ≠ some unlistedByte := by
  simp only [Memory.wf, Bool.and_eq_true] at h
  replace h := h.2
  induction m with
  | nil => simp [findByte]
  | cons c rest ih =>
    obtain ⟨a, b⟩ := c
    simp only [List.all_cons, Bool.and_eq_true, bne_iff_ne, ne_eq] at h
    simp only [findByte]
    split
    · simpa using h.1.2
    · exact ih h.2

/-- Memories in canonical form that read the same at every address are the same data. -/
theorem Memory.ext {m n : List Host.Cell} (hm : Memory.wf m) (hn : Memory.wf n)
    (h : ∀ x, (findByte m x).getD unlistedByte = (findByte n x).getD unlistedByte) : m = n := by
  have hm' := hm
  have hn' := hn
  simp only [Memory.wf, Bool.and_eq_true] at hm hn
  refine risesFrom_ext hm.1 hn.1 fun x => ?_
  have hx := h x
  have h1 := findByte_ne_unlisted hm' x
  have h2 := findByte_ne_unlisted hn' x
  cases e1 : findByte m x <;> cases e2 : findByte n x <;> simp_all

/-! ### Bytes of the state -/

theorem State.loadByte_storeByte (s : State) (a x : Nat) (b : Byte) :
    (s.storeByte a b).loadByte x = if x = a then b else s.loadByte x := by
  simp only [State.loadByte, State.mem_storeByte, findByte_putByte]

theorem State.loadByte_storeBytes (s : State) (a x : Nat) (v : Word) (n : Nat) :
    (s.storeBytes a v n).loadByte x = if a ≤ x ∧ x < a + n then byteAt v (x - a) else s.loadByte x := by
  induction n with
  | zero => simp only [State.storeBytes]; rw [if_neg (by omega)]
  | succ n ih =>
    simp only [State.storeBytes, State.loadByte_storeByte, ih]
    by_cases hx : x = a + n
    · subst hx; rw [if_pos rfl, if_pos (by omega), Nat.add_sub_cancel_left]
    · rw [if_neg hx]
      by_cases h : a ≤ x ∧ x < a + n
      · rw [if_pos h, if_pos (by omega)]
      · rw [if_neg h, if_neg (by omega)]

/-- A stored word's four bytes are its own; every other byte is as before. -/
theorem State.loadByte_storeWord (s : State) (a x : Nat) (v : Word) :
    (s.storeWord a v).loadByte x = if a ≤ x ∧ x < a + 4 then byteAt v (x - a) else s.loadByte x :=
  s.loadByte_storeBytes a x v 4

theorem State.loadByte_storeWord_other (s : State) (a x : Nat) (v : Word) (h : x < a ∨ a + 4 ≤ x) :
    (s.storeWord a v).loadByte x = s.loadByte x := by rw [State.loadByte_storeWord, if_neg (by omega)]

/-- The four bytes of a word make it again (R40). -/
@[simp] theorem le4_byteAt (w : Word) : le4 (byteAt w 0) (byteAt w 1) (byteAt w 2) (byteAt w 3) = w := by
  have h : ∀ i, i < 32 →
      (byteAt w 3 ++ byteAt w 2 ++ byteAt w 1 ++ byteAt w 0 : BitVec (8 + 8 + 8 + 8)).getLsbD i = w.getLsbD i := by
    intro i hi
    simp only [byteAt, BitVec.getLsbD_append, BitVec.getLsbD_extractLsb']
    split
    · simp_all
    · split
      · rw [decide_eq_true (by omega)]; simp; congr 1; omega
      · split
        · rw [decide_eq_true (by omega)]; simp; congr 1; omega
        · rw [decide_eq_true (by omega)]; simp; congr 1; omega
  exact BitVec.eq_of_getLsbD_eq fun i hi => h i hi

/-- The two bytes of a raw value make it again. -/
@[simp] theorem le2_bytes2 (r : Fx) : le2 (r.extractLsb' 0 8) (r.extractLsb' 8 8) = r := by
  have h : ∀ i, i < 16 →
      (r.extractLsb' 8 8 ++ r.extractLsb' 0 8 : BitVec (8 + 8)).getLsbD i = r.getLsbD i := by
    intro i hi
    simp only [BitVec.getLsbD_append, BitVec.getLsbD_extractLsb']
    split
    · simp_all
    · rw [decide_eq_true (by omega)]; simp; congr 1; omega
  exact BitVec.eq_of_getLsbD_eq fun i hi => h i hi

@[simp] theorem State.loadWord_storeWord (s : State) (a : Nat) (v : Word) : (s.storeWord a v).loadWord a = v := by
  simp only [State.loadWord, State.loadByte_storeWord]
  rw [if_pos (by omega), if_pos (by omega), if_pos (by omega), if_pos (by omega)]
  simp

theorem State.loadWord_storeWord_other (s : State) (a x : Nat) (v : Word) (h : x + 4 ≤ a ∨ a + 4 ≤ x) :
    (s.storeWord a v).loadWord x = s.loadWord x := by
  simp only [State.loadWord]
  rw [State.loadByte_storeWord_other _ _ _ _ (by omega), State.loadByte_storeWord_other _ _ _ _ (by omega),
    State.loadByte_storeWord_other _ _ _ _ (by omega), State.loadByte_storeWord_other _ _ _ _ (by omega)]

/-- A store of up to `n` bytes inside the address space keeps the canonical form. -/
theorem Memory.wf_storeBytes {s : State} {a n : Nat} (v : Word) (h : Memory.wf s.mem) (ha : a + n ≤ addressSpace) :
    Memory.wf (s.storeBytes a v n).mem := by
  induction n with
  | zero => exact h
  | succ n ih => exact Memory.wf_putByte _ (ih (by omega)) (by omega)

theorem Memory.wf_storeWord {s : State} {a : Nat} (v : Word) (h : Memory.wf s.mem) (ha : a + 4 ≤ addressSpace) :
    Memory.wf (s.storeWord a v).mem := Memory.wf_storeBytes v h ha

/-- Reset memory is canonical. -/
theorem Memory.wf_reset : Memory.wf State.reset.mem := rfl

end Sys2Proof.Machine
end

