-- ==== Sys2Proof/Laws/Ops.lean ====
section
/-! SUPPORT. What each shared operation does and what it leaves unchanged, said once. -/

namespace Sys2Proof.Machine

/-! ### Frames -/

theorem Frame.refl (s : State) (l : List Part) : Frame s s l := by
  intro p _
  cases p <;> simp [samePart]

theorem Frame.mono {s t : State} {l m : List Part} (h : Frame s t l) (hl : l ⊆ m) : Frame s t m :=
  fun p hp => h p fun hm => hp (hl hm)

theorem Frame.trans {s t u : State} {l : List Part} (h : Frame s t l) (h' : Frame t u l) : Frame s u l := by
  intro p hp
  have a := h p hp
  have b := h' p hp
  cases p <;> simp_all [samePart]

theorem Frame.inst {s t : State} {l : List Part} (h : Frame s t l) {k : InstId} (hk : Part.inst k ∉ l) :
    t.inst k = s.inst k := h _ hk
theorem Frame.log {s t : State} {l : List Part} (h : Frame s t l) (hk : Part.log ∉ l) : t.log = s.log := h _ hk
theorem Frame.mem {s t : State} {l : List Part} (h : Frame s t l) (hk : Part.memory ∉ l) : t.mem = s.mem := (h _ hk).1
theorem Frame.loadByte {s t : State} {l : List Part} (h : Frame s t l) (hk : Part.memory ∉ l) (a : Nat) :
    t.loadByte a = s.loadByte a := (h _ hk).2 a
theorem Frame.semWords {s t : State} {l : List Part} (h : Frame s t l) (hk : Part.semWords ∉ l) :
    t.semWords = s.semWords := h _ hk
theorem Frame.barriers {s t : State} {l : List Part} (h : Frame s t l) (hk : Part.barriers ∉ l) :
    t.barriers = s.barriers := h _ hk
theorem Frame.dma {s t : State} {l : List Part} (h : Frame s t l) (hk : Part.dma ∉ l) : t.dma = s.dma := h _ hk
theorem Frame.worker {s t : State} {l : List Part} (h : Frame s t l) {w : WorkerId} (hk : Part.worker w ∉ l) :
    t.worker w = s.worker w := h _ hk
theorem Frame.plat {s t : State} {l : List Part} (h : Frame s t l) (hk : Part.plat ∉ l) : t.plat = s.plat := h _ hk
theorem Frame.active {s t : State} {l : List Part} (h : Frame s t l) (hk : Part.schedule ∉ l) : t.active = s.active :=
  (h _ hk).2.2
theorem Frame.sched {s t : State} {l : List Part} (h : Frame s t l) (hk : Part.schedule ∉ l) : t.sched = s.sched :=
  (h _ hk).1

theorem Frame.self {s t : State} {l : List Part} (h : Frame s t l) (hs : Part.schedule ∉ l)
    (hw : Part.worker s.active ∉ l) : t.self = s.self := by
  rw [← State.worker_active, h.active hs, h.worker hw, State.worker_active]

/-! ### One frame for each operation on a part -/

theorem frame_setInst (s : State) (k : InstId) (v : Accel) : Frame s (s.setInst k v) [.inst k] := by
  intro p hp
  cases p <;> simp_all [samePart]

theorem frame_setSelf (s : State) (v : Worker) : Frame s (s.setSelf v) [.worker s.active] := by
  intro p hp
  cases p <;> simp_all [samePart]

theorem frame_retire (s : State) (r : Ret) : Frame s (s.retire r) [.worker s.active] := frame_setSelf s _

theorem frame_goto (s : State) (i : Instr) (l : Label) : Frame s (s.goto i l) [.worker s.active] := frame_setSelf s _

theorem frame_setLocals (s : State) (v : Locals) : Frame s (s.setLocals v) [.worker s.active] := frame_setSelf s _

theorem frame_setCopy (s : State) (v : Copy) : Frame s (s.setCopy v) [.worker s.active] := frame_setSelf s _

theorem frame_setDma (s : State) (v : Dma) : Frame s (s.setDma v) [.dma] := by
  intro p hp
  cases p <;> simp_all [samePart]

theorem frame_setBarriers (s : State) (v : List (Barrier × Word)) : Frame s (s.setBarriers v) [.barriers] := by
  intro p hp
  cases p <;> simp_all [samePart]

theorem frame_setSemWords (s : State) (v : List Nat) : Frame s (s.setSemWords v) [.semWords] := by
  intro p hp
  cases p <;> simp_all [samePart]

theorem frame_drawn (s : State) : Frame s s.drawn [.draws] := by
  intro p hp
  cases p <;> simp_all [samePart]

theorem frame_diag (s : State) (k : InstId) (off : Word) (d : Dir) : Frame s (s.diag k off d) [.log] := by
  intro p hp
  cases p <;> simp_all [samePart]

theorem frame_storeByte (s : State) (a : Nat) (b : Byte) : Frame s (s.storeByte a b) [.memory] := by
  intro p hp
  cases p <;> simp_all [samePart]

theorem frame_storeBytes (s : State) (a : Nat) (v : Word) (n : Nat) : Frame s (s.storeBytes a v n) [.memory] := by
  induction n with
  | zero => exact Frame.refl _ _
  | succ n ih => exact ih.trans (frame_storeByte _ _ _)

theorem frame_storeWord (s : State) (a : Nat) (v : Word) : Frame s (s.storeWord a v) [.memory] :=
  frame_storeBytes s a v 4

theorem frame_initSem (s : State) (a n : Word) : Frame s (s.initSem a n) [.memory, .semWords] :=
  ((frame_storeWord s _ _).mono (by simp)).trans ((frame_setSemWords _ _).mono (by simp))

/-- A compare-and-swap changes memory, and only if the word holds the expected value (R140). -/
theorem frame_cas (s : State) (a expect new : Word) : Frame s (s.cas a expect new).2 [.memory] := by
  simp only [State.cas]
  split
  · exact frame_storeWord s _ _
  · exact Frame.refl _ _

theorem State.cas_hit {s : State} {a expect : Word} (new : Word) (h : s.loadWord a.toNat = expect) :
    s.cas a expect new = (true, s.storeWord a.toNat new) := by simp [State.cas, h]

theorem State.cas_miss {s : State} {a expect : Word} (new : Word) (h : s.loadWord a.toNat ≠ expect) :
    s.cas a expect new = (false, s) := by simp [State.cas, h]

/-! ### The accelerator's registers -/

theorem frame_operand (F : Nat) (w : Word) (s : State) : Frame s (operand F w s).2 [.draws] := by
  simp only [operand]
  split
  · exact Frame.refl _ _
  · exact frame_drawn s

theorem frame_writeA (k : InstId) (w : Word) (s : State) : Frame s (writeA k w s) [.inst k, .draws] :=
  ((frame_operand 8 w s).mono (by simp)).trans ((frame_setInst _ k _).mono (by simp))

theorem frame_writeB (k : InstId) (w : Word) (s : State) : Frame s (writeB k w s) [.inst k, .draws] :=
  ((frame_operand 8 w s).mono (by simp)).trans ((frame_setInst _ k _).mono (by simp))

theorem frame_writeZ (k : InstId) (w : Word) (s : State) : Frame s (writeZ k w s) [.inst k, .draws] :=
  ((frame_operand 7 w s).mono (by simp)).trans ((frame_setInst _ k _).mono (by simp))

theorem inst_writeA (k : InstId) (w : Word) (s : State) :
    (writeA k w s).inst k = { s.inst k with inA := (s.inst k).inA ++ [(operand 8 w s).1] } := by
  simp [writeA, (frame_operand 8 w s).inst (k := k) (by simp)]

theorem inst_writeB (k : InstId) (w : Word) (s : State) :
    (writeB k w s).inst k = { s.inst k with inB := (s.inst k).inB ++ [(operand 8 w s).1] } := by
  simp [writeB, (frame_operand 8 w s).inst (k := k) (by simp)]

theorem inst_writeZ (k : InstId) (w : Word) (s : State) :
    (writeZ k w s).inst k = { s.inst k with inZ := (s.inst k).inZ ++ [(operand 7 w s).1] } := by
  simp [writeZ, (frame_operand 7 w s).inst (k := k) (by simp)]

/-- A completed read of the first result register took the head of its channel. -/
theorem readA_some {k : InstId} {s t : State} {w : Word} (h : readA k s = some (w, t)) :
    ∃ r rest, (s.inst k).outA = r :: rest ∧ w = widen 8 r ∧ t = s.setInst k { s.inst k with outA := rest } := by
  simp only [readA] at h
  split at h
  · simp at h
  · rename_i r rest e; simp only [Option.some.injEq, Prod.mk.injEq] at h; exact ⟨r, rest, e, h.1.symm, h.2.symm⟩

theorem readB_some {k : InstId} {s t : State} {w : Word} (h : readB k s = some (w, t)) :
    ∃ r rest, (s.inst k).outB = r :: rest ∧ w = widen 8 r ∧ t = s.setInst k { s.inst k with outB := rest } := by
  simp only [readB] at h
  split at h
  · simp at h
  · rename_i r rest e; simp only [Option.some.injEq, Prod.mk.injEq] at h; exact ⟨r, rest, e, h.1.symm, h.2.symm⟩

theorem readZ_some {k : InstId} {s t : State} {w : Word} (h : readZ k s = some (w, t)) :
    ∃ r rest, (s.inst k).outZ = r :: rest ∧ w = widen 7 r ∧ t = s.setInst k { s.inst k with outZ := rest } := by
  simp only [readZ] at h
  split at h
  · simp at h
  · rename_i r rest e; simp only [Option.some.injEq, Prod.mk.injEq] at h; exact ⟨r, rest, e, h.1.symm, h.2.symm⟩

theorem frame_badWrite (k : InstId) (off : Word) (s : State) : Frame s (badWrite k off s) [.log] := frame_diag s k off _

theorem frame_badRead (k : InstId) (off : Word) (s : State) : Frame s (badRead k off s).2 [.log, .draws] :=
  ((frame_diag s k off _).mono (by simp)).trans ((frame_drawn _).mono (by simp))

/-- A write decoded by instance k is one of the four operations (R64). -/
theorem accWrite_cases (k : InstId) (off w : Word) (s : State) :
    accWrite k off w s = writeA k w s ∨ accWrite k off w s = writeB k w s ∨ accWrite k off w s = writeZ k w s ∨
      accWrite k off w s = badWrite k off s := by
  simp only [accWrite]
  split <;> simp

theorem frame_accWrite (k : InstId) (off w : Word) (s : State) :
    Frame s (accWrite k off w s) [.inst k, .draws, .log] := by
  rcases accWrite_cases k off w s with h | h | h | h <;> rw [h]
  · exact (frame_writeA k w s).mono (by simp)
  · exact (frame_writeB k w s).mono (by simp)
  · exact (frame_writeZ k w s).mono (by simp)
  · exact (frame_badWrite k off s).mono (by simp)

/-- A read decoded by instance k is one of the four operations (R64). -/
theorem accRead_cases (k : InstId) (off : Word) (s : State) :
    accRead k off s = readA k s ∨ accRead k off s = readB k s ∨ accRead k off s = readZ k s ∨
      accRead k off s = some (badRead k off s) := by
  simp only [accRead]
  split <;> simp

theorem frame_accRead {k : InstId} {off w : Word} {s t : State} (h : accRead k off s = some (w, t)) :
    Frame s t [.inst k, .draws, .log] := by
  rcases accRead_cases k off s with e | e | e | e <;> rw [e] at h
  · obtain ⟨_, _, _, _, rfl⟩ := readA_some h; exact (frame_setInst _ k _).mono (by simp)
  · obtain ⟨_, _, _, _, rfl⟩ := readB_some h; exact (frame_setInst _ k _).mono (by simp)
  · obtain ⟨_, _, _, _, rfl⟩ := readZ_some h; exact (frame_setInst _ k _).mono (by simp)
  · simp only [Option.some.injEq] at h
    have := frame_badRead k off s
    rw [h] at this
    exact this.mono (by simp)

/-! ### The bulk copy's bus accesses -/

/-- A word read by a copy comes from memory, or is a read transaction of an instance (R176). -/
theorem busRead4_some {a : Nat} {w : Word} {s t : State} (h : busRead4 a s = .ok (some (w, t))) :
    (s.plat.deviceAt a = .memory ∧ w = s.loadWord a ∧ t = s) ∨
      ∃ k, s.plat.deviceAt a = .acc k ∧ accRead k (BitVec.ofNat 32 (a - (s.plat.accBase k).toNat)) s = some (w, t) := by
  simp only [busRead4] at h
  split at h
  · rename_i k e; simp only [Except.ok.injEq] at h; exact .inr ⟨k, e, h⟩
  · rename_i e
    simp only [Except.ok.injEq, Option.some.injEq, Prod.mk.injEq] at h
    exact .inl ⟨e, h.1.symm, h.2.symm⟩
  · simp at h
  · simp at h

/-- A word written by a copy goes to memory, or is a write transaction of an instance (R176). -/
theorem busWrite4_ok {a : Nat} {w : Word} {s t : State} (h : busWrite4 a w s = .ok t) :
    (s.plat.deviceAt a = .memory ∧ t = s.storeWord a w) ∨
      ∃ k, s.plat.deviceAt a = .acc k ∧ t = accWrite k (BitVec.ofNat 32 (a - (s.plat.accBase k).toNat)) w s := by
  simp only [busWrite4] at h
  split at h
  · rename_i k e; simp only [Except.ok.injEq] at h; exact .inr ⟨k, e, h.symm⟩
  · rename_i e; simp only [Except.ok.injEq] at h; exact .inl ⟨e, h.symm⟩
  · simp at h
  · simp at h

theorem frame_copied (s : State) (n : Nat) (l : Label) : Frame s (s.copied n l) [.worker s.active] := by
  simp only [State.copied]
  have h := frame_setCopy s { s.self.copy with done := s.self.copy.done + n }
  split
  · exact h.trans (by simpa using frame_retire (s.setCopy { s.self.copy with done := s.self.copy.done + n }) .ok)
  · exact h.trans (by simpa using frame_goto (s.setCopy { s.self.copy with done := s.self.copy.done + n }) .dmaOpCopy l)

theorem frame_startCopy (s : State) : Frame s s.startCopy [.dma, .worker s.active] :=
  ((frame_setDma s { s.dma with op := 1 }).mono (by simp)).trans
    ((frame_setCopy _ ⟨s.dma.src, s.dma.dst, s.dma.len, 0, 0⟩).mono (by simp))

/-! ### Checks -/

/-- A word that passes the check is aligned and lies wholly in shared memory (R42, R18). -/
theorem Platform.wordCheck_none {p : Platform} {a : Word} (h : p.wordCheck a = none) :
    aligned4 a = true ∧ p.memoryRange a.toNat 4 = true := by
  simp only [Platform.wordCheck] at h
  split at h
  · simp at h
  · split at h
    · simp at h
    · simp_all

theorem Platform.wordCheck_none_iff {p : Platform} {a : Word} :
    p.wordCheck a = none ↔ aligned4 a = true ∧ p.memoryRange a.toNat 4 = true :=
  ⟨Platform.wordCheck_none, fun h => by simp [Platform.wordCheck, h]⟩

theorem within_iff {a lo n : Nat} : within a lo n = true ↔ lo ≤ a ∧ a < lo + n := by simp [within]

theorem overlaps_iff {lo n lo' n' : Nat} : overlaps lo n lo' n' = true ↔ lo < lo' + n' ∧ lo' < lo + n := by
  simp [overlaps]

/-- Ranges without a common byte have none. -/
theorem within_of_not_overlaps {x lo n lo' n' : Nat} (h : overlaps lo n lo' n' = false) (hx : lo ≤ x ∧ x < lo + n) :
    within x lo' n' = false := by
  simp only [overlaps, Bool.and_eq_false_iff, decide_eq_false_iff_not] at h
  simp only [within, Bool.and_eq_false_iff, decide_eq_false_iff_not]
  omega

theorem Platform.inWindow_acc0 (p : Platform) (a : Nat) :
    p.inWindow .acc0 a = within a p.accBase0.toNat p.windowSize.toNat := rfl
theorem Platform.inWindow_acc1 (p : Platform) (a : Nat) :
    p.inWindow .acc1 a = within a p.accBase1.toNat p.windowSize.toNat := rfl

/-- Every byte of a range of shared memory is dispatched to memory (R63). -/
theorem Platform.deviceAt_memoryRange {p : Platform} {a n x : Nat} (h : p.memoryRange a n = true)
    (hx : a ≤ x ∧ x < a + n) : p.deviceAt x = .memory := by
  simp only [Platform.memoryRange, Platform.touchesDevice, Bool.and_eq_true, Bool.not_eq_true', Bool.or_eq_false_iff]
    at h
  obtain ⟨hi, ⟨h0, h1⟩, h2⟩ := h
  have hm : within x p.memBase p.memSize = true := by
    simp only [insideOf, Bool.and_eq_true, decide_eq_true_eq] at hi
    exact within_iff.2 (by omega)
  simp [Platform.deviceAt, Platform.inWindow_acc0, Platform.inWindow_acc1, Platform.inDma,
    within_of_not_overlaps h0 hx, within_of_not_overlaps h1 hx, within_of_not_overlaps h2 hx, hm]

/-- On a platform that meets R46, every address of a window is dispatched to its instance (R63). -/
theorem Platform.deviceAt_window {p : Platform} {k : InstId} {x : Nat} (hp : p.ok = true)
    (hx : (p.accBase k).toNat ≤ x ∧ x < (p.accBase k).toNat + p.windowSize.toNat) : p.deviceAt x = .acc k := by
  simp only [Platform.ok, Bool.and_eq_true, Bool.not_eq_true'] at hp
  cases k with
  | acc0 =>
    have hw : within x p.accBase0.toNat p.windowSize.toNat = true := within_iff.2 hx
    simp [Platform.deviceAt, Platform.inWindow_acc0, hw]
  | acc1 =>
    have h0 : within x p.accBase0.toNat p.windowSize.toNat = false := by
      have h := hp.1.1.2
      simp only [overlaps, Bool.and_eq_false_iff, decide_eq_false_iff_not] at h
      simp only [Platform.accBase] at hx
      simp only [within, Bool.and_eq_false_iff, decide_eq_false_iff_not]
      omega
    have hw : within x p.accBase1.toNat p.windowSize.toNat = true := within_iff.2 hx
    simp [Platform.deviceAt, Platform.inWindow_acc0, Platform.inWindow_acc1, h0, hw]

/-- On a platform that meets R46, the 16 addresses from DMA_BASE are dispatched to the bulk transfer block (R63). -/
theorem Platform.deviceAt_dma {p : Platform} {x : Nat} (hp : p.ok = true)
    (hx : p.dmaBase.toNat ≤ x ∧ x < p.dmaBase.toNat + dmaBytes) : p.deviceAt x = .dma := by
  simp only [Platform.ok, Bool.and_eq_true, Bool.not_eq_true'] at hp
  have h0 : within x p.accBase0.toNat p.windowSize.toNat = false := by
    have h := hp.1.2
    simp only [overlaps, Bool.and_eq_false_iff, decide_eq_false_iff_not] at h
    simp only [within, Bool.and_eq_false_iff, decide_eq_false_iff_not]
    omega
  have h1 : within x p.accBase1.toNat p.windowSize.toNat = false := by
    have h := hp.2
    simp only [overlaps, Bool.and_eq_false_iff, decide_eq_false_iff_not] at h
    simp only [within, Bool.and_eq_false_iff, decide_eq_false_iff_not]
    omega
  simp [Platform.deviceAt, Platform.inWindow_acc0, Platform.inWindow_acc1, Platform.inDma, h0, h1, within_iff.2 hx]

/-- On a platform that meets R46, shared memory lies in the address space. -/
theorem Platform.memoryRange_le {p : Platform} {a n : Nat} (hp : p.ok = true) (h : p.memoryRange a n = true) :
    a + n ≤ addressSpace := by
  simp only [Platform.ok, Platform.memoryRange, insideOf, Bool.and_eq_true, decide_eq_true_eq] at hp h
  omega

theorem State.semCheck_none {s : State} {a : Word} (h : s.semCheck a = none) :
    s.plat.wordCheck a = none ∧ s.semWords.contains a.toNat = true := by
  simp only [State.semCheck] at h
  split at h
  · simp at h
  · rename_i e
    split at h
    · rename_i c; exact ⟨e, c⟩
    · simp at h

theorem State.semCheck_none_iff {s : State} {a : Word} :
    s.semCheck a = none ↔ s.plat.wordCheck a = none ∧ s.semWords.contains a.toNat = true :=
  ⟨State.semCheck_none, fun h => by simp only [State.semCheck, h.1, h.2, if_true]⟩

theorem Platform.barrierCheck_none {p : Platform} {b : Barrier} (h : p.barrierCheck b = none) :
    p.wordCheck b.counter = none ∧ p.wordCheck b.gateLock = none ∧ p.wordCheck b.releaseSem = none := by
  simp only [Platform.barrierCheck] at h
  split at h
  · simp at h
  · rename_i e
    split at h
    · simp at h
    · rename_i e'; exact ⟨e, e', h⟩

/-! ### Micro-steps of the primitives -/

/-- What a wait's micro-step can be (R142): refused, W1, a W2 that succeeds, a W2 that loses its race. -/
theorem waitStep_cases (i : Instr) (a : Word) (l1 l2 : Label) (fin : State → State) (s : State) :
    (∃ r, s.semCheck a = some r ∧ waitStep i a l1 l2 fin s = .refused r) ∨
    (s.semCheck a = none ∧ s.self.pc ≠ l2 ∧ waitStep i a l1 l2 fin s =
      .next ((s.setLocals { s.self.locals with old := s.loadWord a.toNat }).goto i
        (if s.loadWord a.toNat = 0 then l1 else l2))) ∨
    (s.semCheck a = none ∧ s.self.pc = l2 ∧ s.loadWord a.toNat = s.self.locals.old ∧ waitStep i a l1 l2 fin s =
      .next (fin ((s.storeWord a.toNat (s.self.locals.old - 1)).setLocals { s.self.locals with ok := true }))) ∨
    (s.semCheck a = none ∧ s.self.pc = l2 ∧ s.loadWord a.toNat ≠ s.self.locals.old ∧ waitStep i a l1 l2 fin s =
      .next ((s.setLocals { s.self.locals with ok := false }).goto i l1)) := by
  simp only [waitStep, waitRead, waitTry]
  cases hc : s.semCheck a with
  | some r => exact .inl ⟨r, rfl, rfl⟩
  | none =>
    by_cases hl : s.self.pc = l2
    · by_cases hw : s.loadWord a.toNat = s.self.locals.old
      · exact .inr (.inr (.inl ⟨rfl, hl, hw, by simp [hl, State.cas_hit _ hw]⟩))
      · exact .inr (.inr (.inr ⟨rfl, hl, hw, by simp [hl, State.cas_miss _ hw]⟩))
    · exact .inr (.inl ⟨rfl, hl, by simp [hl]⟩)

/-- What a post's micro-step can be (R143): refused, P1, a P2 that succeeds, a P2 that loses its race. -/
theorem postStep_cases (i : Instr) (a : Word) (l1 l2 : Label) (fin : State → State) (s : State) :
    (∃ r, s.semCheck a = some r ∧ postStep i a l1 l2 fin s = .refused r) ∨
    (s.semCheck a = none ∧ s.self.pc ≠ l2 ∧ s.loadWord a.toNat = 0xffffffff ∧
      postStep i a l1 l2 fin s = .refused .countOverflow) ∨
    (s.semCheck a = none ∧ s.self.pc ≠ l2 ∧ s.loadWord a.toNat ≠ 0xffffffff ∧ postStep i a l1 l2 fin s =
      .next ((s.setLocals { s.self.locals with old := s.loadWord a.toNat }).goto i l2)) ∨
    (s.semCheck a = none ∧ s.self.pc = l2 ∧ s.loadWord a.toNat = s.self.locals.old ∧ postStep i a l1 l2 fin s =
      .next (fin ((s.storeWord a.toNat (s.self.locals.old + 1)).setLocals { s.self.locals with ok := true }))) ∨
    (s.semCheck a = none ∧ s.self.pc = l2 ∧ s.loadWord a.toNat ≠ s.self.locals.old ∧ postStep i a l1 l2 fin s =
      .next ((s.setLocals { s.self.locals with ok := false }).goto i l1)) := by
  simp only [postStep, postRead, postTry]
  cases hc : s.semCheck a with
  | some r => exact .inl ⟨r, rfl, rfl⟩
  | none =>
    by_cases hl : s.self.pc = l2
    · by_cases hw : s.loadWord a.toNat = s.self.locals.old
      · exact .inr (.inr (.inr (.inl ⟨rfl, hl, hw, by simp [hl, State.cas_hit _ hw]⟩)))
      · exact .inr (.inr (.inr (.inr ⟨rfl, hl, hw, by simp [hl, State.cas_miss _ hw]⟩)))
    · by_cases hw : s.loadWord a.toNat = 0xffffffff
      · exact .inr (.inl ⟨rfl, hl, hw, by rw [if_neg hl, if_pos hw]⟩)
      · exact .inr (.inr (.inl ⟨rfl, hl, hw, by rw [if_neg hl, if_neg hw]⟩))

end Sys2Proof.Machine
end

