-- ==== Sys2Proof/Laws/Frames.lean ====
section
/-! SUPPORT. For each operation, the parts of the state it can change when it answers a next state; every other part
is as before. -/

namespace Sys2Proof.Machine

variable {s t : State}

/-- The frame of a function of the worker whose operation it is, composed after one. -/
theorem Frame.then {s u t : State} {l m : List Part} (h : Frame s u l) (h' : Frame u t [.worker u.active])
    (hs : Part.schedule ∉ l) (hl : l ⊆ m) (hw : Part.worker s.active ∈ m) : Frame s t m := by
  have ha := h.active hs
  rw [ha] at h'
  exact (h.mono hl).trans (h'.mono (by simpa using hw))

theorem frame_finishRead {i : Instr} {r : Option (Word × State)} {l : List Part}
    (hr : ∀ w u, r = some (w, u) → Frame s u l) (hs : Part.schedule ∉ l) (h : finishRead i s r = .next t) :
    Frame s t (.worker s.active :: l) := by
  simp only [finishRead] at h
  split at h <;> simp only [Host.Outcome.next.injEq] at h <;> subst h
  · exact (hr _ _ rfl).then (frame_retire _ _) hs (by simp) (by simp)
  · exact (frame_goto s i .start).mono (by simp)

theorem frame_execWrA (k : InstId) (w : Word) (h : execWrA k w s = .next t) :
    Frame s t [.inst k, .draws, .worker s.active] := by
  simp only [execWrA, Host.Outcome.next.injEq] at h; subst h
  exact (frame_writeA k w s).then (frame_retire _ _) (by simp) (by simp) (by simp)

theorem frame_execWrB (k : InstId) (w : Word) (h : execWrB k w s = .next t) :
    Frame s t [.inst k, .draws, .worker s.active] := by
  simp only [execWrB, Host.Outcome.next.injEq] at h; subst h
  exact (frame_writeB k w s).then (frame_retire _ _) (by simp) (by simp) (by simp)

theorem frame_execWrZ (k : InstId) (w : Word) (h : execWrZ k w s = .next t) :
    Frame s t [.inst k, .draws, .worker s.active] := by
  simp only [execWrZ, Host.Outcome.next.injEq] at h; subst h
  exact (frame_writeZ k w s).then (frame_retire _ _) (by simp) (by simp) (by simp)

theorem frame_execRdA (k : InstId) (h : execRdA k s = .next t) : Frame s t [.worker s.active, .inst k] :=
  frame_finishRead (fun _ _ e => by obtain ⟨_, _, _, _, rfl⟩ := readA_some e; exact frame_setInst s k _) (by simp) h

theorem frame_execRdB (k : InstId) (h : execRdB k s = .next t) : Frame s t [.worker s.active, .inst k] :=
  frame_finishRead (fun _ _ e => by obtain ⟨_, _, _, _, rfl⟩ := readB_some e; exact frame_setInst s k _) (by simp) h

theorem frame_execRdZ (k : InstId) (h : execRdZ k s = .next t) : Frame s t [.worker s.active, .inst k] :=
  frame_finishRead (fun _ _ e => by obtain ⟨_, _, _, _, rfl⟩ := readZ_some e; exact frame_setInst s k _) (by simp) h

theorem frame_execBadWr (k : InstId) (off : Word) (h : execBadWr k off s = .next t) :
    Frame s t [.log, .worker s.active] := by
  simp only [execBadWr, Host.Outcome.next.injEq] at h; subst h
  exact (frame_badWrite k off s).then (frame_retire _ _) (by simp) (by simp) (by simp)

theorem frame_execBadRd (k : InstId) (off : Word) (h : execBadRd k off s = .next t) :
    Frame s t [.log, .draws, .worker s.active] := by
  simp only [execBadRd, Host.Outcome.next.injEq] at h; subst h
  exact (frame_badRead k off s).then (frame_retire _ _) (by simp) (by simp) (by simp)

theorem frame_execEngineStep (k : InstId) (h : execEngineStep k s = .next t) : Frame s t [.inst k] := by
  simp only [execEngineStep] at h
  split at h <;> simp only [Host.Outcome.next.injEq] at h <;> subst h
  · exact frame_setInst s k _
  · exact Frame.refl _ _

theorem frame_execRotate (x y t0 : Fx) (h : execRotate x y t0 s = .next t) : Frame s t [.worker s.active] := by
  simp only [execRotate, Host.Outcome.next.injEq] at h; subst h
  exact frame_retire s _

theorem frame_execVector (x y t0 : Fx) (h : execVector x y t0 s = .next t) : Frame s t [.worker s.active] := by
  simp only [execVector, Host.Outcome.next.injEq] at h; subst h
  exact frame_retire s _

theorem frame_execDmaSrc (v : Word) (h : execDmaSrc v s = .next t) : Frame s t [.dma, .worker s.active] := by
  simp only [execDmaSrc, Host.Outcome.next.injEq] at h; subst h
  exact (frame_setDma s _).then (frame_retire _ _) (by simp) (by simp) (by simp)

theorem frame_execDmaDst (v : Word) (h : execDmaDst v s = .next t) : Frame s t [.dma, .worker s.active] := by
  simp only [execDmaDst, Host.Outcome.next.injEq] at h; subst h
  exact (frame_setDma s _).then (frame_retire _ _) (by simp) (by simp) (by simp)

theorem frame_execDmaLen (v : Word) (h : execDmaLen v s = .next t) : Frame s t [.dma, .worker s.active] := by
  simp only [execDmaLen, Host.Outcome.next.injEq] at h; subst h
  exact (frame_setDma s _).then (frame_retire _ _) (by simp) (by simp) (by simp)

theorem frame_execDmaOpNop (h : execDmaOpNop s = .next t) : Frame s t [.dma, .worker s.active] := by
  simp only [execDmaOpNop, Host.Outcome.next.injEq] at h; subst h
  exact (frame_setDma s _).then (frame_retire _ _) (by simp) (by simp) (by simp)

/-- The first step of a copy writes the operation code and the worker's request. -/
theorem frame_copyStart (h : copyStart s = .next t) : Frame s t [.dma, .worker s.active] := by
  simp only [copyStart] at h
  split at h
  · simp only [Host.Outcome.next.injEq] at h; subst h
    exact (frame_startCopy s).then (frame_retire _ _) (by simp) (by simp) (by simp)
  · split at h
    · simp at h
    · simp only [Host.Outcome.next.injEq] at h; subst h
      exact (frame_startCopy s).then (frame_goto _ _ _) (by simp) (by simp) (by simp)

theorem frame_copyByteStep (h : copyByteStep s = .next t) : Frame s t [.memory, .worker s.active] := by
  simp only [copyByteStep, Host.Outcome.next.injEq] at h; subst h
  exact (frame_storeByte s _ _).then (frame_copied _ _ _) (by simp) (by simp) (by simp)

/-- A copy's read step changes its worker and, if it is a transaction of an instance, that instance, the log and the
count of free values. -/
theorem frame_copyReadStep (h : copyReadStep s = .next t) :
    Frame s t [.worker s.active] ∨ ∃ k, s.plat.deviceAt (s.self.copy.src.toNat + s.self.copy.done) = .acc k ∧
      Frame s t [.inst k, .draws, .log, .worker s.active] := by
  simp only [copyReadStep] at h
  split at h
  · simp at h
  · simp only [Host.Outcome.next.injEq] at h; subst h
    exact .inl (frame_goto s _ _)
  · rename_i w u e
    simp only [Host.Outcome.next.injEq] at h; subst h
    rcases busRead4_some e with ⟨_, _, rfl⟩ | ⟨k, hk, hr⟩
    · exact .inl ((frame_setCopy _ _).then (frame_goto _ _ _) (by simp) (by simp) (by simp))
    · have h1 := (frame_accRead hr).then (frame_setCopy u { s.self.copy with buf := w })
        (m := [.inst k, .draws, .log, .worker s.active]) (by simp) (by simp) (by simp)
      have ha := (frame_accRead hr).active (by simp)
      exact .inr ⟨k, hk, h1.trans ((frame_goto _ _ _).mono (by simp [ha]))⟩

/-- A copy's write step changes its worker and either memory or an instance, the log and the count of free values. -/
theorem frame_copyWriteStep (h : copyWriteStep s = .next t) :
    (s.plat.deviceAt (s.self.copy.dst.toNat + s.self.copy.done) = .memory ∧ Frame s t [.memory, .worker s.active]) ∨
    ∃ k, s.plat.deviceAt (s.self.copy.dst.toNat + s.self.copy.done) = .acc k ∧
      Frame s t [.inst k, .draws, .log, .worker s.active] := by
  simp only [copyWriteStep] at h
  split at h
  · simp at h
  · rename_i u e
    simp only [Host.Outcome.next.injEq] at h; subst h
    rcases busWrite4_ok e with ⟨hm, rfl⟩ | ⟨k, hk, rfl⟩
    · exact .inl ⟨hm, (frame_storeWord s _ _).then (frame_copied _ _ _) (by simp) (by simp) (by simp)⟩
    · exact .inr ⟨k, hk, (frame_accWrite k _ _ s).then (frame_copied _ _ _) (by simp) (by simp) (by simp)⟩

/-- A bulk copy's step, by label. -/
theorem execDmaOpCopy_cases (s : State) :
    (s.self.pc = .copyByte ∧ execDmaOpCopy s = copyByteStep s) ∨
    (s.self.pc = .copyRead ∧ execDmaOpCopy s = copyReadStep s) ∨
    (s.self.pc = .copyWrite ∧ execDmaOpCopy s = copyWriteStep s) ∨
    (s.self.pc ≠ .copyByte ∧ s.self.pc ≠ .copyRead ∧ s.self.pc ≠ .copyWrite ∧ execDmaOpCopy s = copyStart s) := by
  simp only [execDmaOpCopy]
  cases s.self.pc <;> simp

/-- A bulk copy's step changes nothing but one instance, memory, the bulk registers, the log, its worker and the count
of free values. -/
theorem frame_execDmaOpCopy (h : execDmaOpCopy s = .next t) :
    ∃ k, Frame s t [.inst k, .memory, .dma, .log, .draws, .worker s.active] := by
  rcases execDmaOpCopy_cases s with ⟨_, e⟩ | ⟨_, e⟩ | ⟨_, e⟩ | ⟨_, _, _, e⟩ <;> rw [e] at h
  · exact ⟨.acc0, (frame_copyByteStep h).mono (by simp)⟩
  · rcases frame_copyReadStep h with f | ⟨k, _, f⟩
    · exact ⟨.acc0, f.mono (by simp)⟩
    · exact ⟨k, f.mono (by simp)⟩
  · rcases frame_copyWriteStep h with ⟨_, f⟩ | ⟨k, _, f⟩
    · exact ⟨.acc0, f.mono (by simp)⟩
    · exact ⟨k, f.mono (by simp)⟩
  · exact ⟨.acc0, (frame_copyStart h).mono (by simp)⟩

theorem frame_execCas32 (addr expect new : Word) (h : execCas32 addr expect new s = .next t) :
    Frame s t [.memory, .worker s.active] := by
  simp only [execCas32] at h
  split at h
  · simp at h
  · simp only [Host.Outcome.next.injEq] at h; subst h
    exact (frame_cas s addr expect new).then (frame_retire _ _) (by simp) (by simp) (by simp)

theorem frame_semInitStep (a n : Word) (h : semInitStep a n s = .next t) :
    Frame s t [.memory, .semWords, .worker s.active] := by
  simp only [semInitStep] at h
  split at h
  · simp at h
  · simp only [Host.Outcome.next.injEq] at h; subst h
    exact (frame_initSem s a n).then (frame_retire _ _) (by simp) (by simp) (by simp)

/-- A wait's micro-step changes memory and its worker. -/
theorem frame_waitStep {i : Instr} {a : Word} {l1 l2 : Label} {fin : State → State}
    (hf : ∀ u, Frame u (fin u) [.worker u.active]) (h : waitStep i a l1 l2 fin s = .next t) :
    Frame s t [.memory, .worker s.active] := by
  rcases waitStep_cases i a l1 l2 fin s with ⟨_, _, e⟩ | ⟨_, _, e⟩ | ⟨_, _, _, e⟩ | ⟨_, _, _, e⟩ <;>
    rw [e] at h <;> simp only [reduceCtorEq, Host.Outcome.next.injEq] at h <;> subst h
  · exact (frame_setLocals s _).then (frame_goto _ _ _) (by simp) (by simp) (by simp)
  · exact ((frame_storeWord s _ _).then (frame_setLocals _ _) (by simp) (by simp) (by simp) :
      Frame _ _ [.memory, .worker s.active]).then (hf _) (by simp) (by simp) (by simp)
  · exact (frame_setLocals s _).then (frame_goto _ _ _) (by simp) (by simp) (by simp)

/-- A post's micro-step changes memory and its worker. -/
theorem frame_postStep {i : Instr} {a : Word} {l1 l2 : Label} {fin : State → State}
    (hf : ∀ u, Frame u (fin u) [.worker u.active]) (h : postStep i a l1 l2 fin s = .next t) :
    Frame s t [.memory, .worker s.active] := by
  rcases postStep_cases i a l1 l2 fin s with ⟨_, _, e⟩ | ⟨_, _, _, e⟩ | ⟨_, _, _, e⟩ | ⟨_, _, _, e⟩ | ⟨_, _, _, e⟩ <;>
    rw [e] at h <;> simp only [reduceCtorEq, Host.Outcome.next.injEq] at h <;> subst h
  · exact (frame_setLocals s _).then (frame_goto _ _ _) (by simp) (by simp) (by simp)
  · exact ((frame_storeWord s _ _).then (frame_setLocals _ _) (by simp) (by simp) (by simp) :
      Frame _ _ [.memory, .worker s.active]).then (hf _) (by simp) (by simp) (by simp)
  · exact (frame_setLocals s _).then (frame_goto _ _ _) (by simp) (by simp) (by simp)

theorem frame_returnDone (u : State) : Frame u u.returnDone [.worker u.active] := frame_retire u .done

theorem frame_barrierRelease (b : Barrier) (n : Word) (u : State) :
    Frame u (barrierRelease b n u) [.worker u.active] := by
  simp only [barrierRelease]
  split
  · exact frame_returnDone u
  · exact (frame_setLocals u _).then (frame_goto _ _ _) (by simp) (by simp) (by simp)

theorem frame_execBarrierInit (b : Barrier) (capacity : Word) (h : execBarrierInit b capacity s = .next t) :
    Frame s t [.memory, .semWords, .barriers, .worker s.active] := by
  simp only [execBarrierInit] at h
  split at h
  · simp at h
  · split at h
    · simp at h
    · split at h <;> simp only [Host.Outcome.next.injEq] at h <;> subst h
      · exact (frame_initSem s _ _).then (frame_goto _ _ _) (by simp) (by simp) (by simp)
      · exact (((frame_initSem s _ _).mono (by simp)).trans ((frame_setBarriers _ _).mono (by simp)) :
          Frame _ _ [.memory, .semWords, .barriers]).then (frame_returnDone _) (by simp) (by simp) (by simp)
      · exact (frame_storeWord s _ _).then (frame_goto _ _ _) (by simp) (by simp) (by simp)

/-- A micro-step of `BARRIER_ENTER`, by label: a plain step, or one of a wait or a post on the lock or the release
count (R149). -/
theorem execBarrierEnter_next {b : Barrier} (h : execBarrierEnter b s = .next t) :
    ∃ capacity, s.plat.barrierCheck b = none ∧ findCapacity s.barriers b = some capacity ∧
    ((s.self.pc = .b2 ∧ t = barrierCount b capacity s) ∨
     (s.self.pc = .b3 ∧ t = (s.storeWord b.counter.toNat 0).goto (.barrierEnter b) .b4p1) ∨
     ((s.self.pc = .b4p1 ∨ s.self.pc = .b4p2) ∧
       postStep (.barrierEnter b) b.gateLock .b4p1 .b4p2 (barrierRelease b (capacity - 1)) s = .next t) ∨
     (s.self.pc = .b5p1 ∧ s.self.locals.n = 0 ∧ t = s.returnDone) ∨
     ((s.self.pc = .b5p1 ∧ s.self.locals.n ≠ 0 ∨ s.self.pc = .b5p2) ∧
       postStep (.barrierEnter b) b.releaseSem .b5p1 .b5p2 (barrierRelease b (s.self.locals.n - 1)) s = .next t) ∨
     (s.self.pc = .b6 ∧
       t = (s.storeWord b.counter.toNat (s.self.locals.c + 1)).goto (.barrierEnter b) .b7p1) ∨
     ((s.self.pc = .b7p1 ∨ s.self.pc = .b7p2) ∧
       postStep (.barrierEnter b) b.gateLock .b7p1 .b7p2 (fun u => u.goto (.barrierEnter b) .b8w1) s = .next t) ∨
     ((s.self.pc = .b8w1 ∨ s.self.pc = .b8w2) ∧
       waitStep (.barrierEnter b) b.releaseSem .b8w1 .b8w2 State.returnDone s = .next t) ∨
     ((s.self.pc ≠ .b2 ∧ s.self.pc ≠ .b3 ∧ s.self.pc ≠ .b4p2 ∧ s.self.pc ≠ .b5p2 ∧ s.self.pc ≠ .b6 ∧
         s.self.pc ≠ .b7p2 ∧ s.self.pc ≠ .b8w2) ∧
       waitStep (.barrierEnter b) b.gateLock .b1w1 .b1w2 (fun u => u.goto (.barrierEnter b) .b2) s = .next t)) := by
  simp only [execBarrierEnter] at h
  cases hc : s.plat.barrierCheck b with
  | some r => simp [hc] at h
  | none =>
    cases hf : findCapacity s.barriers b with
    | none => simp [hc, hf] at h
    | some capacity =>
      refine ⟨capacity, rfl, rfl, ?_⟩
      simp only [hc, hf] at h
      cases hp : s.self.pc <;> simp only [hp] at h <;>
        simp_all
      by_cases hn : s.self.locals.n = 0 <;> simp_all [eq_comm (a := t)]

theorem frame_execBarrierEnter (b : Barrier) (h : execBarrierEnter b s = .next t) :
    Frame s t [.memory, .worker s.active] := by
  obtain ⟨capacity, _, _, h⟩ := execBarrierEnter_next h
  rcases h with ⟨_, rfl⟩ | ⟨_, rfl⟩ | ⟨_, h⟩ | ⟨_, _, rfl⟩ | ⟨_, h⟩ | ⟨_, rfl⟩ | ⟨_, h⟩ | ⟨_, h⟩ | ⟨_, h⟩
  · exact (frame_setLocals s _).then (frame_goto _ _ _) (by simp) (by simp) (by simp)
  · exact (frame_storeWord s _ _).then (frame_goto _ _ _) (by simp) (by simp) (by simp)
  · exact frame_postStep (frame_barrierRelease b _) h
  · exact (frame_returnDone s).mono (by simp)
  · exact frame_postStep (frame_barrierRelease b _) h
  · exact (frame_storeWord s _ _).then (frame_goto _ _ _) (by simp) (by simp) (by simp)
  · exact frame_postStep (fun u => frame_goto u _ _) h
  · exact frame_waitStep frame_returnDone h
  · exact frame_waitStep (fun u => frame_goto u _ _) h

/-- Whatever operation is performed, the other worker, the platform's numbers and the schedule are as before. -/
theorem exec_frame (i : Instr) (h : exec i s = .next t) :
    ∃ k, Frame s t [.inst k, .memory, .semWords, .barriers, .dma, .log, .draws, .worker s.active] := by
  cases i with
  | wrA k w => exact ⟨k, (frame_execWrA k w h).mono (by simp)⟩
  | wrB k w => exact ⟨k, (frame_execWrB k w h).mono (by simp)⟩
  | wrZ k w => exact ⟨k, (frame_execWrZ k w h).mono (by simp)⟩
  | rdA k => exact ⟨k, (frame_execRdA k h).mono (by simp)⟩
  | rdB k => exact ⟨k, (frame_execRdB k h).mono (by simp)⟩
  | rdZ k => exact ⟨k, (frame_execRdZ k h).mono (by simp)⟩
  | badWr k off w => exact ⟨k, (frame_execBadWr k off h).mono (by simp)⟩
  | badRd k off => exact ⟨k, (frame_execBadRd k off h).mono (by simp)⟩
  | engineStep k => exact ⟨k, (frame_execEngineStep k h).mono (by simp)⟩
  | rotate x y t0 => exact ⟨.acc0, (frame_execRotate x y t0 h).mono (by simp)⟩
  | vector x y t0 => exact ⟨.acc0, (frame_execVector x y t0 h).mono (by simp)⟩
  | dmaSrc v => exact ⟨.acc0, (frame_execDmaSrc v h).mono (by simp)⟩
  | dmaDst v => exact ⟨.acc0, (frame_execDmaDst v h).mono (by simp)⟩
  | dmaLen v => exact ⟨.acc0, (frame_execDmaLen v h).mono (by simp)⟩
  | dmaOpNop => exact ⟨.acc0, (frame_execDmaOpNop h).mono (by simp)⟩
  | dmaOpCopy => obtain ⟨k, f⟩ := frame_execDmaOpCopy h; exact ⟨k, f.mono (by simp)⟩
  | dmaReserved cmd off data => simp [exec, execDmaReserved] at h
  | cas32 addr expect new => exact ⟨.acc0, (frame_execCas32 addr expect new h).mono (by simp)⟩
  | semInit a n => exact ⟨.acc0, (frame_semInitStep a n h).mono (by simp)⟩
  | semWait a => exact ⟨.acc0, (frame_waitStep frame_returnDone h).mono (by simp)⟩
  | semPost a => exact ⟨.acc0, (frame_postStep frame_returnDone h).mono (by simp)⟩
  | mutexInit m => exact ⟨.acc0, (frame_semInitStep m 1 h).mono (by simp)⟩
  | mutexLock m => exact ⟨.acc0, (frame_waitStep frame_returnDone h).mono (by simp)⟩
  | mutexUnlock m => exact ⟨.acc0, (frame_postStep frame_returnDone h).mono (by simp)⟩
  | barrierInit b capacity => exact ⟨.acc0, (frame_execBarrierInit b capacity h).mono (by simp)⟩
  | barrierEnter b => exact ⟨.acc0, (frame_execBarrierEnter b h).mono (by simp)⟩

end Sys2Proof.Machine
end

