-- ==== Sys2Proof/Laws/Numerics.lean ====
section
/-! SUPPORT. What the fixed-point operations and a micro-rotation do to the integers they stand for. -/

namespace Sys2Proof.Machine

/-- A wrapped operand of a sum may be taken unwrapped: wrapping is a ring homomorphism (R84). -/
theorem fxAdd_wrap16 (a : Fx) (b : Int) : fxAdd a (wrap16 b) = wrap16 (a.toInt + b) := by
  simp only [fxAdd, wrap16, BitVec.ofInt_add, BitVec.ofInt_toInt]

theorem fxSub_wrap16 (a : Fx) (b : Int) : fxSub a (wrap16 b) = wrap16 (a.toInt - b) := by
  simp only [fxSub, wrap16, sub_eq_add_neg, BitVec.ofInt_add, BitVec.ofInt_neg, BitVec.ofInt_toInt]

/-- R102: counter-clockwise is d = 1, x loses the shifted y, y gains the shifted x, the angle loses the constant. -/
theorem microrot_ccw {c : EngineConfig} {v : Triple} {i : Fin 7} {mode : Bool} (h : counterClockwise v mode = true) :
    microrot c v i mode = ⟨wrap16 (v.x.toInt - quantize c.quant v.y.toInt (2 ^ i.val)),
      wrap16 (v.y.toInt + quantize c.quant v.x.toInt (2 ^ i.val)), wrap16 (v.t.toInt - (c.atan.get i).toInt)⟩ := by
  simp only [microrot, h, fxAsr, fxAdd_wrap16, fxSub_wrap16, if_true]
  rfl

/-- R102: clockwise is d = -1. -/
theorem microrot_cw {c : EngineConfig} {v : Triple} {i : Fin 7} {mode : Bool} (h : counterClockwise v mode = false) :
    microrot c v i mode = ⟨wrap16 (v.x.toInt + quantize c.quant v.y.toInt (2 ^ i.val)),
      wrap16 (v.y.toInt - quantize c.quant v.x.toInt (2 ^ i.val)), wrap16 (v.t.toInt + (c.atan.get i).toInt)⟩ := by
  simp only [microrot, h, fxAsr, fxAdd_wrap16, fxSub_wrap16, Bool.false_eq_true, if_false]
  rfl

end Sys2Proof.Machine
end

