-- ==== Sys2Proof/Laws/PerInstr.lean ====
section
/-! SUPPORT. A statement about every operation as syntax, one lemma per constructor: its encoding has the length and,
for a primitive, the selector that its format gives it (30_encoding.md R60, R61, R66, R67). -/

namespace Sys2Proof.Laws

/-- The encoding of an operation is a descriptor of its format: nine bytes for BUS, seven for ENG, a selector below
9 and its arguments for PRIM, nothing for the internal event. -/
def EncodingShape.Statement (i : Instr) : Prop :=
  match encode i with
  | (.acc _, bytes) => bytes.length = 9
  | (.dma, bytes) => bytes.length = 9
  | (.eng, bytes) => bytes.length = 7
  | (.prim, bytes) => ∃ sel rest, bytes = sel :: rest ∧ sel.toNat < 9 ∧ rest.length = 4 * primArgs sel.toNat
  | (.internal _, bytes) => bytes.length = 0

theorem EncodingShape.wrA (k : InstId) (w : Word) : EncodingShape.Statement (.wrA k w) := rfl
theorem EncodingShape.wrB (k : InstId) (w : Word) : EncodingShape.Statement (.wrB k w) := rfl
theorem EncodingShape.wrZ (k : InstId) (w : Word) : EncodingShape.Statement (.wrZ k w) := rfl
theorem EncodingShape.rdA (k : InstId) : EncodingShape.Statement (.rdA k) := rfl
theorem EncodingShape.rdB (k : InstId) : EncodingShape.Statement (.rdB k) := rfl
theorem EncodingShape.rdZ (k : InstId) : EncodingShape.Statement (.rdZ k) := rfl
theorem EncodingShape.badWr (k : InstId) (off w : Word) : EncodingShape.Statement (.badWr k off w) := rfl
theorem EncodingShape.badRd (k : InstId) (off : Word) : EncodingShape.Statement (.badRd k off) := rfl
theorem EncodingShape.engineStep (k : InstId) : EncodingShape.Statement (.engineStep k) := rfl
theorem EncodingShape.rotate (x0 y0 t0 : Fx) : EncodingShape.Statement (.rotate x0 y0 t0) := rfl
theorem EncodingShape.vector (x0 y0 t0 : Fx) : EncodingShape.Statement (.vector x0 y0 t0) := rfl
theorem EncodingShape.dmaSrc (v : Word) : EncodingShape.Statement (.dmaSrc v) := rfl
theorem EncodingShape.dmaDst (v : Word) : EncodingShape.Statement (.dmaDst v) := rfl
theorem EncodingShape.dmaLen (v : Word) : EncodingShape.Statement (.dmaLen v) := rfl
theorem EncodingShape.dmaOpNop : EncodingShape.Statement .dmaOpNop := rfl
theorem EncodingShape.dmaOpCopy : EncodingShape.Statement .dmaOpCopy := rfl
theorem EncodingShape.dmaReserved (cmd : Dir) (off data : Word) : EncodingShape.Statement (.dmaReserved cmd off data) := rfl
theorem EncodingShape.cas32 (addr expect new : Word) : EncodingShape.Statement (.cas32 addr expect new) :=
  ⟨8, _, rfl, by decide, rfl⟩
theorem EncodingShape.semInit (s n : Word) : EncodingShape.Statement (.semInit s n) := ⟨0, _, rfl, by decide, rfl⟩
theorem EncodingShape.semWait (s : Word) : EncodingShape.Statement (.semWait s) := ⟨1, _, rfl, by decide, rfl⟩
theorem EncodingShape.semPost (s : Word) : EncodingShape.Statement (.semPost s) := ⟨2, _, rfl, by decide, rfl⟩
theorem EncodingShape.mutexInit (m : Word) : EncodingShape.Statement (.mutexInit m) := ⟨3, _, rfl, by decide, rfl⟩
theorem EncodingShape.mutexLock (m : Word) : EncodingShape.Statement (.mutexLock m) := ⟨4, _, rfl, by decide, rfl⟩
theorem EncodingShape.mutexUnlock (m : Word) : EncodingShape.Statement (.mutexUnlock m) := ⟨5, _, rfl, by decide, rfl⟩
theorem EncodingShape.barrierInit (b : Barrier) (capacity : Word) : EncodingShape.Statement (.barrierInit b capacity) :=
  ⟨6, _, rfl, by decide, rfl⟩
theorem EncodingShape.barrierEnter (b : Barrier) : EncodingShape.Statement (.barrierEnter b) :=
  ⟨7, _, rfl, by decide, rfl⟩

end Sys2Proof.Laws
end

