-- ==== Sys2Proof/Laws/Runs.lean ====
section
/-! SUPPORT. What one turn of the machine can do, said once, and what a weakly fair schedule gives. -/

namespace Sys2Proof.Machine

variable {s t : State}

/-! ### What an operation leaves outstanding -/

/-- What an operation leaves outstanding for the worker that performs it: nothing, or itself (R22, R23, R25). -/
def LeavesItself (i : Instr) (t : State) : Prop := t.self.cur = none ∨ t.self.cur = some i

theorem leavesItself_retire (i : Instr) (s : State) (r : Ret) : LeavesItself i (s.retire r) := .inl (by simp)

theorem leavesItself_goto (i : Instr) (s : State) (l : Label) : LeavesItself i (s.goto i l) := .inr (by simp [State.goto])

theorem leavesItself_waitStep {i : Instr} {a : Word} {l1 l2 : Label} {fin : State → State}
    (hf : ∀ u, LeavesItself i (fin u)) (h : waitStep i a l1 l2 fin s = .next t) : LeavesItself i t := by
  simp only [waitStep] at h
  split at h
  · simp at h
  · split at h <;> simp only [Host.Outcome.next.injEq] at h <;> subst h
    · simp only [waitTry]
      split
      · exact hf _
      · exact leavesItself_goto _ _ _
    · exact leavesItself_goto _ _ _

theorem leavesItself_postStep {i : Instr} {a : Word} {l1 l2 : Label} {fin : State → State}
    (hf : ∀ u, LeavesItself i (fin u)) (h : postStep i a l1 l2 fin s = .next t) : LeavesItself i t := by
  simp only [postStep] at h
  split at h
  · simp at h
  · split at h
    · simp only [Host.Outcome.next.injEq] at h
      subst h
      simp only [postTry]
      split
      · exact hf _
      · exact leavesItself_goto _ _ _
    · simp only [postRead] at h
      split at h <;> simp only [Host.Outcome.next.injEq, reduceCtorEq] at h
      subst h
      exact leavesItself_goto _ _ _

theorem leavesItself_finishRead {i : Instr} {r : Option (Word × State)} (h : finishRead i s r = .next t) :
    LeavesItself i t := by
  simp only [finishRead] at h
  split at h <;> simp only [Host.Outcome.next.injEq] at h <;> subst h
  · exact leavesItself_retire _ _ _
  · exact leavesItself_goto _ _ _

theorem leavesItself_semInitStep {i : Instr} {a n : Word} (h : semInitStep a n s = .next t) : LeavesItself i t := by
  simp only [semInitStep] at h
  split at h <;> simp only [Host.Outcome.next.injEq, reduceCtorEq] at h
  subst h
  exact leavesItself_retire _ _ _

theorem leavesItself_copied (s : State) (n : Nat) (l : Label) : LeavesItself .dmaOpCopy (s.copied n l) := by
  simp only [State.copied]
  split
  · exact leavesItself_retire _ _ _
  · exact leavesItself_goto _ _ _

theorem leavesItself_execDmaOpCopy (h : execDmaOpCopy s = .next t) : LeavesItself .dmaOpCopy t := by
  rcases execDmaOpCopy_cases s with ⟨_, e⟩ | ⟨_, e⟩ | ⟨_, e⟩ | ⟨_, _, _, e⟩ <;> rw [e] at h
  · simp only [copyByteStep, Host.Outcome.next.injEq] at h
    subst h
    exact leavesItself_copied _ _ _
  · simp only [copyReadStep] at h
    split at h <;> simp only [Host.Outcome.next.injEq, reduceCtorEq] at h <;> subst h <;>
      exact leavesItself_goto _ _ _
  · simp only [copyWriteStep] at h
    split at h <;> simp only [Host.Outcome.next.injEq, reduceCtorEq] at h
    subst h
    exact leavesItself_copied _ _ _
  · simp only [copyStart] at h
    split at h
    · simp only [Host.Outcome.next.injEq] at h
      subst h
      exact leavesItself_retire _ _ _
    · split at h <;> simp only [Host.Outcome.next.injEq, reduceCtorEq] at h
      subst h
      exact leavesItself_goto _ _ _

theorem leavesItself_barrierRelease (b : Barrier) (n : Word) (u : State) :
    LeavesItself (.barrierEnter b) (barrierRelease b n u) := by
  simp only [barrierRelease]
  split
  · exact leavesItself_retire _ _ _
  · exact leavesItself_goto _ _ _

theorem leavesItself_execBarrierInit {b : Barrier} {capacity : Word} (h : execBarrierInit b capacity s = .next t) :
    LeavesItself (.barrierInit b capacity) t := by
  simp only [execBarrierInit] at h
  split at h
  · simp at h
  · split at h
    · simp at h
    · split at h <;> simp only [Host.Outcome.next.injEq] at h <;> subst h
      · exact leavesItself_goto _ _ _
      · exact leavesItself_retire _ _ _
      · exact leavesItself_goto _ _ _

theorem leavesItself_execBarrierEnter {b : Barrier} (h : execBarrierEnter b s = .next t) :
    LeavesItself (.barrierEnter b) t := by
  simp only [execBarrierEnter] at h
  split at h
  · simp at h
  · split at h
    · simp at h
    · split at h
      · simp only [Host.Outcome.next.injEq] at h
        subst h
        exact leavesItself_goto _ _ _
      · simp only [Host.Outcome.next.injEq] at h
        subst h
        exact leavesItself_goto _ _ _
      · exact leavesItself_postStep (leavesItself_barrierRelease b _) h
      · exact leavesItself_postStep (leavesItself_barrierRelease b _) h
      · split at h
        · simp only [Host.Outcome.next.injEq] at h
          subst h
          exact leavesItself_retire _ _ _
        · exact leavesItself_postStep (leavesItself_barrierRelease b _) h
      · exact leavesItself_postStep (leavesItself_barrierRelease b _) h
      · simp only [Host.Outcome.next.injEq] at h
        subst h
        exact leavesItself_goto _ _ _
      · exact leavesItself_postStep (fun u => leavesItself_goto _ u _) h
      · exact leavesItself_postStep (fun u => leavesItself_goto _ u _) h
      · exact leavesItself_waitStep (fun u => leavesItself_retire _ u _) h
      · exact leavesItself_waitStep (fun u => leavesItself_retire _ u _) h
      · exact leavesItself_waitStep (fun u => leavesItself_goto _ u _) h

/-- An operation of a worker leaves nothing outstanding, or itself. -/
theorem exec_leavesItself (i : Instr) (hi : ∀ k, i ≠ .engineStep k) (h : exec i s = .next t) : LeavesItself i t := by
  cases i with
  | engineStep k => exact absurd rfl (hi k)
  | rdA k => exact leavesItself_finishRead h
  | rdB k => exact leavesItself_finishRead h
  | rdZ k => exact leavesItself_finishRead h
  | semInit a n => exact leavesItself_semInitStep h
  | mutexInit a => exact leavesItself_semInitStep h
  | semWait a => exact leavesItself_waitStep (fun u => leavesItself_retire _ u _) h
  | mutexLock a => exact leavesItself_waitStep (fun u => leavesItself_retire _ u _) h
  | semPost a => exact leavesItself_postStep (fun u => leavesItself_retire _ u _) h
  | mutexUnlock a => exact leavesItself_postStep (fun u => leavesItself_retire _ u _) h
  | dmaOpCopy => exact leavesItself_execDmaOpCopy h
  | barrierInit b capacity => exact leavesItself_execBarrierInit h
  | barrierEnter b => exact leavesItself_execBarrierEnter h
  | dmaReserved cmd off data => simp [exec, execDmaReserved] at h
  | cas32 addr expect new =>
    simp only [exec, execCas32] at h
    split at h <;> simp only [Host.Outcome.next.injEq, reduceCtorEq] at h
    subst h
    exact leavesItself_retire _ _ _
  | wrA k w => cases h; exact leavesItself_retire _ _ _
  | wrB k w => cases h; exact leavesItself_retire _ _ _
  | wrZ k w => cases h; exact leavesItself_retire _ _ _
  | badWr k off w => cases h; exact leavesItself_retire _ _ _
  | badRd k off => cases h; exact leavesItself_retire _ _ _
  | rotate x y t0 => cases h; exact leavesItself_retire _ _ _
  | vector x y t0 => cases h; exact leavesItself_retire _ _ _
  | dmaSrc v => cases h; exact leavesItself_retire _ _ _
  | dmaDst v => cases h; exact leavesItself_retire _ _ _
  | dmaLen v => cases h; exact leavesItself_retire _ _ _
  | dmaOpNop => cases h; exact leavesItself_retire _ _ _

/-! ### One turn -/

/-- A turn is that of the agent the schedule names (R27). -/
theorem step_eq_stepOf (s : State) : step s = stepOf s.nextAgent { s with sched := s.sched.tail } := rfl

theorem stepOf_engine (k : InstId) (s : State) :
    stepOf (.engine k) s = exec (.engineStep k) { s with turns := s.turns + 1 } := rfl

/-- The turn of a worker that has nothing outstanding and nothing to issue. -/
theorem stepOf_idle {w : WorkerId} (hc : (s.worker w).cur = none) (hs : (s.worker w).script = []) :
    stepOf (.worker w) s = .next { s with turns := s.turns + 1, active := w } := by
  cases w <;> simp_all [stepOf, step, plan, planWorker, State.nextAgent, State.tick, State.setActive, State.self,
    State.worker]

/-- What a request comes to: an operation that is no engine step, a memory access, or a stop. -/
theorem issue_cases (r : Request) (s : State) :
    (∃ i, issue r s = .run i s ∧ ∀ k, i ≠ .engineStep k) ∨
    (∃ dir a len data, issue r s = .settle (memoryAccess dir a len data s)) ∨
    (∃ o, issue r s = .settle o ∧ completes o = false) := by
  cases r with
  | bus dir addr len data =>
    simp only [issue, issueBus]
    split
    · split
      · refine .inl ⟨_, rfl, fun k => ?_⟩
        cases dir <;> simp only [decodeAcc, accOp] <;> split_ifs <;> simp
      · exact .inr (.inr ⟨_, rfl, rfl⟩)
    · split
      · refine .inl ⟨_, rfl, fun k => ?_⟩
        cases dir <;> simp only [decodeDma] <;> (try split_ifs) <;> simp
      · exact .inr (.inr ⟨_, rfl, rfl⟩)
    · exact .inr (.inl ⟨_, _, _, _, rfl⟩)
    · exact .inr (.inr ⟨_, rfl, rfl⟩)
  | descriptor d bytes =>
    simp only [issue]
    split
    · exact .inr (.inr ⟨_, rfl, rfl⟩)
    · exact .inr (.inr ⟨_, rfl, rfl⟩)
    · rename_i i h _
      exact .inl ⟨i, rfl, fun k e => h k e⟩

/-- What a turn of the active worker comes to. -/
theorem planWorker_cases (s : State) :
    planWorker s = .settle (.next s) ∨
    (∃ i, s.self.cur = some i ∧ s.busStopped s.active = false ∧ planWorker s = .run i s) ∨
    (∃ r rest, s.self.cur = none ∧ s.self.script = r :: rest ∧
      planWorker s = issue r (s.setSelf { s.self with script := rest })) := by
  simp only [planWorker]
  split
  · rename_i i hc
    by_cases hb : s.busStopped s.active = true
    · simp [hb]
    · exact .inr (.inl ⟨i, hc, by simpa using hb, by simp [hb]⟩)
  · rename_i hc
    split
    · simp
    · rename_i r rest hs
      split
      · simp
      · exact .inr (.inr ⟨r, rest, hc, hs, rfl⟩)

/-- Everything a turn that answers a next state can do: an engine's step; a worker's turn that changes nothing; its
outstanding operation; the operation its next request asks for, no engine step; its own load or store. -/
theorem step_next (h : step s = .next t) :
    (∃ k, s.nextAgent = .engine k ∧ exec (.engineStep k) s.tick = .next t) ∨
    ∃ w, s.nextAgent = .worker w ∧
      (t = s.tick.setActive w ∨
      (∃ i, (s.worker w).cur = some i ∧ exec i (s.tick.setActive w) = .next t) ∨
      (∃ r rest, (s.worker w).cur = none ∧ (s.worker w).script = r :: rest ∧
        ((∃ i, (∀ k, i ≠ .engineStep k) ∧
          exec i ((s.tick.setActive w).setWorker w { s.worker w with script := rest }) = .next t) ∨
        ∃ dir a len data, memoryAccess dir a len data
          ((s.tick.setActive w).setWorker w { s.worker w with script := rest }) = .next t))) := by
  simp only [step, plan] at h
  split at h
  · rename_i i u hp
    split at hp
    · rename_i k hk
      simp only [Plan.run.injEq] at hp
      obtain ⟨rfl, rfl⟩ := hp
      exact .inl ⟨k, hk, h⟩
    · rename_i w hw
      refine .inr ⟨w, hw, ?_⟩
      have hself : (s.tick.setActive w).self = s.worker w := by cases w <;> rfl
      rcases planWorker_cases (s.tick.setActive w) with e | ⟨j, hc, _, e⟩ | ⟨r, rest, hc, hs, e⟩ <;> rw [e] at hp
      · simp at hp
      · simp only [Plan.run.injEq] at hp
        obtain ⟨rfl, rfl⟩ := hp
        exact .inr (.inl ⟨j, by rw [← hself]; exact hc, h⟩)
      · rw [hself] at hc hs hp
        refine .inr (.inr ⟨r, rest, hc, hs, .inl ?_⟩)
        rcases issue_cases r ((s.tick.setActive w).setSelf { s.worker w with script := rest }) with
          ⟨j, e', hj⟩ | ⟨_, _, _, _, e'⟩ | ⟨_, e', _⟩ <;> rw [e'] at hp
        · simp only [Plan.run.injEq] at hp
          obtain ⟨rfl, rfl⟩ := hp
          exact ⟨j, hj, h⟩
        · simp at hp
        · simp at hp
  · rename_i o hp
    subst h
    split at hp
    · simp at hp
    · rename_i w hw
      refine .inr ⟨w, hw, ?_⟩
      have hself : (s.tick.setActive w).self = s.worker w := by cases w <;> rfl
      rcases planWorker_cases (s.tick.setActive w) with e | ⟨j, hc, _, e⟩ | ⟨r, rest, hc, hs, e⟩ <;> rw [e] at hp
      · simp only [Plan.settle.injEq, Host.Outcome.next.injEq] at hp
        exact .inl hp.symm
      · simp at hp
      · rw [hself] at hc hs hp
        refine .inr (.inr ⟨r, rest, hc, hs, .inr ?_⟩)
        rcases issue_cases r ((s.tick.setActive w).setSelf { s.worker w with script := rest }) with
          ⟨j, e', hj⟩ | ⟨dir, a, len, data, e'⟩ | ⟨o, e', ho⟩ <;> rw [e'] at hp
        · simp at hp
        · simp only [Plan.settle.injEq] at hp
          exact ⟨dir, a, len, data, hp⟩
        · simp only [Plan.settle.injEq] at hp
          subst hp
          simp [completes] at ho

/-- A worker's own load or store changes memory and that worker. -/
theorem frame_memoryAccess {dir : Dir} {a len : Nat} {data : Word} (h : memoryAccess dir a len data s = .next t) :
    Frame s t [.memory, .worker s.active] := by
  simp only [memoryAccess] at h
  split at h
  · simp at h
  · split at h
    · split at h <;> simp only [Host.Outcome.next.injEq] at h <;> subst h
      · exact (frame_retire s _).mono (by simp)
      · exact (frame_storeBytes s a data len).then (frame_retire _ _) (by simp) (by simp) (by simp)
    · simp at h

/-! ### Weakly fair schedules (R153, decision D35) -/

/-- What holds until agent `a` has the turn, and makes `a` enabled, gives `a` the turn while it holds. -/
theorem WeaklyFair.takes {g : Nat → Agent} {σ : Nat → State} (hf : WeaklyFair g σ) {a : Agent} {n : Nat}
    {P : State → Prop} (hn : P (σ n)) (he : ∀ m, n ≤ m → P (σ m) → (σ m).agentEnabled a = true)
    (hs : ∀ m, n ≤ m → P (σ m) → g m ≠ a → P (σ (m + 1))) : ∃ m, n ≤ m ∧ g m = a ∧ P (σ m) := by
  by_contra hno
  push Not at hno
  have hP : ∀ d, P (σ (n + d)) := by
    intro d
    induction d with
    | zero => exact hn
    | succ d ih => exact hs (n + d) (by omega) ih fun e => hno (n + d) (by omega) e ih
  have hP' : ∀ m, n ≤ m → P (σ m) := fun m hm => by have := hP (m - n); rwa [Nat.add_sub_cancel' hm] at this
  obtain ⟨m, hm, e⟩ := hf a n fun m hm => he m hm (hP' m hm)
  exact hno m hm e (hP' m hm)

end Sys2Proof.Machine
end

