-- ==== Sys2Proof/Laws/Starvation.lean ====
section
/-! SUPPORT. R153 (b): weak fairness gives no progress to a single waiter. A run that starves one, written out. -/

namespace Sys2Proof.Machine

/-! ### Six turns that repeat: worker 0 waits for a free semaphore, worker 1 takes it and gives it back -/

/-- The pair worker 1 issues for ever: take the semaphore at 0x100, give it back. -/
def starvePair : List Request := [requestOf (.semWait 0x100), requestOf (.semPost 0x100)]

/-- Worker 0 reads 1 at W1; worker 1 reads 1 at W1 and takes it at W2; worker 0 fails at W2; worker 1 posts. -/
def starveSchedule (n : Nat) : Agent :=
  match n % 6 with
  | 0 => .worker .w0
  | 3 => .worker .w0
  | _ => .worker .w1

/-- Worker 1's software goes on after each pair. -/
def starveSoftware (n : Nat) (w : WorkerId) : List Request :=
  match n % 6, w with
  | 5, .w1 => starvePair
  | _, _ => []

/-- What worker 1 has been given back after `q` pairs. -/
def starveReturned : Nat → List Ret
  | 0 => []
  | q + 1 => starveReturned q ++ [.done] ++ [.done]

/-- Worker 0, in its one wait: at a label, with its snapshot 1 and the result of its last attempt. -/
def starved (l : Label) : Worker := ⟨[], some (.semWait 0x100), l, ⟨1, false, 0, 0⟩, .none, []⟩

/-- The semaphore's count, the two workers, whose turn was last, and how many were taken. -/
def starveState (mem : List Host.Cell) (v0 v1 : Worker) (active : WorkerId) (turns : Nat) : State :=
  { State.launch .reset mem [0x100] with worker0 := v0, worker1 := v1, active := active, turns := turns }

/-- The state before turn `n`, the `r`-th of its six, where worker 1 has been given back `R` before them. -/
def starvePhase (r : Nat) (R : List Ret) (n : Nat) : State :=
  match r with
  | 0 => starveState [(0x100, 1)] (starved .w1) ⟨starvePair, none, .start, .none, .none, R⟩ .w1 n
  | 1 => starveState [(0x100, 1)] (starved .w2) ⟨starvePair, none, .start, .none, .none, R⟩ .w0 n
  | 2 => starveState [(0x100, 1)] (starved .w2)
      ⟨[requestOf (.semPost 0x100)], some (.semWait 0x100), .w2, ⟨1, false, 0, 0⟩, .none, R⟩ .w1 n
  | 3 => starveState [] (starved .w2) ⟨[requestOf (.semPost 0x100)], none, .start, .none, .none, R ++ [.done]⟩ .w1 n
  | 4 => starveState [] (starved .w1) ⟨[requestOf (.semPost 0x100)], none, .start, .none, .none, R ++ [.done]⟩ .w0 n
  | _ => starveState [] (starved .w1)
      ⟨[], some (.semPost 0x100), .p2, ⟨0, false, 0, 0⟩, .none, R ++ [.done]⟩ .w1 n

/-- The run. -/
def starveRun (n : Nat) : State := starvePhase (n % 6) (starveReturned (n / 6)) n

/-! ### The six turns -/

section
variable (v0 v1 : Worker) (w : WorkerId) (n : Nat)

theorem starve_semCheck (m : List Host.Cell) : (starveState m v0 v1 w n).semCheck 0x100 = none := by
  show (State.launch .reset [] [0x100]).semCheck 0x100 = none
  decide

theorem starve_one : (starveState [(0x100, 1)] v0 v1 w n).loadWord (0x100 : Word).toNat = 1 := by
  show (State.launch .reset [(0x100, 1)] []).loadWord 0x100 = 1
  decide

theorem starve_zero : (starveState [] v0 v1 w n).loadWord (0x100 : Word).toNat = 0 := by
  show (State.launch .reset [] []).loadWord 0x100 = 0
  decide

theorem starve_take :
    (starveState [(0x100, 1)] v0 v1 w n).storeWord (0x100 : Word).toNat 0 = starveState [] v0 v1 w n := by
  have h : ((State.launch .reset [(0x100, 1)] []).storeWord 0x100 0).mem = [] := by decide
  show { starveState [] v0 v1 w n with mem := ((State.launch .reset [(0x100, 1)] []).storeWord 0x100 0).mem } = _
  rw [h]
  rfl

theorem starve_give :
    (starveState [] v0 v1 w n).storeWord (0x100 : Word).toNat 1 = starveState [(0x100, 1)] v0 v1 w n := by
  have h : ((State.launch .reset [] []).storeWord 0x100 1).mem = [(0x100, 1)] := by decide
  show { starveState [] v0 v1 w n with mem := ((State.launch .reset [] []).storeWord 0x100 1).mem } = _
  rw [h]
  rfl

/-- A decrement that succeeds, and one that fails. -/
theorem starve_cas_hit :
    (starveState [(0x100, 1)] v0 v1 w n).cas 0x100 1 (1 - 1) = (true, starveState [] v0 v1 w n) := by
  rw [State.cas_hit _ (starve_one v0 v1 w n), ← starve_take]
  rfl

theorem starve_cas_miss (x : Word) : (starveState [] v0 v1 w n).cas 0x100 1 x = (false, starveState [] v0 v1 w n) :=
  State.cas_miss _ (by rw [starve_zero]; decide)

/-- An increment that succeeds. -/
theorem starve_cas_give :
    (starveState [] v0 v1 w n).cas 0x100 0 (0 + 1) = (true, starveState [(0x100, 1)] v0 v1 w n) := by
  rw [State.cas_hit _ (starve_zero v0 v1 w n), ← starve_give]
  rfl

end

theorem starve_turn0 (R : List Ret) (n : Nat) :
    stepOf (.worker .w0) (starvePhase 0 R n) = .next (starvePhase 1 R (n + 1)) := by
  show waitStep (.semWait 0x100) 0x100 .w1 .w2 State.returnDone (starveState [(0x100, 1)] (starved .w1)
    ⟨starvePair, none, .start, .none, .none, R⟩ .w0 (n + 1)) = _
  simp only [waitStep, starve_semCheck, waitRead, starve_one]
  rfl

theorem starve_turn1 (R : List Ret) (n : Nat) :
    stepOf (.worker .w1) (starvePhase 1 R n) = .next (starvePhase 2 R (n + 1)) := by
  show waitStep (.semWait 0x100) 0x100 .w1 .w2 State.returnDone (starveState [(0x100, 1)] (starved .w2)
    ⟨[requestOf (.semPost 0x100)], none, .start, .none, .none, R⟩ .w1 (n + 1)) = _
  simp only [waitStep, starve_semCheck, waitRead, starve_one]
  rfl

theorem starve_turn2 (R : List Ret) (n : Nat) :
    stepOf (.worker .w1) (starvePhase 2 R n) = .next (starvePhase 3 R (n + 1)) := by
  show waitStep (.semWait 0x100) 0x100 .w1 .w2 State.returnDone (starveState [(0x100, 1)] (starved .w2)
    ⟨[requestOf (.semPost 0x100)], some (.semWait 0x100), .w2, ⟨1, false, 0, 0⟩, .none, R⟩ .w1 (n + 1)) = _
  have h : ∀ v0 v1, (starveState [(0x100, 1)] v0 v1 .w1 (n + 1)).self = v1 := fun _ _ => rfl
  simp only [waitStep, starve_semCheck, waitTry, h, starve_cas_hit]
  rfl

theorem starve_turn3 (R : List Ret) (n : Nat) :
    stepOf (.worker .w0) (starvePhase 3 R n) = .next (starvePhase 4 R (n + 1)) := by
  show waitStep (.semWait 0x100) 0x100 .w1 .w2 State.returnDone (starveState [] (starved .w2)
    ⟨[requestOf (.semPost 0x100)], none, .start, .none, .none, R ++ [.done]⟩ .w0 (n + 1)) = _
  have h : ∀ v0 v1, (starveState [] v0 v1 .w0 (n + 1)).self = v0 := fun _ _ => rfl
  simp only [waitStep, starve_semCheck, waitTry, h, starved, starve_cas_miss]
  rfl

theorem starve_turn4 (R : List Ret) (n : Nat) :
    stepOf (.worker .w1) (starvePhase 4 R n) = .next (starvePhase 5 R (n + 1)) := by
  show postStep (.semPost 0x100) 0x100 .p1 .p2 State.returnDone (starveState [] (starved .w1)
    ⟨[], none, .start, .none, .none, R ++ [.done]⟩ .w1 (n + 1)) = _
  simp only [postStep, starve_semCheck, postRead, starve_zero]
  rfl

theorem starve_turn5 (R : List Ret) (n : Nat) : ∃ t, stepOf (.worker .w1) (starvePhase 5 R n) = .next t ∧
    starvePhase 0 (R ++ [.done] ++ [.done]) (n + 1) = t.supplied fun w => if w = .w1 then starvePair else [] := by
  refine ⟨starveState [(0x100, 1)] (starved .w1) ⟨[], none, .start, .none, .none, R ++ [.done] ++ [.done]⟩ .w1
    (n + 1), ?_, rfl⟩
  show postStep (.semPost 0x100) 0x100 .p1 .p2 State.returnDone (starveState [] (starved .w1)
    ⟨[], some (.semPost 0x100), .p2, ⟨0, false, 0, 0⟩, .none, R ++ [.done]⟩ .w1 (n + 1)) = _
  have h : ∀ v0 v1, (starveState [] v0 v1 .w1 (n + 1)).self = v1 := fun _ _ => rfl
  simp only [postStep, starve_semCheck, postTry, h, starve_cas_give]
  rfl

/-- A turn of the first five of six, with no more software after it. -/
theorem starve_turn {n r : Nat} {a : Agent} (hr : n % 6 = r) (h5 : r < 5) (ha : starveSchedule n = a)
    (h : stepOf a (starvePhase r (starveReturned (n / 6)) n) =
      .next (starvePhase (r + 1) (starveReturned (n / 6)) (n + 1))) :
    ∃ t, stepOf (starveSchedule n) (starveRun n) = .next t ∧ starveRun (n + 1) = t.supplied (starveSoftware n) := by
  have he : starveSoftware n = fun _ => [] := by
    funext w
    simp only [starveSoftware, hr]
    split
    · omega
    · rfl
  refine ⟨_, by rw [ha, starveRun, hr, h], ?_⟩
  rw [he, State.supplied_nothing, starveRun, show (n + 1) % 6 = r + 1 by omega, show (n + 1) / 6 = n / 6 by omega]

theorem starveRun_isRun : IsRun starveSchedule starveSoftware starveRun := by
  intro n
  have hc : n % 6 = 0 ∨ n % 6 = 1 ∨ n % 6 = 2 ∨ n % 6 = 3 ∨ n % 6 = 4 ∨ n % 6 = 5 := by omega
  rcases hc with h | h | h | h | h | h
  · exact starve_turn h (by decide) (by simp [starveSchedule, h]) (starve_turn0 _ _)
  · exact starve_turn h (by decide) (by simp [starveSchedule, h]) (starve_turn1 _ _)
  · exact starve_turn h (by decide) (by simp [starveSchedule, h]) (starve_turn2 _ _)
  · exact starve_turn h (by decide) (by simp [starveSchedule, h]) (starve_turn3 _ _)
  · exact starve_turn h (by decide) (by simp [starveSchedule, h]) (starve_turn4 _ _)
  · obtain ⟨t, h1, h2⟩ := starve_turn5 (starveReturned (n / 6)) n
    have he : starveSoftware n = fun w => if w = .w1 then starvePair else [] := by
      funext w
      cases w <;> simp [starveSoftware, h]
    refine ⟨t, by rw [starveRun, h, ← h1]; simp [starveSchedule, h], ?_⟩
    rw [he, ← h2, starveRun, show (n + 1) % 6 = 0 by omega, show (n + 1) / 6 = n / 6 + 1 by omega]
    rfl

/-- Both workers have turns for ever, and the engines nothing to do. -/
theorem starveRun_weaklyFair : WeaklyFair starveSchedule starveRun := by
  intro a n h
  match a with
  | .worker .w0 => exact ⟨6 * n, by omega, by simp [starveSchedule]⟩
  | .worker .w1 => exact ⟨6 * n + 1, by omega, by simp [starveSchedule, Nat.add_mod]⟩
  | .engine k =>
    have hk := h n (Nat.le_refl n)
    have he : (starveRun n).inst k = Accel.reset := by
      simp only [starveRun, starvePhase]
      split <;> cases k <;> rfl
    rw [State.agentEnabled, he] at hk
    cases hk

/-- R153 (b): no per-waiter progress. In a weakly fair endless run worker 0 stays in one wait for ever and is given
nothing back, although the count is 1 again and again and worker 1 keeps taking it. -/
theorem starvation_admitted : ∃ g e σ, IsRun g e σ ∧ WeaklyFair g σ ∧ (σ 0).inv = true ∧
    (∀ n, ((σ n).worker .w0).cur = some (.semWait 0x100) ∧ ((σ n).worker .w0).returned = []) ∧
    ∀ n, ∃ m, n ≤ m ∧ (σ m).loadWord 0x100 = 1 ∧ n ≤ ((σ m).worker .w1).returned.length := by
  refine ⟨_, _, _, starveRun_isRun, starveRun_weaklyFair, by decide, fun n => ?_, fun n => ⟨6 * n, by omega, ?_, ?_⟩⟩
  · simp only [starveRun, starvePhase]
    split <;> exact ⟨rfl, rfl⟩
  · have h : 6 * n % 6 = 0 := by omega
    rw [starveRun, h]
    exact starve_one _ _ _ _
  · have h : 6 * n % 6 = 0 ∧ 6 * n / 6 = n := by omega
    have hr : ∀ q, (starveReturned q).length = 2 * q := by
      intro q
      induction q with
      | zero => rfl
      | succ q ih => simp [starveReturned, ih]; omega
    rw [starveRun, h.1, h.2]
    show n ≤ (starveReturned n).length
    rw [hr]
    omega

end Sys2Proof.Machine
end

