-- ==== Sys2Proof/Tests/Slice0.lean ====
section
/-! SUPPORT. Tests. Expected results are those of spec/95_test_vectors.md (the vector's id is named) and of the rules'
worked examples; each is one step, or one function, on a small state. -/

namespace Sys2Proof.Tests

open Sys2Proof.Machine

/-! ### Well-formedness refuses an ill-formed term for each check -/

theorem test_wf_badWr : (Instr.badWr .acc0 0x04 7).wf = false ∧ (Instr.badWr .acc0 0x0c 7).wf = true := by decide
theorem test_wf_badRd : (Instr.badRd .acc0 0x14).wf = false ∧ (Instr.badRd .acc0 0x04).wf = true := by decide
theorem test_wf_dmaReserved : (Instr.dmaReserved .write 0x0c 1).wf = false ∧
    (Instr.dmaReserved .write 0x08 9).wf = false ∧ (Instr.dmaReserved .write 0x0c 2).wf = true ∧
    (Instr.dmaReserved .read 0x00 0).wf = true := by decide
theorem test_wf_misaligned : (Instr.cas32 2 0 0).wf = false ∧ (Instr.semInit 1 0).wf = false ∧
    (Instr.semWait 3).wf = false ∧ (Instr.semPost 6).wf = false ∧ (Instr.mutexInit 1).wf = false ∧
    (Instr.mutexLock 1).wf = false ∧ (Instr.mutexUnlock 5).wf = false ∧ (Instr.semWait 8).wf = true := by decide
theorem test_wf_barrier : (Instr.barrierInit ⟨0, 4, 8⟩ 0).wf = false ∧ (Instr.barrierInit ⟨0, 4, 4⟩ 2).wf = false ∧
    (Instr.barrierEnter ⟨0, 6, 8⟩).wf = false ∧ (Instr.barrierInit ⟨0, 4, 8⟩ 2).wf = true := by decide

/-! ### Decoding: words written out from the encodings of 30_encoding.md (V-DEC-1 to V-DEC-21) -/

theorem test_decode_wrA : decode (.acc .acc0) [0x00, 0x00, 0x80, 0x3f, 0, 0, 0, 0, 1] = .ok (.wrA .acc0 0x3f800000) := by
  decide
theorem test_decode_wrB : decode (.acc .acc1) [0, 0, 0, 0, 0x04, 0, 0, 0, 1] = .ok (.wrB .acc1 0) := by decide
theorem test_decode_wrZ : decode (.acc .acc0) [0, 0, 0x70, 0x42, 0x08, 0, 0, 0, 1] = .ok (.wrZ .acc0 0x42700000) := by
  decide
theorem test_decode_rdA : decode (.acc .acc0) [9, 9, 9, 9, 0x0c, 0, 0, 0, 0] = .ok (.rdA .acc0) := by decide
theorem test_decode_rdB : decode (.acc .acc0) [0, 0, 0, 0, 0x10, 0, 0, 0, 0] = .ok (.rdB .acc0) := by decide
theorem test_decode_rdZ : decode (.acc .acc1) [0, 0, 0, 0, 0x14, 0, 0, 0, 0] = .ok (.rdZ .acc1) := by decide
theorem test_decode_badRd : decode (.acc .acc0) [0, 0, 0, 0, 0x04, 0, 0, 0, 0] = .ok (.badRd .acc0 4) ∧
    decode (.acc .acc0) [0, 0, 0, 0, 0x0d, 0, 0, 0, 0] = .ok (.badRd .acc0 0x0d) ∧
    decode (.acc .acc0) [0, 0, 0, 0, 0x18, 0, 0, 0, 0] = .ok (.badRd .acc0 0x18) := by decide
theorem test_decode_badWr : decode (.acc .acc0) [0x78, 0x56, 0x34, 0x12, 0x02, 0, 0, 0, 1] = .ok (.badWr .acc0 2 0x12345678) ∧
    decode (.acc .acc0) [1, 0, 0, 0, 0x0c, 0, 0, 0, 1] = .ok (.badWr .acc0 0x0c 1) ∧
    decode (.acc .acc0) [0, 0, 0, 0, 0, 0, 0, 0x10, 1] = .ok (.badWr .acc0 0x10000000 0) := by decide
theorem test_decode_engineStep : decode (.internal .acc1) [] = .ok (.engineStep .acc1) := by decide
theorem test_decode_rotate : decode .eng [0, 0, 1, 2, 0, 0x00, 0x1e] = .ok (.rotate 256 2 7680) := by decide
theorem test_decode_vector : decode .eng [1, 0, 1, 0, 1, 0, 0] = .ok (.vector 256 256 0) := by decide
theorem test_decode_dmaSrc : decode .dma [0, 0x10, 0, 0x80, 0, 0, 0, 0, 1] = .ok (.dmaSrc 0x80001000) := by decide
theorem test_decode_dmaDst : decode .dma [0, 0x20, 0, 0x80, 4, 0, 0, 0, 1] = .ok (.dmaDst 0x80002000) := by decide
theorem test_decode_dmaLen : decode .dma [0x0c, 0, 0, 0, 8, 0, 0, 0, 1] = .ok (.dmaLen 12) := by decide
theorem test_decode_dmaOp : decode .dma [0, 0, 0, 0, 0x0c, 0, 0, 0, 1] = .ok .dmaOpNop ∧
    decode .dma [1, 0, 0, 0, 0x0c, 0, 0, 0, 1] = .ok .dmaOpCopy := by decide
theorem test_decode_dmaReserved : decode .dma [2, 0, 0, 0, 0x0c, 0, 0, 0, 1] = .ok (.dmaReserved .write 0x0c 2) ∧
    decode .dma [1, 0, 0, 0, 0x0c, 0, 0, 0, 0] = .ok (.dmaReserved .read 0x0c 1) ∧
    decode .dma [0, 0, 0, 0, 2, 0, 0, 0, 1] = .ok (.dmaReserved .write 2 0) := by decide
theorem test_decode_sem : decode .prim [0, 0x10, 0, 0, 0, 3, 0, 0, 0] = .ok (.semInit 0x10 3) ∧
    decode .prim [1, 0x10, 0, 0, 0] = .ok (.semWait 0x10) ∧ decode .prim [2, 0x14, 0, 0, 0] = .ok (.semPost 0x14) := by
  decide
theorem test_decode_mutex : decode .prim [3, 0x10, 0, 0, 0] = .ok (.mutexInit 0x10) ∧
    decode .prim [4, 0x10, 0, 0, 0] = .ok (.mutexLock 0x10) ∧
    decode .prim [5, 0, 1, 0, 0] = .ok (.mutexUnlock 0x100) := by decide
theorem test_decode_barrierInit :
    decode .prim [6, 0, 0, 0, 0, 4, 0, 0, 0, 8, 0, 0, 0, 2, 0, 0, 0] = .ok (.barrierInit ⟨0, 4, 8⟩ 2) := by decide
theorem test_decode_barrierEnter :
    decode .prim [7, 0, 0, 0, 0, 4, 0, 0, 0, 8, 0, 0, 0] = .ok (.barrierEnter ⟨0, 4, 8⟩) := by decide
theorem test_decode_cas32 :
    decode .prim [8, 0x10, 0, 0, 0, 1, 0, 0, 0, 0, 0, 0, 0] = .ok (.cas32 0x10 1 0) := by decide
theorem test_decode_rejects : decode .prim [9] = .error .unassignedSelector ∧ decode .prim [0x10] = .error .reservedBits ∧
    decode .prim [1, 0] = .error .wrongLength ∧ decode .dma [0] = .error .wrongLength ∧
    decode (.acc .acc0) [0, 0, 0, 0, 0, 0, 0, 0, 2] = .error .reservedBits ∧
    decode .eng [3, 0, 0, 0, 0, 0, 0] = .error .reservedBits := by decide
theorem test_tableWord : decodeTableWord 72 0x1000000083f800000 = some (.wrZ .acc0 0x3f800000) ∧
    decodeTableWord 8 8 = some (.cas32 0 0 0) ∧ decodeTableWord 8 6 = some (.barrierInit ⟨0, 0, 0⟩ 0) ∧
    decodeTableWord 0 0 = some (.engineStep .acc0) ∧ decodeTableWord 1 1 = some (.vector 0 0 0) ∧
    decodeTableWord 72 0x10000000c00000001 = some .dmaOpCopy ∧ decodeTableWord 8 12 = none := by decide

/-! ### Fixed point (V-FX-1 to V-FX-52) -/

theorem test_fxAdd : fxAdd 256 128 = 384 ∧ fxAdd 32767 1 = -32768 ∧ fxAdd (-32768) (-1) = 32767 ∧
    fxAdd 25600 12800 = -27136 := by decide
theorem test_fxSubNeg : fxSub (-32768) 1 = 32767 ∧ fxSub 0 (-32768) = -32768 ∧ fxSub 256 384 = -128 ∧
    fxNeg (-32768) = -32768 ∧ fxNeg 256 = -256 := by decide
theorem test_fxAsr : fxAsr .floor 256 3 = 32 ∧ fxAsr .floor (-1) 6 = -1 ∧ fxAsr .floor (-3) 1 = -2 ∧ fxAsr .floor (-32768) 6 = -512 ∧
    fxAsr .floor 32767 6 = 511 ∧ fxAsr .floor (-366) 6 = -6 := by decide
theorem test_fxGain : fxGain .default 1 = 0 ∧ fxGain .default (-1) = -1 ∧ fxGain .default 421 = 255 ∧ fxGain .default (-421) = -256 ∧
    fxGain .default 32767 = 19898 ∧ fxGain .default (-32768) = -19900 := by decide

/-! ### Conversions (V-CV-1 to V-CV-99) -/

theorem test_narrow8 : narrow .floor 8 0x3f800000 = some 256 ∧ narrow .floor 8 0x80000000 = some 0 ∧ narrow .floor 8 0xba83126f = some (-1) ∧
    narrow .floor 8 0xc3000042 = some 32767 ∧ narrow .floor 8 0x501502f9 = some 0 ∧ narrow .floor 8 0x800116c2 = some (-1) ∧
    narrow .floor 8 0xc0490fdb = some (-805) ∧ narrow .floor 8 0x43480000 = some (-14336) := by decide
theorem test_narrow7 : narrow .floor 7 0x42700000 = some 7680 ∧ narrow .floor 7 0x43960000 = some (-27136) ∧
    narrow .floor 7 0xc2137ae1 = some (-4720) ∧ narrow .floor 7 0x43800000 = some (-32768) ∧ narrow .floor 7 0x3f800000 = some 128 := by
  decide
theorem test_narrow_none : narrow .floor 8 0x7fc00000 = none ∧ narrow .floor 7 0x7f800001 = none ∧ narrow .floor 8 0x7f800000 = none ∧
    narrow .floor 8 0xff800000 = none ∧ narrow .floor 7 0xffffffff = none := by decide
theorem test_widen8 : widen 8 0 = 0 ∧ widen 8 1 = 0x3b800000 ∧ widen 8 (-1) = 0xbb800000 ∧ widen 8 222 = 0x3f5e0000 ∧
    widen 8 (-257) = 0xbf808000 ∧ widen 8 32767 = 0x42fffe00 ∧ widen 8 (-32768) = 0xc3000000 := by decide
theorem test_widen7 : widen 7 (-24) = 0xbe400000 ∧ widen 7 8579 = 0x42860c00 ∧ widen 7 (-8580) = 0xc2861000 ∧
    widen 7 32767 = 0x437ffe00 ∧ widen 7 (-32768) = 0xc3800000 := by decide

/-! ### The engine function (V-ROT-1 to V-ROT-45, V-VEC-1 to V-VEC-10) -/

theorem test_rotate_inRange : rotate .default 256 0 7680 false = ⟨126, 222, -24⟩ ∧ rotate .default 256 0 0 false = ⟨256, -1, 6⟩ ∧
    rotate .default 256 0 (-3840) false = ⟨221, -127, -24⟩ ∧ rotate .default 256 0 11520 false = ⟨-1, 256, -6⟩ := by
  refine ⟨?_, ?_, ?_, ?_⟩ <;> decide
theorem test_rotate_precorrected : rotate .default 256 0 11521 false = ⟨0, 256, 7⟩ ∧ rotate .default 256 0 15360 false = ⟨-127, 221, 24⟩ ∧
    rotate .default 256 0 (-23040) false = ⟨-257, 0, 6⟩ ∧ rotate .default 256 0 32767 false = ⟨-253, -42, 8579⟩ ∧
    rotate .default 256 0 (-32768) false = ⟨-254, 41, -8580⟩ := by decide
theorem test_rotate_wraps : rotate .default 25600 0 0 false = ⟨-13712, 13117, 6⟩ ∧ rotate .default (-32768) 0 15360 false = ⟨12203, -8114, 24⟩ ∧
    rotate .default 32767 32767 5760 false = ⟨-2, 0, 108⟩ := by decide
theorem test_rotate_vectoring : rotate .default 256 256 0 true = ⟨363, 4, 5652⟩ ∧ rotate .default (-256) 256 0 true = ⟨292, 213, 12668⟩ ∧
    rotate .default 256 256 15360 true = ⟨292, 213, 16508⟩ ∧ rotate .default 256 0 0 true = ⟨256, 0, -6⟩ := by decide +kernel
theorem test_preMode_ninety : rotate { EngineConfig.default with preMode := .always } 256 0 11520 false = ⟨0, 256, 6⟩ := by decide

/-! ### The engine's parameters are substitutable (R27, R108) -/

/-- With constants of 0 no micro-rotation moves the angle; in-range, so no pre-correction does. -/
theorem test_atan_substituted :
    (rotate { EngineConfig.default with atan := #v[0, 0, 0, 0, 0, 0, 0] } 256 0 7680 false).t = 7680 := by decide
/-- Decision D5's remark: 155/256 as the constant changes 222 to 221 in the 60-degree example. -/
theorem test_gain_substituted : fxGain { EngineConfig.default with gainNum := 155, gainDen := 256 } 366 = 221 ∧
    fxGain .default 366 = 222 := by decide
/-- R85's remark: a toward-zero shift of -3 by 1 would give -1. -/
theorem test_quant_substituted : fxAsr .towardZero (-3) 1 = -1 := by decide

/-! ### The driver's phase correction -/

/-- R185's examples and those of property T3. -/
theorem test_phaseCorrection : phaseCorrection (225 : ℚ) = -135 ∧ phaseCorrection (945 / 2 : ℚ) = 225 / 2 ∧
    phaseCorrection (180 : ℚ) = 180 ∧ phaseCorrection (-180 : ℚ) = 180 ∧ phaseCorrection (540 : ℚ) = 180 ∧
    phaseCorrection (360 : ℚ) = 0 ∧ phaseCorrection (-360 : ℚ) = 0 ∧ phaseCorrection (-190 : ℚ) = 170 := by
  decide +kernel
/-- 180 degrees, the greatest folded phase, as a word. -/
theorem witness_phaseCorrection : f32OfWord 0x43340000 = .finite false 0xb40000 134 ∧
    f32Value false 0xb40000 134 = 180 ∧ narrow .floor 7 0x43340000 = some 23040 := by
  refine ⟨by decide, by norm_num [f32Value], by decide⟩

/-! ### Operations, one step each -/

/-- The reset state with the word 0x100 a semaphore's and given bytes of memory. -/
def base (m : List Host.Cell) : State := State.launch .reset m [0x100]

/-- A semaphore's word at 0x100 with a count below 256. -/
def countIs (n : Byte) : List Host.Cell := putByte [] 0x100 n

/-- The next state, or the given one where there is none. -/
def after (o : Result) (s : State) : State :=
  match o with
  | .next t => t
  | .fault _ => s
  | .refused _ => s

/-- The refusal, if the outcome is one. -/
def refusal (o : Result) : Option Refusal :=
  match o with
  | .next _ => none
  | .fault _ => none
  | .refused r => some r

/-- Instance 0 with these results waiting. -/
def waiting (a b z : List Fx) : State := (base []).setInst .acc0 ⟨[], [], [], a, b, z, .idle⟩

/-- V-IF-1, V-IF-2. -/
theorem test_wrA_queues : (after (exec (.wrA .acc0 0x40000000) (after (exec (.wrA .acc0 0x3f800000) (base [])) (base []))) (base [])).inst0.inA
    = [256, 512] := by decide
theorem test_wrB : (after (exec (.wrB .acc1 0x80000000) (base [])) (base [])).inst1.inB = [0] := by decide
/-- V-IF-14. -/
theorem test_wrZ_wraps : (after (exec (.wrZ .acc0 0x43960000) (base [])) (base [])).inst0.inZ = [-27136] := by decide
/-- V-IF-13: one element, no diagnostic. -/
theorem test_wrZ_nan : (after (exec (.wrZ .acc0 0x7fc00000) (base [])) (base [])).inst0.inZ.length = 1 ∧
    (after (exec (.wrZ .acc0 0x7fc00000) (base [])) (base [])).log = [] := by decide
/-- V-IF-5. -/
theorem test_rdA : (after (exec (.rdA .acc0) (waiting [126] [222] [-24])) (base [])).worker0.returned = [.word 0x3efc0000] ∧
    (after (exec (.rdA .acc0) (waiting [126] [222] [-24])) (base [])).inst0 = ⟨[], [], [], [], [222], [-24], .idle⟩ := by decide
theorem test_rdA_holds : (after (exec (.rdA .acc0) (waiting [] [222] [-24])) (base [])).worker0.cur = some (.rdA .acc0) := by
  decide
theorem test_rdB : (after (exec (.rdB .acc0) (waiting [126] [222] [-24])) (base [])).worker0.returned = [.word 0x3f5e0000] := by
  decide
theorem test_rdZ : (after (exec (.rdZ .acc0) (waiting [126] [222] [-24])) (base [])).worker0.returned = [.word 0xbe400000] := by
  decide
/-- V-IF-7. -/
theorem test_badWr : (after (exec (.badWr .acc0 0x0c 0x3f800000) (waiting [126] [] [])) (base [])).log = [⟨.acc0, 0x0c, .write⟩] ∧
    (after (exec (.badWr .acc0 0x0c 0x3f800000) (waiting [126] [] [])) (base [])).inst0.outA = [126] := by decide
/-- V-IF-9. -/
theorem test_badRd : (after (exec (.badRd .acc1 0x18) (base [])) (base [])).log = [⟨.acc1, 0x18, .read⟩] ∧
    (after (exec (.badRd .acc1 0x18) (base [])) (base [])).worker0.returned = [.word (Config.draw32 0)] := ⟨by decide, rfl⟩
/-- V-IF-4, V-IF-11. -/
theorem test_engineStep :
    (after (exec (.engineStep .acc0) ((base []).setInst .acc0 ⟨[256, 512], [0], [7680], [], [], [], .idle⟩)) (base [])).inst0
    = ⟨[512], [], [], [126], [222], [-24], .idle⟩ := by decide
/-- V-IF-3. -/
theorem test_engineStep_holds : (after (exec (.engineStep .acc0) ((base []).setInst .acc0 ⟨[256], [0], [], [], [], [], .idle⟩)) (base [])).inst0
    = ⟨[256], [0], [], [], [], [], .idle⟩ := by decide
theorem test_rotate_returns : (after (exec (.rotate 256 0 7680) (base [])) (base [])).worker0.returned = [.triple 126 222 (-24)] := by
  decide
theorem test_vector_returns : (after (exec (.vector 256 256 0) (base [])) (base [])).worker0.returned = [.triple 363 4 5652] := by
  decide +kernel
theorem test_dmaSrc : (after (exec (.dmaSrc 0x80001000) (base [])) (base [])).dma = ⟨0x80001000, 0, 0, 0⟩ := by decide
theorem test_dmaDst : (after (exec (.dmaDst 0x50000000) (base [])) (base [])).dma = ⟨0, 0x50000000, 0, 0⟩ := by decide
theorem test_dmaLen : (after (exec (.dmaLen 12) (base [])) (base [])).dma = ⟨0, 0, 12, 0⟩ := by decide
/-- V-DMA-4. -/
theorem test_dmaOpNop : (after (exec .dmaOpNop ((base []).setDma ⟨5, 6, 12, 1⟩)) (base [])).dma = ⟨5, 6, 12, 0⟩ := by decide
/-- V-DMA-1, the first word: read the memory word, then WR_A. -/
theorem test_dmaOpCopy_words :
    (after (execTimes 3 .dmaOpCopy ((base (countIs 0)).setDma ⟨0x100, 0x50000000, 4, 0⟩)) (base [])).inst0.inA = [0] ∧
    (after (execTimes 3 .dmaOpCopy ((base (countIs 0)).setDma ⟨0x100, 0x50000000, 4, 0⟩)) (base [])).worker0.returned = [.ok] := by
  decide
/-- V-DMA-7 with two bytes: one step a byte. -/
theorem test_dmaOpCopy_bytes :
    (after (execTimes 3 .dmaOpCopy ((base (countIs 9)).setDma ⟨0x100, 0x200, 2, 0⟩)) (base [])).mem
    = countIs 9 ++ [(0x200, 9)] := by decide
/-- V-DMA-11. -/
theorem test_dmaOpCopy_refused : refusal (exec .dmaOpCopy ((base []).setDma ⟨0x100, 0x104, 8, 0⟩)) = some .bulkOverlap ∧
    refusal (exec .dmaOpCopy ((base []).setDma ⟨0x100, 0x50000000, 10, 0⟩)) = some .bulkUnaligned ∧
    refusal (exec .dmaOpCopy ((base []).setDma ⟨0x102, 0x50000000, 12, 0⟩)) = some .bulkUnaligned ∧
    refusal (exec .dmaOpCopy ((base []).setDma ⟨0x100, 0x500000fc, 8, 0⟩)) = some .bulkStraddles ∧
    refusal (exec .dmaOpCopy ((base []).setDma ⟨0xfffffff0, 0x100, 32, 0⟩)) = some .bulkWraps ∧
    refusal (exec .dmaOpCopy ((base []).setDma ⟨0x100, 0x70000000, 12, 0⟩)) = some .bulkStraddles := by decide
/-- V-DMA-3: the copy holds at an empty result channel. -/
theorem test_dmaOpCopy_holds :
    (after (execTimes 5 .dmaOpCopy ((base []).setDma ⟨0x5000000c, 0x200, 12, 0⟩)) (base [])).worker0.pc = .copyRead := by decide
/-- V-DMA-5. -/
theorem test_dmaReserved : refusal (exec (.dmaReserved .write 0x0c 2) (base [])) = some .dmaReserved := by decide
/-- V-CAS-1. -/
theorem test_cas32 : (after (exec (.cas32 0x100 1 0) (base (countIs 1))) (base [])).mem = countIs 0 ∧
    (after (exec (.cas32 0x100 1 0) (base (countIs 1))) (base [])).worker0.returned = [.flag true] := by decide
theorem test_cas32_fails : (after (exec (.cas32 0x100 1 0) (base (countIs 2))) (base [])).mem = countIs 2 ∧
    (after (exec (.cas32 0x100 1 0) (base (countIs 2))) (base [])).worker0.returned = [.flag false] ∧
    refusal (exec (.cas32 0x102 1 0) (base [])) = some .misalignedWord ∧
    refusal (exec (.cas32 0x50000000 1 0) (base [])) = some .notSharedMemory := by decide
theorem test_semInit : (after (exec (.semInit 0x104 0x01020304) (base [])) (base [])).mem = [(0x104, 4), (0x105, 3), (0x106, 2), (0x107, 1)] ∧
    (after (exec (.semInit 0x104 3) (base [])) (base [])).semWords = [0x100, 0x104] := by decide
/-- R142's worked example: W1 reads 2, W2 writes 1. -/
theorem test_semWait : (after (execTimes 2 (.semWait 0x100) (base (countIs 2))) (base [])).mem = countIs 1 ∧
    (after (execTimes 2 (.semWait 0x100) (base (countIs 2))) (base [])).worker0.returned = [.done] := by decide
/-- V-SEM-2 and V-SEM-8. -/
theorem test_semWait_spins : (after (execTimes 3 (.semWait 0x100) (base (countIs 0))) (base [])).worker0.pc = .w1 ∧
    refusal (exec (.semWait 0x104) (base (countIs 1))) = some .semNotInitialised := by decide
theorem test_semPost : (after (execTimes 2 (.semPost 0x100) (base (countIs 0))) (base [])).mem = countIs 1 := by decide
/-- V-SEM-7. -/
theorem test_semPost_overflow :
    refusal (exec (.semPost 0x100) (base [(0x100, 255), (0x101, 255), (0x102, 255), (0x103, 255)])) = some .countOverflow := by decide
theorem test_mutexInit : (after (exec (.mutexInit 0x104) (base [])) (base [])).mem = [(0x104, 1)] := by
  decide
/-- V-MUT-1. -/
theorem test_mutexLock : (after (execTimes 2 (.mutexLock 0x100) (base (countIs 1))) (base [])).mem = countIs 0 := by decide
/-- V-MUT-3: an unlock of a free mutex. -/
theorem test_mutexUnlock : (after (execTimes 2 (.mutexUnlock 0x100) (base (countIs 1))) (base [])).mem = countIs 2 := by decide
/-- R148's worked example. -/
theorem test_barrierInit : (after (execTimes 3 (.barrierInit ⟨0, 4, 8⟩ 2) (base [])) (base [])).mem =
      [(4, 1)] ∧
    (after (execTimes 3 (.barrierInit ⟨0, 4, 8⟩ 2) (base [])) (base [])).barriers = [(⟨0, 4, 8⟩, 2)] := by decide
/-- V-BAR-6. -/
theorem test_barrierInit_zero : refusal (exec (.barrierInit ⟨0, 4, 8⟩ 0) (base [])) = some .capacityZero := by decide

/-- A barrier of capacity 2 just initialised. -/
def barrierState (capacity : Word) : State := after (execTimes 3 (.barrierInit ⟨0, 4, 8⟩ capacity) (base [])) (base [])

/-- V-BAR-1 steps 1 to 7: counter 1, the lock free again, spinning at B8. -/
theorem test_barrierEnter_first : (after (execTimes 7 (.barrierEnter ⟨0, 4, 8⟩) (barrierState 2)) (base [])).worker0.pc = .b8w1 ∧
    (after (execTimes 7 (.barrierEnter ⟨0, 4, 8⟩) (barrierState 2)) (base [])).loadWord 0 = 1 ∧
    (after (execTimes 7 (.barrierEnter ⟨0, 4, 8⟩) (barrierState 2)) (base [])).loadWord 4 = 1 := by decide
/-- V-BAR-1 steps 8 to 15: the last arrival resets the counter, posts once and returns. -/
theorem test_barrierEnter_last :
    (after (execTimes 8 (.barrierEnter ⟨0, 4, 8⟩)
      ((after (execTimes 7 (.barrierEnter ⟨0, 4, 8⟩) (barrierState 2)) (base [])).setActive .w1)) (base [])).worker1.returned = [.done] ∧
    (after (execTimes 8 (.barrierEnter ⟨0, 4, 8⟩)
      ((after (execTimes 7 (.barrierEnter ⟨0, 4, 8⟩) (barrierState 2)) (base [])).setActive .w1)) (base [])).loadWord 8 = 1 := by decide

/-! ### The step -/

/-- Worker 0 with a script, its turn next. -/
def turn (script : List Request) (s : State) : State :=
  { s with worker0 := { s.worker0 with script := script }, sched := [.worker .w0] }

/-- P3 line 3 by bus address: dispatch, decode, diagnostic. -/
theorem test_step_bus : (after (step (turn [Platform.reset.busw .acc0 0x02 0x12345678] (base []))) (base [])).log
    = [⟨.acc0, 0x02, .write⟩] := by decide
/-- P6 line 3. -/
theorem test_step_dma : (after (step (turn [Platform.reset.dmaw 0x08 12] (base []))) (base [])).dma.len = 12 := by decide
theorem test_step_load : (after (step (turn [requestLd 0x100] (base (countIs 7)))) (base [])).worker0.returned = [.word 7] := by
  decide
theorem test_step_store : (after (step (turn [requestSt 0x200 5] (base []))) (base [])).mem
    = [(0x200, 5)] := by decide
theorem test_step_length : refusal (step (turn [.bus .write 0x50000000 2 0] (base []))) = some .transactionLength := by decide
theorem test_step_engine_not_issuable :
    refusal (step (turn [requestOf (.engineStep .acc0)] (base []))) = some .notIssuable := by decide
/-- R58: worker 1's blocked read stops worker 0 exactly where the platform's bus is held. -/
theorem test_step_bus_held (b : Bool) :
    (after (step (turn [Platform.reset.dmaw 0 5]
      { base [] with worker1 := { Worker.reset with cur := some (.rdA .acc1) }, plat := { Platform.reset with busHeld := b } }))
      (base [])).dma.src = if b then 0 else 5 := by cases b <;> decide

/-- The rows of the table that a number tells apart run as the first operation after reset. -/
theorem test_withFetchWord : completes (step (State.reset.withFetchWord 72 0x1000000083f800000)) = true ∧
    completes (step (State.reset.withFetchWord 72 0x00000000c00000000)) = true ∧
    completes (step (State.reset.withFetchWord 0 0)) = true ∧ completes (step (State.reset.withFetchWord 8 0)) = true ∧
    completes (step (State.reset.withFetchWord 8 8)) = true ∧ completes (step (State.reset.withFetchWord 1 1)) = true ∧
    completes (step (State.reset.withFetchWord 72 0x10000000c00000001)) = true := by decide


/-! ### States and operands that meet the hypotheses of the obligations -/

/-- A worker's turn with an outstanding operation. -/
def outstanding (i : Instr) (l : Label) (s : State) : State :=
  { s with worker0 := { s.worker0 with cur := some i, pc := l }, sched := [.worker .w0] }

/-- A copy in progress by worker 0. -/
def copying (l : Label) (q : Copy) (s : State) : State :=
  { s with worker0 := { s.worker0 with cur := some .dmaOpCopy, pc := l, copy := q } }

/-- The bulk transfer registers set for a copy. -/
def request (src dst len : Word) (m : List Host.Cell) : State := (base m).setDma ⟨src, dst, len, 0⟩

/-- Worker 0 in a wait or a post at a label with a snapshot. -/
def trying (l : Label) (old : Word) (s : State) : State :=
  { s with worker0 := { s.worker0 with cur := some (.semWait 0x100), pc := l, locals := ⟨old, false, 0, 0⟩ } }

/-- A barrier of capacity 2 at the addresses 0, 4 and 8 with these three words, and worker 0 at a label. -/
def barrierAt (l : Label) (counter gate release : Byte) : State :=
  { (State.launch .reset (putByte (putByte (putByte [] 0 counter) 4 gate) 8 release) [4, 8]).setBarriers [(⟨0, 4, 8⟩, 2)]
    with worker0 := { Worker.reset with cur := if l = .start then none else some (.barrierEnter ⟨0, 4, 8⟩), pc := l } }

theorem witness_decodeOfEncode : (Instr.barrierInit ⟨0, 4, 8⟩ 2).wf = true ∧ (Instr.badWr .acc1 0xffffffff 1).wf = true ∧
    (Instr.dmaReserved .write 0x0c 2).wf = true ∧ (Instr.semWait 0xfffffffc).wf = true := by decide
theorem witness_encodeOfDecode : decode .dma [1, 0, 0, 0, 0x0c, 0, 0, 0, 1] = .ok .dmaOpCopy ∧
    ∀ k off, Instr.dmaOpCopy ≠ .rdA k ∧ Instr.dmaOpCopy ≠ .rdB k ∧ Instr.dmaOpCopy ≠ .rdZ k ∧
      Instr.dmaOpCopy ≠ .badRd k off := ⟨by decide, by simp⟩
theorem witness_decodedOperationsWellFormed :
    decode (.acc .acc0) [0, 0, 0, 0, 0x18, 0, 0, 0, 0] = .ok (.badRd .acc0 0x18) ∧ Target.acc .acc0 ≠ .prim := by decide
theorem witness_stepRunsTheDescriptor : (turn [requestOf (.semPost 0x100)] (base [])).nextAgent = .worker .w0 ∧
    (turn [requestOf (.semPost 0x100)] (base [])).worker0.cur = none ∧
    (turn [requestOf (.semPost 0x100)] (base [])).worker0.script = [.descriptor .prim [2, 0, 1, 0, 0]] ∧
    decode .prim [2, 0, 1, 0, 0] = .ok (.semPost 0x100) ∧ (∀ k, Instr.semPost 0x100 ≠ .engineStep k) ∧
    (turn [requestOf (.semPost 0x100)] (base [])).busStopped .w0 = false :=
  ⟨by decide, by decide, by decide, by decide, by simp, by decide⟩
theorem witness_stepDispatchesByAddress : (turn [.bus .write 0x50000000 4 1] (base [])).plat.ok = true ∧
    (turn [.bus .write 0x50000000 4 1] (base [])).nextAgent = .worker .w0 ∧
    (turn [.bus .write 0x50000000 4 1] (base [])).worker0.cur = none ∧
    (turn [.bus .write 0x50000000 4 1] (base [])).busStopped .w0 = false := by decide
/-- First and last address of each range, and the addresses next to them. -/
theorem witness_stepDispatchesByAddress_ranges : Platform.reset.deviceAt 0x50000000 = .acc .acc0 ∧
    Platform.reset.deviceAt 0x500000ff = .acc .acc0 ∧ Platform.reset.deviceAt 0x600000ff = .acc .acc1 ∧
    Platform.reset.deviceAt 0x7000000f = .dma ∧ Platform.reset.deviceAt 0x70000010 = .memory ∧
    Platform.reset.deviceAt 0x4fffffff = .memory ∧
    (∃ t, step (turn [.bus .write 0x70000010 4 1] (base [])) = .next t) := by
  refine ⟨by decide, by decide, by decide, by decide, by decide, by decide, ⟨_, rfl⟩⟩
theorem witness_stepContinuesOrRunsTheEngine :
    (outstanding (.rdA .acc0) .start (base [])).nextAgent = .worker .w0 ∧
    (outstanding (.rdA .acc0) .start (base [])).worker0.cur = some (.rdA .acc0) ∧
    (outstanding (.rdA .acc0) .start (base [])).busStopped .w0 = false ∧
    { base [] with sched := [.engine .acc1] }.nextAgent = .engine .acc1 := by decide

/-- Worker 1 blocked in a read on a platform whose bus that holds, worker 0 next. -/
def heldBus (s : State) : State :=
  { s with worker1 := { Worker.reset with cur := some (.rdA .acc1) }, plat := { Platform.reset with busHeld := true }
           sched := [.worker .w0] }

theorem witness_blockedReadHoldsTheBus : (heldBus (turn [requestLd 0] (base []))).plat.busHeld = true ∧
    (heldBus (turn [requestLd 0] (base []))).blockedRead (otherWorker .w0) = true ∧
    (heldBus (turn [requestLd 0] (base []))).worker0.cur = none ∧ requestUsesBus (requestLd 0) = true ∧
    (heldBus (outstanding (.semWait 0x100) .w1 (base []))).worker0.cur = some (.semWait 0x100) ∧
    (base []).plat.busHeld = false := by decide
theorem witness_workerLoadsAndStores : (turn [requestLd 0xfffffffc] (base [])).plat.memoryRange 0xfffffffc 4 = true ∧
    (turn [requestSt 0xfffffffc 7] (base [])).busStopped .w0 = false ∧
    (turn [requestSt 0xfffffffc 7] (base [])).worker0.script = [.bus .write 0xfffffffc 4 7] := by decide
theorem witness_fixedSums : (32766 : Fx).toInt + (1 : Fx).toInt ≤ 32767 ∧ -32768 ≤ (-32767 : Fx).toInt - (1 : Fx).toInt ∧
    (-32767 : Fx).toInt ≠ -32768 := by decide
theorem witness_narrowing : f32OfWord 0x7f7fffff = .finite false 0xffffff 254 ∧ f32OfWord 0x80000001 = .finite true 1 1 ∧
    f32OfWord 0xff800000 = .infinity true ∧ f32OfWord 0x7f800001 = .nan := by decide
theorem witness_gain : EngineConfig.default.quant = .floor ∧ EngineConfig.default.ok = true := by decide
theorem witness_preModes : EngineConfig.default.atan.get 0 = 5760 ∧ (11519 : Fx) ≠ 11520 ∧ (11521 : Fx) ≠ 11520 := by
  decide

/-- R102's table: the full trace of `rotate(256, 0, 7680, false)` before the gain, with the direction used. -/
def trace (n : Nat) : Triple × Int :=
  match n with
  | 0 => (⟨256, 0, 7680⟩, 1)
  | 1 => (⟨256, 256, 1920⟩, 1)
  | 2 => (⟨128, 384, -1480⟩, -1)
  | 3 => (⟨224, 352, 316⟩, 1)
  | 4 => (⟨180, 380, -596⟩, -1)
  | 5 => (⟨203, 369, -139⟩, -1)
  | 6 => (⟨214, 363, 90⟩, 1)
  | _ => (⟨209, 366, -24⟩, 1)

theorem witness_engineFunction : (trace 0).1 = precorrectWith EngineConfig.default.preMode ⟨256, 0, 7680⟩ ∧
    (∀ i : Fin 7, ((trace i.val).2 = 1 ↔ 0 ≤ (trace i.val).1.t.toInt) ∧
      ((trace i.val).2 = 1 ∨ (trace i.val).2 = -1) ∧
      (trace (i.val + 1)).1 =
        ⟨wrap16 ((trace i.val).1.x.toInt - (trace i.val).2 * quantize .floor (trace i.val).1.y.toInt (2 ^ i.val)),
          wrap16 ((trace i.val).1.y.toInt + (trace i.val).2 * quantize .floor (trace i.val).1.x.toInt (2 ^ i.val)),
          wrap16 ((trace i.val).1.t.toInt - (trace i.val).2 * (EngineConfig.default.atan.get i).toInt)⟩) := by decide
theorem witness_precorrection : (11521 : Fx).toInt = 11521 ∧ (-11521 : Fx).toInt = -11521 ∧ (23040 : Fx).toInt = 23040 ∧
    (11519 : Fx) ≠ 11520 := by decide
theorem witness_reads : ((waiting [126] [222] [-24]).inst .acc0).outA = [126] ∧
    ((waiting [126] [222] [-24]).inst .acc0).outB = [222] ∧ ((waiting [126] [222] [-24]).inst .acc0).outZ = [-24] ∧
    ((base []).inst .acc0).outA = [] ∧ ((base []).inst .acc0).outB = [] ∧ ((base []).inst .acc0).outZ = [] := by decide

/-- Instance 0 with two operations queued. -/
def queued : State := (base []).setInst .acc0 ⟨[256, 512], [0, 1], [7680, 0, 5], [], [], [], .idle⟩

theorem witness_engine : (queued.inst .acc0).inA = 256 :: [512] ∧ (queued.inst .acc0).inB = 0 :: [1] ∧
    (queued.inst .acc0).inZ = 7680 :: [0, 5] ∧ 2 ≤ (queued.inst .acc0).inA.length ∧
    2 ≤ (queued.inst .acc0).inZ.length ∧ ((base []).inst .acc0).inZ = [] := by decide
theorem witness_exchange : ((base []).inst .acc0).drained = true ∧ narrow .floor 8 0x3f800000 = some 256 ∧
    narrow .floor 8 0 = some 0 ∧ narrow .floor 7 0x42700000 = some 7680 := by decide
theorem witness_copyOfNothing : (request 0x100 0x50000000 0 []).self.pc = .start ∧
    (request 0x100 0x50000000 0 []).dma.len = 0 := by decide
theorem witness_copyMovesOneByte : (copying .copyByte ⟨0x100, 0x200, 2, 1, 0⟩ (base [])).self.pc = .copyByte ∧
    (copying .copyByte ⟨0x100, 0x200, 2, 1, 0⟩ (base [])).self.copy.len.toNat ≤ 1 + 1 ∧
    1 < (copying .copyByte ⟨0x100, 0x200, 2, 0, 0⟩ (base [])).self.copy.len.toNat := by decide
theorem witness_copyOfMemory : (request 0x100 0x102 2 []).plat.ok = true ∧ (request 0x100 0x102 2 []).self.pc = .start ∧
    (request 0x100 0x102 2 []).dma.len ≠ 0 ∧ Platform.reset.memoryRange 0x100 2 = true ∧
    Platform.reset.memoryRange 0x102 2 = true ∧ overlaps 0x100 2 0x102 2 = false := by decide
theorem witness_copyToWindow : (request 0x100 0x60000000 12 []).dma.dst = Platform.reset.accBase .acc1 ∧
    Platform.reset.memoryRange 0x100 12 = true ∧ narrow .floor 8 ((request 0x100 0x60000000 12 []).loadWord 0x108) = some 0 ∧
    narrow .floor 7 ((request 0x100 0x60000000 12 []).loadWord 0x108) = some 0 := by decide
theorem witness_copyFromWindow :
    ({ waiting [126] [222] [-24] with dma := ⟨0x5000000c, 0xfffffff4, 12, 0⟩ } : State).dma.src
      = Platform.reset.accBase .acc0 + 0x0c ∧ Platform.reset.memoryRange 0xfffffff4 12 = true := by decide
theorem witness_copyHolds : (copying .copyRead ⟨0x50000008, 0x200, 12, 4, 0⟩ (base [])).self.copy.src.toNat + 4
      = (Platform.reset.accBase .acc0).toNat + 0x0c ∧
    (copying .copyRead ⟨0x50000008, 0x200, 12, 4, 0⟩ (base [])).self.pc = .copyRead ∧
    (copying .copyRead ⟨0x5000000c, 0x200, 12, 4, 0⟩ (waiting [126] [] [-24])).self.copy.src.toNat + 4
      = (Platform.reset.accBase .acc0).toNat + 0x10 ∧ ((waiting [126] [] [-24]).inst .acc0).outB = [] ∧
    (copying .copyRead ⟨0x5000000c, 0x200, 12, 8, 0⟩ (waiting [126] [222] [])).self.copy.src.toNat + 8
      = (Platform.reset.accBase .acc0).toNat + 0x14 ∧ ((waiting [126] [222] []).inst .acc0).outZ = [] := by decide
/-- A range that ends at the last address, and one that passes it by one byte. -/
theorem witness_copyRefusals_wraps : completes (exec .dmaOpCopy (request 0xfffffffe 0x100 2 [])) = true ∧
    refusal (exec .dmaOpCopy (request 0xffffffff 0x100 2 [])) = some .bulkWraps ∧
    completes (exec .dmaOpCopy (request 0x100 0xfffffffe 2 [])) = true ∧
    refusal (exec .dmaOpCopy (request 0x100 0xffffffff 2 [])) = some .bulkWraps := by decide
/-- Ranges that touch, and ranges that share one byte. -/
theorem witness_copyRefusals_overlap : completes (exec .dmaOpCopy (request 0x100 0x108 8 [])) = true ∧
    refusal (exec .dmaOpCopy (request 0x100 0x107 8 [])) = some .bulkOverlap ∧
    completes (exec .dmaOpCopy (request 0x108 0x100 8 [])) = true ∧
    refusal (exec .dmaOpCopy (request 0x107 0x100 8 [])) = some .bulkOverlap := by decide
/-- A device's range with one of the three numbers off by one. -/
theorem witness_copyRefusals_unaligned : completes (exec .dmaOpCopy (request 0x100 0x50000000 12 [])) = true ∧
    refusal (exec .dmaOpCopy (request 0x100 0x50000000 11 [])) = some .bulkUnaligned ∧
    refusal (exec .dmaOpCopy (request 0x101 0x50000000 12 [])) = some .bulkUnaligned ∧
    refusal (exec .dmaOpCopy (request 0x100 0x50000001 12 [])) = some .bulkUnaligned ∧
    completes (exec .dmaOpCopy (request 0x101 0x201 11 [])) = true := by decide
/-- The last word of a window, and a range one word longer; the last word before the bulk transfer registers and after
them, and ranges that share a word with them. -/
theorem witness_copyRefusals_straddles : completes (exec .dmaOpCopy (request 0x100 0x500000fc 4 [])) = true ∧
    refusal (exec .dmaOpCopy (request 0x100 0x500000fc 8 [])) = some .bulkStraddles ∧
    refusal (exec .dmaOpCopy (request 0x4ffffffc 0x100 8 [])) = some .bulkStraddles ∧
    completes (exec .dmaOpCopy (request 0x6ffffffc 0x100 4 [])) = true ∧
    refusal (exec .dmaOpCopy (request 0x6ffffffc 0x100 8 [])) = some .bulkStraddles ∧
    completes (exec .dmaOpCopy (request 0x70000010 0x100 4 [])) = true ∧
    refusal (exec .dmaOpCopy (request 0x7000000c 0x100 8 [])) = some .bulkStraddles := by decide
theorem witness_copyRefusals_ranges : Platform.reset.ok = true ∧ overlaps 0x500000fc 8 0x50000000 0x100 = true ∧
    insideOf 0x500000fc 8 0x50000000 0x100 = false ∧ overlaps 0x7000000c 8 0x70000000 dmaBytes = true := by decide
/-- Lengths 3 and 5 at the first and last address of a device's range; the next address is memory's. -/
theorem witness_transactionLength :
    (turn [.bus .read 0x500000ff 3 0] (base [])).nextAgent = .worker .w0 ∧
    (turn [.bus .read 0x500000ff 3 0] (base [])).worker0.cur = none ∧
    (turn [.bus .read 0x500000ff 3 0] (base [])).busStopped .w0 = false ∧
    refusal (step (turn [.bus .read 0x500000ff 3 0] (base []))) = some .transactionLength ∧
    refusal (step (turn [.bus .write 0x60000000 5 0] (base []))) = some .transactionLength ∧
    refusal (step (turn [.bus .write 0x7000000f 0 0] (base []))) = some .transactionLength ∧
    completes (step (turn [.bus .write 0x70000010 3 0] (base []))) = true := by decide
theorem witness_compareAndSwap : (base []).plat.wordCheck 0xfffffffc = none ∧ (base []).plat.wordCheck 0 = none := by
  decide
theorem witness_waitTakesOne : (base (countIs 1)).semCheck 0x100 = none ∧ (base (countIs 1)).self.pc ≠ .w2 ∧
    (base (countIs 1)).loadWord 0x100 ≠ 0 := by decide
theorem witness_waitGoesBack : (base []).loadWord 0x100 = 0 ∧ (trying .w2 3 (base (countIs 1))).self.pc = .w2 ∧
    (trying .w2 3 (base (countIs 1))).loadWord 0x100 ≠ (trying .w2 3 (base (countIs 1))).self.locals.old := by decide
theorem witness_waitDoesNotReturnAtZero : (trying .w2 3 (base [])).inv = true ∧
    (trying .w2 3 (base [])).loadWord 0x100 = 0 ∧ ∃ t, exec (.semWait 0x100) (trying .w2 3 (base [])) = .next t := by
  refine ⟨by decide, by decide, ⟨_, rfl⟩⟩
theorem witness_postAddsOne : (base (countIs 1)).semCheck 0x100 = none ∧ (base (countIs 1)).self.pc ≠ .p2 ∧
    (base (countIs 1)).loadWord 0x100 ≠ 0xffffffff := by decide
theorem witness_postRefusedOrGoesBack :
    (base [(0x100, 255), (0x101, 255), (0x102, 255), (0x103, 255)]).loadWord 0x100 = 0xffffffff ∧
    (trying .p2 3 (base (countIs 1))).self.pc = .p2 ∧
    (trying .p2 3 (base (countIs 1))).loadWord 0x100 ≠ (trying .p2 3 (base (countIs 1))).self.locals.old := by decide
theorem witness_primitivesRefuse : aligned4 0x103 = false ∧ aligned4 0x104 = true ∧
    (base []).plat.memoryRange 0x104 4 = true ∧ (base []).semWords.contains 0x104 = false ∧
    aligned4 0x50000000 = true ∧ (base []).plat.memoryRange 0x50000000 4 = false := by decide
/-- A misaligned counter, lock and release word, each with the words before it sound. -/
theorem witness_barriersRefuse : (base []).plat.wordCheck 0 = none ∧ (base []).plat.wordCheck 4 = none ∧
    refusal (exec (.barrierInit ⟨1, 4, 8⟩ 2) (base [])) = some .misalignedWord ∧
    refusal (exec (.barrierEnter ⟨0, 6, 8⟩) (barrierAt .start 0 1 0)) = some .misalignedWord ∧
    refusal (exec (.barrierInit ⟨0, 4, 11⟩ 2) (base [])) = some .misalignedWord ∧
    refusal (exec (.barrierEnter ⟨0, 4, 0x50000000⟩) (base [])) = some .notSharedMemory := by decide
theorem witness_barrierInitialises : (⟨0, 4, 8⟩ : Barrier).wf = true ∧ (base []).plat.barrierCheck ⟨0, 4, 8⟩ = none ∧
    (base []).self.pc = .start := by decide
theorem witness_barrierArrivalWaits : (barrierAt .start 0 1 0).plat.barrierCheck ⟨0, 4, 8⟩ = none ∧
    findCapacity (barrierAt .start 0 1 0).barriers ⟨0, 4, 8⟩ = some 2 ∧ (barrierAt .start 0 1 0).semCheck 4 = none ∧
    (barrierAt .start 0 1 0).self.pc = .start ∧ (barrierAt .start 0 1 0).loadWord 4 ≠ 0 ∧
    (barrierAt .start 0 1 0).loadWord 0 ≠ 2 - 1 := by decide
theorem witness_barrierLastArrival : (barrierAt .start 1 1 0).semCheck 4 = none ∧
    (barrierAt .start 1 1 0).semCheck 8 = none ∧ (barrierAt .start 1 1 0).loadWord 4 ≠ 0 ∧
    (barrierAt .start 1 1 0).loadWord 0 = 2 - 1 ∧
    ((barrierAt .start 1 1 0).loadWord 8).toNat + ((2 : Word).toNat - 1) < 2 ^ 32 := by decide
theorem witness_barrierWaiterLeaves : (barrierAt .b8w1 0 1 1).self.pc = .b8w1 ∧
    (barrierAt .b8w1 0 1 1).semCheck 8 = none ∧ (barrierAt .b8w1 0 1 1).loadWord 8 ≠ 0 ∧
    (barrierAt .b8w1 1 1 0).loadWord 8 = 0 ∧ findCapacity (base []).barriers ⟨0, 4, 8⟩ = none := by decide
/-- An operation that stores, one that logs, one that reads a channel, and the two bytes at the edges of a store. -/
theorem witness_wholeMachine : (∃ t, exec (.cas32 0x100 1 0) (base (countIs 1)) = .next t) ∧
    storesTo (.cas32 0x100 1 0) (base (countIs 1)) = some (0x100, 4) ∧
    (∃ t, exec (.badWr .acc0 2 0) (base []) = .next t) ∧
    (∃ t, exec (.rdA .acc0) (waiting [126] [222] [-24]) = .next t) := by
  refine ⟨⟨_, rfl⟩, by decide, ⟨_, rfl⟩, ⟨_, rfl⟩⟩
theorem witness_invariantKept : (turn [requestOf (.semWait 0x100)] (base (countIs 2))).inv = true ∧
    ∃ t, step (turn [requestOf (.semWait 0x100)] (base (countIs 2))) = .next t := ⟨by decide, ⟨_, rfl⟩⟩
/-- A copy from memory to the read-only register 0x0c, and one from the write-only register 0x04, each log their own
direction and offset. -/
theorem witness_copyDiagnostics :
    (after (exec .dmaOpCopy (copying .copyWrite ⟨0x100, 0x50000008, 8, 4, 0⟩ (base []))) (base [])).log
      = [⟨.acc0, 0x0c, .write⟩] ∧
    (after (exec .dmaOpCopy (copying .copyRead ⟨0x60000004, 0x100, 4, 0, 0⟩ (base []))) (base [])).log
      = [⟨.acc1, 0x04, .read⟩] := by decide
theorem witness_enabledEngine : queued.inv = true ∧ (queued.inst .acc0).engineEnabled = true ∧
    (turn [requestLd 0] queued).nextAgent ≠ .engine .acc0 ∧ ∃ t, step (turn [requestLd 0] queued) = .next t :=
  ⟨by decide, by decide, by decide, ⟨_, rfl⟩⟩

/-! ### A weakly fair endless run in which a read waits for its result -/

/-- Instance 0 with one operation queued, worker 0 waiting for its first result. -/
def fairStart : State :=
  { (base []).setInst .acc0 ⟨[256], [0], [7680], [], [], [], .idle⟩ with
    worker0 := { Worker.reset with cur := some (.rdA .acc0) } }

/-- The engine's turn first, then worker 0's for ever. -/
def fairSchedule (n : Nat) : Agent :=
  match n with
  | 0 => .engine .acc0
  | _ + 1 => .worker .w0

/-- No software beyond what the workers start with. -/
def noMore (_ : Nat) (_ : WorkerId) : List Request := []

def fairRun : Nat → State
  | 0 => fairStart
  | n + 1 => after (stepOf (fairSchedule n) (fairRun n)) (fairRun n)

/-- Nobody has anything left to do. -/
def quiet (s : State) : Prop :=
  s.worker0.cur = none ∧ s.worker0.script = [] ∧ s.worker1 = Worker.reset ∧ s.inst0.engineEnabled = false ∧
    s.inst1.engineEnabled = false

theorem fairRun_quiet (n : Nat) : quiet (fairRun (n + 2)) := by
  induction n with
  | zero => exact ⟨by decide, by decide, by decide, by decide, by decide⟩
  | succ n ih =>
    have h : stepOf (.worker .w0) (fairRun (n + 2)) = .next { fairRun (n + 2) with turns := _, active := _ } :=
      stepOf_idle ih.1 ih.2.1
    rw [fairRun, fairSchedule, h]
    exact ih

theorem quiet_disabled {s : State} (h : quiet s) (a : Agent) : s.agentEnabled a = false := by
  obtain ⟨h0, h1, h2, h3, h4⟩ := h
  cases a with
  | worker w => cases w <;> simp [State.agentEnabled, State.workerEnabled, State.worker, h0, h1, h2, Worker.reset]
  | engine k => cases k <;> simp [State.agentEnabled, State.inst, h3, h4]

/-- The run is endless, its schedule is weakly fair, it starts in a state that meets the invariant with the engine
enabled and the read waiting, and worker 1 neither holds the bus nor has a turn. -/
theorem witness_fairRun : IsRun fairSchedule noMore fairRun ∧ WeaklyFair fairSchedule fairRun ∧ (fairRun 0).inv = true ∧
    (fairRun 0).inst .acc0 = ⟨256 :: [], 0 :: [], 7680 :: [], [], [], [], .idle⟩ ∧ ((fairRun 0).worker .w0).cur = some (.rdA .acc0) ∧
    (∀ m, (fairRun m).busStopped .w0 = false) ∧
    (∀ m, fairSchedule m ≠ .worker (otherWorker .w0)) := by
  refine ⟨fun n => ?_, fun a n h => ?_, by decide, by decide, by decide, fun m => ?_, fun m => ?_⟩
  · refine ⟨fairRun (n + 1), ?_, (State.supplied_nothing _).symm⟩
    match n with
    | 0 => rfl
    | 1 => rfl
    | n + 2 =>
      have h := stepOf_idle (w := .w0) (fairRun_quiet n).1 (fairRun_quiet n).2.1
      show _ = Host.Outcome.next (after (stepOf (.worker .w0) (fairRun (n + 2))) (fairRun (n + 2)))
      exact h.trans (by rw [h]; rfl)
  · have h' := h (n + 2) (by omega)
    rw [quiet_disabled (fairRun_quiet n) a] at h'
    cases h'
  · match m with
    | 0 => decide
    | 1 => decide
    | m + 2 => simp [State.busStopped, State.blockedRead, otherWorker, State.worker, (fairRun_quiet m).2.2.1, Worker.reset]
  · cases m <;> simp [fairSchedule, otherWorker]

end Sys2Proof.Tests
end

section
/-! The accelerator's decoder by direction and offset, the dispatch of a worker's request by bus address, and the two
statements about them (30_encoding.md, R63 and R64). -/

namespace Sys2Proof

/-! ### The accelerator's decoder (R64) -/

/-- The write half of the table: three registers, every other offset a misuse. -/
theorem decodeAcc_write (k : InstId) (off data : Word) :
    decodeAcc k .write off data =
      if off = 0x00 then .wrA k data else if off = 0x04 then .wrB k data
      else if off = 0x08 then .wrZ k data else .badWr k off data := by
  simp only [decodeAcc, accOp]
  split_ifs <;> rfl

/-- The read half of the table; the data field is no input. -/
theorem decodeAcc_read (k : InstId) (off data : Word) :
    decodeAcc k .read off data =
      if off = 0x0c then .rdA k else if off = 0x10 then .rdB k
      else if off = 0x14 then .rdZ k else .badRd k off := by
  simp only [decodeAcc, accOp]
  split_ifs <;> rfl

end Sys2Proof

namespace Sys2Proof.Machine

variable {s t : State} {w : WorkerId}

/-! ### What the plan of a turn comes to -/

theorem step_of_plan_run {i : Instr} (h : plan s = .run i t) : step s = exec i t := by simp [step, h]

theorem step_of_plan_settle {o : Result} (h : plan s = .settle o) : step s = o := by simp [step, h]

/-- The count of turns and the choice of the worker have no part in whether the bus is held. -/
@[simp] theorem State.busStopped_setActive_tick (s : State) (w x : WorkerId) :
    (s.tick.setActive w).busStopped x = s.busStopped x := rfl

/-- A worker with nothing outstanding issues its next request, taken off its script, unless the bus it needs is
held. -/
theorem plan_of_request {r : Request} {rest : List Request} (hw : s.nextAgent = .worker w)
    (hc : (s.worker w).cur = none) (hs : (s.worker w).script = r :: rest)
    (hb : (requestUsesBus r && s.busStopped w) = false) :
    plan s = issue r ((s.tick.setActive w).setWorker w { s.worker w with script := rest }) := by
  simp [plan, hw, planWorker, hc, hs, hb, State.setSelf]

/-- Taking a turn and a request off the worker's script changes the worker and the schedule. -/
theorem frame_taken (s : State) (w : WorkerId) (v : Worker) :
    Frame s ((s.tick.setActive w).setWorker w v) [.worker w, .schedule] := by
  intro p hp
  cases p with
  | worker x =>
    have hx : x ≠ w := by simpa using hp
    simp [samePart, hx]
  | schedule => simp at hp
  | _ => simp [samePart]

/-! ### A transaction by bus address (R63) -/

variable {dir : Dir} {addr data : Word}

theorem issueBus_acc {k : InstId} (h : s.plat.deviceAt addr.toNat = .acc k) :
    issueBus dir addr 4 data s = .run (decodeAcc k dir (addr - s.plat.accBase k) data) s := by
  simp [issueBus, h]

theorem issueBus_dma (h : s.plat.deviceAt addr.toNat = .dma) :
    issueBus dir addr 4 data s = .run (decodeDma dir (addr - s.plat.dmaBase) data) s := by
  simp [issueBus, h]

/-- What no device's range holds is shared memory or nothing of this machine. -/
theorem Platform.deviceAt_outside {p : Platform} {a : Nat} (hk : ∀ k, p.inWindow k a = false)
    (hd : p.inDma a = false) : p.deviceAt a = .memory ∨ p.deviceAt a = .nowhere := by
  by_cases hm : within a p.memBase p.memSize = true <;> simp [Platform.deviceAt, hk, hd, hm]

/-- A transaction outside every device is no operation of the block: where it answers a next state, that is a load or
store of the worker's own. -/
theorem issueBus_outside {len : Nat} (hk : ∀ k, s.plat.inWindow k addr.toNat = false)
    (hd : s.plat.inDma addr.toNat = false) :
    ∃ o, issueBus dir addr len data s = .settle o ∧ ∀ t, o = .next t → Frame s t [.memory, .worker s.active] := by
  rcases Platform.deviceAt_outside hk hd with h | h
  · exact ⟨memoryAccess dir addr.toNat len data s, by simp only [issueBus, h], fun _ => frame_memoryAccess⟩
  · exact ⟨.fault .outsideMemory, by simp only [issueBus, h], fun _ ht => by cases ht⟩

end Sys2Proof.Machine

open Sys2Proof Sys2Proof.Machine

/-- Settles O7. The plan of the turn is `issueBus` on the state with the request taken off; on a platform that meets
R46 the address then determines the device, and outside every device only memory and the worker can change. -/
theorem stepDispatchesByAddress : Obligations.StepDispatchesByAddress := by
  intro s w dir addr data rest hok hw hc hs hb
  have hplan : plan s =
      issueBus dir addr 4 data ((s.tick.setActive w).setWorker w { s.worker w with script := rest }) :=
    plan_of_request hw hc hs (by simp [hb])
  refine ⟨fun k hlo hhi => ?_, fun hlo hhi => ?_, fun hk hd t ht => ?_⟩
  · rw [issueBus_acc (by simpa using Platform.deviceAt_window hok ⟨hlo, hhi⟩)] at hplan
    simpa using step_of_plan_run hplan
  · rw [issueBus_dma (by simpa using Platform.deviceAt_dma hok ⟨hlo, hhi⟩)] at hplan
    simpa using step_of_plan_run hplan
  · obtain ⟨o, ho, hframe⟩ := issueBus_outside (dir := dir) (addr := addr) (data := data) (len := 4)
      (s := (s.tick.setActive w).setWorker w { s.worker w with script := rest })
      (fun k => by simpa [Platform.inWindow, within] using hk k)
      (by simpa [Platform.inDma, within, dmaBytes] using hd)
    have hlast := hframe t ((step_of_plan_settle (hplan.trans ho)).symm.trans ht)
    have hf : Frame s t [.memory, .worker w, .schedule] :=
      ((frame_taken s w _).mono (by simp)).trans (hlast.mono (by simp))
    exact ⟨hf.inst (k := .acc0) (by simp), hf.inst (k := .acc1) (by simp), hf.dma (by simp), hf.log (by simp)⟩

/-- Settles O4. Of the statement's tests only those of the transaction's direction can hold, and these are its half of
the decoder's table, in order. -/
theorem acceleratorDecodeFirstMatch : Obligations.AcceleratorDecodeFirstMatch := by
  intro k cmd off data
  cases cmd with
  | write => simp [decodeAcc_write]
  | read => simp [decodeAcc_read]
end

section
/-! Reduction to 16 bits as arithmetic on integers, the sign tests as comparisons and as the sign bit, and the two
statements about negation and the sign tests (40_fixed_point.md section 2, R83 and R86). -/

namespace Sys2Proof.Machine

/-! ### Reduction to 16 bits (R6) -/

/-- R6 `wrap16`, by the spec's formula. -/
theorem toInt_wrap16 (n : Int) : (wrap16 n).toInt = (n + 32768) % 65536 - 32768 := by
  have h : (wrap16 n).toInt = n.bmod 65536 := BitVec.toInt_ofInt n
  rw [h, Int.bmod_def]
  omega

/-- An integer that fits in 16 bits is kept. -/
theorem toInt_wrap16_of_fits {n : Int} (hlo : -32768 ≤ n) (hhi : n ≤ 32767) : (wrap16 n).toInt = n := by
  rw [toInt_wrap16]
  omega

/-- The range of a raw value. -/
theorem toInt_fits (a : Fx) : -32768 ≤ a.toInt ∧ a.toInt ≤ 32767 :=
  ⟨a.le_toInt, Int.le_of_lt_add_one a.toInt_lt⟩

/-! ### Negation (R83) -/

theorem toInt_fxNeg (a : Fx) : (fxNeg a).toInt = (-a.toInt + 32768) % 65536 - 32768 := toInt_wrap16 _

/-- Of the negations of raw values only +32768 does not fit. -/
theorem toInt_fxNeg_of_ne {a : Fx} (h : a.toInt ≠ -32768) : (fxNeg a).toInt = -a.toInt := by
  obtain ⟨hlo, hhi⟩ := toInt_fits a
  exact toInt_wrap16_of_fits (by omega) (by omega)

/-! ### The sign tests (R86) -/

variable (a : Fx)

@[simp] theorem nonNegative_iff : nonNegative a = true ↔ 0 ≤ a.toInt := decide_eq_true_iff
@[simp] theorem negative_iff : negative a = true ↔ a.toInt < 0 := decide_eq_true_iff
@[simp] theorem aboveNinety_iff : aboveNinety a = true ↔ 11520 < a.toInt := decide_eq_true_iff
@[simp] theorem belowMinusNinety_iff : belowMinusNinety a = true ↔ a.toInt < -11520 := decide_eq_true_iff

/-- The two tests against zero exclude each other and leave nothing out. -/
theorem nonNegative_eq_not_negative : nonNegative a = !negative a := by
  rw [Bool.eq_iff_iff, Bool.not_eq_true', ← Bool.not_eq_true, nonNegative_iff, negative_iff, Int.not_lt]

/-- Bit 15 is the sign of the raw integer. -/
theorem negative_eq_signBit : negative a = a.getLsbD 15 :=
  calc negative a = a.msb := BitVec.msb_eq_toInt.symm
    _ = a.getLsbD 15 := a.msb_eq_getLsbD_last

end Sys2Proof.Machine

open Sys2Proof Sys2Proof.Machine

/-- Settles O12. Every negation is the integer's reduced to 16 bits, which fits for every raw value but -32768; the
three values named are then computed. -/
theorem fixedNegation : Obligations.FixedNegation :=
  ⟨toInt_fxNeg, fun _ => toInt_fxNeg_of_ne, by decide, by decide, by decide⟩

/-- Settles O13. The tests are comparisons of the signed integer, whose sign is bit 15. -/
theorem signTests : Obligations.SignTests := by
  intro a
  have hbit : nonNegative a = true ↔ a.getLsbD 15 = false := by
    rw [nonNegative_eq_not_negative, negative_eq_signBit, Bool.not_eq_true']
  exact ⟨nonNegative_iff a, hbit, negative_iff a, by rw [negative_eq_signBit], by decide, aboveNinety_iff a,
    belowMinusNinety_iff a⟩
end

section
/-! A write to no register of the accelerator: which offsets decode to it, what it leaves behind, and the statement
about it (42_transaction_interface.md section 4, R127). -/

namespace Sys2Proof

/-- Of the write half of the table only the last entry is a misuse. -/
theorem decodeAcc_write_eq_badWr_iff (k : InstId) (off w : Word) :
    decodeAcc k .write off w = .badWr k off w ↔ off ≠ 0x00 ∧ off ≠ 0x04 ∧ off ≠ 0x08 := by
  rw [decodeAcc_write]
  split_ifs with hA hB hZ
  · simp [hA]
  · simp [hB]
  · simp [hZ]
  · exact iff_of_true rfl ⟨hA, hB, hZ⟩

end Sys2Proof

namespace Sys2Proof.Machine

/-- Retiring an operation after an effect `u` that left the worker alone gives the worker its result. -/
theorem returns_retire {s u : State} (h : u.self = s.self) (r : Ret) : returns s (u.retire r) r := by
  simp [returns, h]

theorem exec_badWr (k : InstId) (off w : Word) (s : State) :
    exec (.badWr k off w) s = .next ((badWrite k off s).retire .ok) := rfl

@[simp] theorem log_badWrite (k : InstId) (off : Word) (s : State) :
    (badWrite k off s).log = s.log ++ [⟨k, off, .write⟩] := rfl

@[simp] theorem self_badWrite (k : InstId) (off : Word) (s : State) : (badWrite k off s).self = s.self :=
  State.self_diag s k off .write

end Sys2Proof.Machine

open Sys2Proof Sys2Proof.Machine

/-- Settles O25. The operation is the diagnostic, which touches the log alone, and then the retirement of the worker's
operation. -/
theorem badWriteLogsAndDiscards : Obligations.BadWriteLogsAndDiscards := by
  refine ⟨decodeAcc_write_eq_badWr_iff, fun k off w s => ?_⟩
  have hexec := exec_badWr k off w s
  exact ⟨_, hexec, returns_retire (self_badWrite k off s) .ok, by simp, frame_execBadWr k off hexec⟩
end

section
/-! The operation code that starts no copy, and the statement about it (44_bulk_transfer.md, R174). -/

namespace Sys2Proof.Machine

theorem exec_dmaOpNop (s : State) : exec .dmaOpNop s = .next ((s.setDma { s.dma with op := 0 }).retire .ok) := rfl

/-- Of the trigger registers only the operation code is written. -/
theorem dma_dmaOpNop (s : State) :
    ((s.setDma { s.dma with op := 0 }).retire .ok).dma = ⟨s.dma.src, s.dma.dst, s.dma.len, 0⟩ := by
  rw [State.dma_retire, State.dma_setDma]

end Sys2Proof.Machine

open Sys2Proof Sys2Proof.Machine

/-- Settles O31. The operation stores the registers with operation code 0 and retires; that nothing is copied is its
frame, which leaves memory and both instances as they were. -/
theorem bulkNoOperation : Obligations.BulkNoOperation := by
  refine ⟨by decide, fun s => ?_⟩
  have hexec := exec_dmaOpNop s
  have hdma := dma_dmaOpNop s
  exact ⟨_, hexec, returns_retire (s.self_setDma _) .ok, by rw [hdma], by rw [hdma], by rw [hdma], by rw [hdma],
    frame_execDmaOpNop hexec⟩
end

section
/-! Descriptors in bytes: packing and unpacking are inverse, for each format, and the statements that the decoder and
the encoder are (30_encoding.md sections 1 and 2). -/

namespace Sys2Proof

open Sys2Proof.Machine (le4_byteAt le2_bytes2)

/-! ### Unpacking what was packed -/

theorem busFields_busBytes (cmd : Dir) (off data : Word) :
    busFields (busBytes cmd off data) = .ok (cmd, off, data) := by
  cases cmd <;> simp [busFields, busBytes, bytes4, cmdByte]

theorem wordsOf_bytes4 (args : List Word) : wordsOf (args.map bytes4).flatten = some args := by
  induction args with
  | nil => rfl
  | cons w rest ih => simp [bytes4, wordsOf, ih]

theorem decode_acc_busBytes (k : InstId) (cmd : Dir) (off data : Word) :
    decode (.acc k) (busBytes cmd off data) = .ok (decodeAcc k cmd off data) := by
  simp only [decode, busFields_busBytes]

theorem decode_dma_busBytes (cmd : Dir) (off data : Word) :
    decode .dma (busBytes cmd off data) = .ok (decodeDma cmd off data) := by
  simp only [decode, busFields_busBytes]

theorem decode_prim_primBytes (sel : Byte) (args : List Word) :
    decode .prim (primBytes sel args) = primOf sel.toNat args := by
  simp only [decode, decodePrim, primBytes, wordsOf_bytes4]

theorem decode_eng_rotate (x y t : Fx) :
    decode .eng (0 :: (bytes2 x ++ bytes2 y ++ bytes2 t)) = .ok (.rotate x y t) := by
  simp [decode, decodeEng, bytes2]

theorem decode_eng_vector (x y t : Fx) :
    decode .eng (1 :: (bytes2 x ++ bytes2 y ++ bytes2 t)) = .ok (.vector x y t) := by
  simp [decode, decodeEng, bytes2]

/-! ### The decoders on what the encoder gives them -/

theorem isWriteReg_eq_false_iff {off : Word} : isWriteReg off = false ↔ off ≠ 0x00 ∧ off ≠ 0x04 ∧ off ≠ 0x08 := by
  simp only [isWriteReg, Bool.or_eq_false_iff, beq_eq_false_iff_ne, and_assoc]

theorem isReadReg_eq_false_iff {off : Word} : isReadReg off = false ↔ off ≠ 0x0c ∧ off ≠ 0x10 ∧ off ≠ 0x14 := by
  simp only [isReadReg, Bool.or_eq_false_iff, beq_eq_false_iff_ne, and_assoc]

theorem isDmaForm_write_eq_false_iff {off data : Word} : isDmaForm .write off data = false ↔
    off ≠ 0x00 ∧ off ≠ 0x04 ∧ off ≠ 0x08 ∧ ¬(off = 0x0c ∧ data = 0) ∧ ¬(off = 0x0c ∧ data = 1) := by
  simp only [isDmaForm, beq_self_eq_true, Bool.true_and, Bool.or_eq_false_iff, Bool.and_eq_false_iff,
    beq_eq_false_iff_ne]
  tauto

/-- Of the read half of the table only the last entry is a misuse. -/
theorem decodeAcc_read_eq_badRd_iff (k : InstId) (off w : Word) :
    decodeAcc k .read off w = .badRd k off ↔ off ≠ 0x0c ∧ off ≠ 0x10 ∧ off ≠ 0x14 := by
  rw [decodeAcc_read]
  split_ifs with hA hB hZ
  · simp [hA]
  · simp [hB]
  · simp [hZ]
  · exact iff_of_true rfl ⟨hA, hB, hZ⟩

/-- A transaction to the bulk transfer block that has none of the five forms is reserved. -/
theorem decodeDma_reserved {cmd : Dir} {off data : Word} (h : isDmaForm cmd off data = false) :
    decodeDma cmd off data = .dmaReserved cmd off data := by
  cases cmd with
  | read => rfl
  | write =>
    obtain ⟨hsrc, hdst, hlen, hnop, hcopy⟩ := isDmaForm_write_eq_false_iff.1 h
    simp only [decodeDma, if_neg hsrc, if_neg hdst, if_neg hlen, if_neg hnop, if_neg hcopy]

/-! ### Packing what was unpacked -/

theorem bytes4_le4 (b0 b1 b2 b3 : Byte) : bytes4 (le4 b0 b1 b2 b3) = [b0, b1, b2, b3] := by
  simp only [bytes4, byteAt, le4, List.cons.injEq, and_true]
  refine ⟨?_, ?_, ?_, ?_⟩ <;> refine BitVec.eq_of_getLsbD_eq fun i hi => ?_ <;>
    simp only [BitVec.getLsbD_extractLsb', BitVec.getLsbD_append] <;> interval_cases i <;> simp

theorem bytes2_le2 (b0 b1 : Byte) : bytes2 (le2 b0 b1) = [b0, b1] := by
  simp only [bytes2, le2, List.cons.injEq, and_true]
  refine ⟨?_, ?_⟩ <;> refine BitVec.eq_of_getLsbD_eq fun i hi => ?_ <;>
    simp only [BitVec.getLsbD_extractLsb', BitVec.getLsbD_append] <;> interval_cases i <;> simp

theorem busBytes_of_busFields {bytes : List Byte} {cmd : Dir} {off data : Word}
    (h : busFields bytes = .ok (cmd, off, data)) : busBytes cmd off data = bytes := by
  simp only [busFields] at h
  split at h
  · split_ifs at h with hr hw <;> simp only [Except.ok.injEq, Prod.mk.injEq] at h <;>
      obtain ⟨rfl, rfl, rfl⟩ := h <;> simp [busBytes, bytes4_le4, cmdByte, *]
  · simp at h

theorem decode_acc_eq_ok {k : InstId} {bytes : List Byte} {i : Instr} (h : decode (.acc k) bytes = .ok i) :
    ∃ cmd off data, decodeAcc k cmd off data = i ∧ busBytes cmd off data = bytes := by
  simp only [decode] at h
  split at h
  · rename_i cmd off data hf
    exact ⟨cmd, off, data, by simpa using h, busBytes_of_busFields hf⟩
  · simp at h

theorem decode_dma_eq_ok {bytes : List Byte} {i : Instr} (h : decode .dma bytes = .ok i) :
    ∃ cmd off data, decodeDma cmd off data = i ∧ busBytes cmd off data = bytes := by
  simp only [decode] at h
  split at h
  · rename_i cmd off data hf
    exact ⟨cmd, off, data, by simpa using h, busBytes_of_busFields hf⟩
  · simp at h

theorem decode_internal_eq_ok {k : InstId} {bytes : List Byte} {i : Instr} (h : decode (.internal k) bytes = .ok i) :
    i = .engineStep k ∧ bytes = [] := by
  simp only [decode] at h
  split_ifs at h with hb
  simp only [Except.ok.injEq] at h
  exact ⟨h.symm, hb⟩

theorem bytes4_of_wordsOf {bytes : List Byte} {args : List Word} (h : wordsOf bytes = some args) :
    (args.map bytes4).flatten = bytes := by
  induction bytes using wordsOf.induct generalizing args with
  | case1 =>
    simp only [wordsOf, Option.some.injEq] at h
    subst h
    rfl
  | case2 b0 b1 b2 b3 rest ih =>
    simp only [wordsOf, Option.map_eq_some_iff] at h
    obtain ⟨words, hrest, rfl⟩ := h
    simp [bytes4_le4, ih hrest]
  | case3 bytes hnil hcons => simp [wordsOf] at h

theorem primBytes_of_decodePrim {bytes : List Byte} {i : Instr} (h : decodePrim bytes = .ok i) :
    ∃ sel args, primOf sel.toNat args = .ok i ∧ primBytes sel args = bytes := by
  simp only [decodePrim] at h
  split at h
  · simp at h
  · rename_i sel rest
    split at h
    · rename_i args hargs
      exact ⟨sel, args, h, by rw [primBytes, bytes4_of_wordsOf hargs]⟩
    · simp at h

/-! ### The encoder on what the decoders give it -/

theorem encode_decodeAcc_write (k : InstId) (off data : Word) :
    encode (decodeAcc k .write off data) = (.acc k, busBytes .write off data) := by
  rw [decodeAcc_write]
  split_ifs with hA hB hZ <;> simp [encode, *]

/-- A read decodes to one of the four operations whose data field is no input. -/
theorem decodeAcc_read_cases (k : InstId) (off data : Word) :
    decodeAcc k .read off data = .rdA k ∨ decodeAcc k .read off data = .rdB k ∨
      decodeAcc k .read off data = .rdZ k ∨ decodeAcc k .read off data = .badRd k off := by
  rw [decodeAcc_read]
  split_ifs <;> simp

theorem encode_decodeDma (cmd : Dir) (off data : Word) :
    encode (decodeDma cmd off data) = (.dma, busBytes cmd off data) := by
  cases cmd with
  | read => rfl
  | write =>
    simp only [decodeDma]
    split_ifs with hsrc hdst hlen hnop hcopy <;> simp [encode, *]

theorem encode_of_decodeEng {bytes : List Byte} {i : Instr} (h : decodeEng bytes = .ok i) :
    encode i = (.eng, bytes) := by
  simp only [decodeEng] at h
  split at h
  · split_ifs at h with hr hv <;> simp only [Except.ok.injEq] at h <;> subst h <;>
      simp [encode, bytes2_le2, *]
  · simp at h

/-- The nine selectors and the number of arguments each has. -/
theorem encode_of_primOf {sel : Byte} {args : List Word} {i : Instr} (h : primOf sel.toNat args = .ok i) :
    encode i = (.prim, primBytes sel args) := by
  have hsel : ∀ n : Nat, sel.toNat = n → sel = BitVec.ofNat 8 n := by
    rintro n rfl
    simp
  simp only [primOf] at h
  split at h
  case h_10 => split_ifs at h
  all_goals
    simp only [Except.ok.injEq] at h
    subst h
    rw [hsel _ (by assumption)]
    rfl

/-! ### Well-formed operands -/

theorem decodeAcc_wf (k : InstId) (cmd : Dir) (off data : Word) : (decodeAcc k cmd off data).wf = true := by
  cases cmd with
  | write =>
    rw [decodeAcc_write]
    split_ifs with hA hB hZ
    · rfl
    · rfl
    · rfl
    · simp [Instr.wf, isWriteReg_eq_false_iff.2 ⟨hA, hB, hZ⟩]
  | read =>
    rw [decodeAcc_read]
    split_ifs with hA hB hZ
    · rfl
    · rfl
    · rfl
    · simp [Instr.wf, isReadReg_eq_false_iff.2 ⟨hA, hB, hZ⟩]

theorem decodeDma_wf (cmd : Dir) (off data : Word) : (decodeDma cmd off data).wf = true := by
  cases cmd with
  | read => rfl
  | write =>
    simp only [decodeDma]
    split_ifs with hsrc hdst hlen hnop hcopy
    · rfl
    · rfl
    · rfl
    · rfl
    · rfl
    · simp [Instr.wf, isDmaForm_write_eq_false_iff.2 ⟨hsrc, hdst, hlen, hnop, hcopy⟩]

theorem decodeEng_wf {bytes : List Byte} {i : Instr} (h : decodeEng bytes = .ok i) : i.wf = true := by
  simp only [decodeEng] at h
  split at h
  · split_ifs at h <;> simp only [Except.ok.injEq] at h <;> subst h <;> rfl
  · simp at h

end Sys2Proof

open Sys2Proof Sys2Proof.Machine

/-- Settles O1. Each descriptor is a list of literal bytes. -/
theorem descriptorWordsDecode : Obligations.DescriptorWordsDecode := by
  unfold Obligations.DescriptorWordsDecode
  decide

/-- Settles O2. Each format's bytes unpack to the fields that were packed; what is left is the format's table, read at
the entry the operation was encoded with. For the two misuse forms and the reserved form that is the last entry, since
well-formedness shuts out the others. -/
theorem decodeOfEncode : Obligations.DecodeOfEncode := by
  intro i hi
  cases i with
  | wrA k w => exact decode_acc_busBytes k .write 0x00 w
  | wrB k w => exact decode_acc_busBytes k .write 0x04 w
  | wrZ k w => exact decode_acc_busBytes k .write 0x08 w
  | rdA k => exact decode_acc_busBytes k .read 0x0c 0
  | rdB k => exact decode_acc_busBytes k .read 0x10 0
  | rdZ k => exact decode_acc_busBytes k .read 0x14 0
  | badWr k off w =>
    have hoff : isWriteReg off = false := by simpa [Instr.wf] using hi
    have hdec := (decodeAcc_write_eq_badWr_iff k off w).2 (isWriteReg_eq_false_iff.1 hoff)
    exact (decode_acc_busBytes k .write off w).trans (congrArg _ hdec)
  | badRd k off =>
    have hoff : isReadReg off = false := by simpa [Instr.wf] using hi
    have hdec := (decodeAcc_read_eq_badRd_iff k off 0).2 (isReadReg_eq_false_iff.1 hoff)
    exact (decode_acc_busBytes k .read off 0).trans (congrArg _ hdec)
  | engineStep k => rfl
  | rotate x y t => exact decode_eng_rotate x y t
  | vector x y t => exact decode_eng_vector x y t
  | dmaSrc v => exact decode_dma_busBytes .write 0x00 v
  | dmaDst v => exact decode_dma_busBytes .write 0x04 v
  | dmaLen v => exact decode_dma_busBytes .write 0x08 v
  | dmaOpNop => exact decode_dma_busBytes .write 0x0c 0
  | dmaOpCopy => exact decode_dma_busBytes .write 0x0c 1
  | dmaReserved cmd off data =>
    have hform : isDmaForm cmd off data = false := by simpa [Instr.wf] using hi
    exact (decode_dma_busBytes cmd off data).trans (congrArg _ (decodeDma_reserved hform))
  | cas32 addr expect new => exact decode_prim_primBytes 8 _
  | semInit s n => exact decode_prim_primBytes 0 _
  | semWait s => exact decode_prim_primBytes 1 _
  | semPost s => exact decode_prim_primBytes 2 _
  | mutexInit m => exact decode_prim_primBytes 3 _
  | mutexLock m => exact decode_prim_primBytes 4 _
  | mutexUnlock m => exact decode_prim_primBytes 5 _
  | barrierInit b capacity => exact decode_prim_primBytes 6 _
  | barrierEnter b => exact decode_prim_primBytes 7 _

/-- Settles O3. Each format's fields are packed again to the bytes they were unpacked from, and the encoder writes the
entry of the table that the decoder read; the reads of the accelerator are those shut out. -/
theorem encodeOfDecode : Obligations.EncodeOfDecode := by
  intro t bytes i h hread
  cases t with
  | acc k =>
    obtain ⟨cmd, off, data, rfl, rfl⟩ := decode_acc_eq_ok h
    cases cmd with
    | write => exact encode_decodeAcc_write k off data
    | read =>
      obtain ⟨hA, hB, hZ, hbad⟩ := hread k off
      rcases decodeAcc_read_cases k off data with e | e | e | e
      · exact absurd e hA
      · exact absurd e hB
      · exact absurd e hZ
      · exact absurd e hbad
  | dma =>
    obtain ⟨cmd, off, data, rfl, rfl⟩ := decode_dma_eq_ok h
    exact encode_decodeDma cmd off data
  | eng => exact encode_of_decodeEng h
  | prim =>
    obtain ⟨sel, args, hi, rfl⟩ := primBytes_of_decodePrim h
    exact encode_of_primOf hi
  | internal k =>
    obtain ⟨rfl, rfl⟩ := decode_internal_eq_ok h
    rfl

/-- Settles O5. Each entry of a device's table has operands its rule admits, the last one because the others before it
did not match. -/
theorem decodedOperationsWellFormed : Obligations.DecodedOperationsWellFormed := by
  intro t bytes i h hprim
  cases t with
  | acc k =>
    obtain ⟨cmd, off, data, rfl, _⟩ := decode_acc_eq_ok h
    exact decodeAcc_wf k cmd off data
  | dma =>
    obtain ⟨cmd, off, data, rfl, _⟩ := decode_dma_eq_ok h
    exact decodeDma_wf cmd off data
  | eng => exact decodeEng_wf h
  | prim => exact absurd rfl hprim
  | internal k =>
    obtain ⟨rfl, _⟩ := decode_internal_eq_ok h
    rfl
end

section
/-! The invariant is kept: by the parts of the state all agents share, by the worker whose operation is performed, and
so by every turn. -/

namespace Sys2Proof.Machine

variable {s t : State}

/-! ### The invariant, taken apart -/

/-- What the invariant says of the parts that all agents share. -/
structure State.SharedWf (s : State) : Prop where
  plat : s.plat.ok = true
  gain : s.plat.engine.ok = true
  memory : Memory.wf s.mem = true
  semWords : semWordsRise 0 s.semWords = true
  barriers : (s.barriers.all fun c => c.2 != 0) = true
  dma : s.dma.op = 0 ∨ s.dma.op = 1

theorem State.inv_iff : s.inv = true ↔ s.SharedWf ∧ ∀ w, (s.worker w).wf = true := by
  have hworkers : (∀ w, (s.worker w).wf = true) ↔ s.worker0.wf = true ∧ s.worker1.wf = true :=
    ⟨fun h => ⟨h .w0, h .w1⟩, fun h w => by cases w <;> [exact h.1; exact h.2]⟩
  simp only [State.inv, Bool.and_eq_true, Bool.or_eq_true, beq_iff_eq, hworkers]
  constructor
  · rintro ⟨⟨⟨⟨⟨⟨⟨hp, hg⟩, hm⟩, hs⟩, hb⟩, hd⟩, h0⟩, h1⟩
    exact ⟨⟨hp, hg, hm, hs, hb, hd⟩, h0, h1⟩
  · rintro ⟨⟨hp, hg, hm, hs, hb, hd⟩, h0, h1⟩
    exact ⟨⟨⟨⟨⟨⟨⟨hp, hg⟩, hm⟩, hs⟩, hb⟩, hd⟩, h0⟩, h1⟩

/-! ### The shared parts -/

theorem State.SharedWf.of_frame {l : List Part} (hs : s.SharedWf) (h : Frame s t l) (hp : Part.plat ∉ l)
    (hm : Part.memory ∉ l) (hw : Part.semWords ∉ l) (hb : Part.barriers ∉ l) (hd : Part.dma ∉ l) : t.SharedWf where
  plat := by rw [h.plat hp]; exact hs.plat
  gain := by rw [h.plat hp]; exact hs.gain
  memory := by rw [h.mem hm]; exact hs.memory
  semWords := by rw [h.semWords hw]; exact hs.semWords
  barriers := by rw [h.barriers hb]; exact hs.barriers
  dma := by rw [h.dma hd]; exact hs.dma

theorem State.SharedWf.setSelf (hs : s.SharedWf) (v : Worker) : (s.setSelf v).SharedWf :=
  hs.of_frame (frame_setSelf s v) (by simp) (by simp) (by simp) (by simp) (by simp)

theorem State.SharedWf.retire (hs : s.SharedWf) (r : Ret) : (s.retire r).SharedWf := hs.setSelf _

theorem State.SharedWf.goto (hs : s.SharedWf) (i : Instr) (l : Label) : (s.goto i l).SharedWf := hs.setSelf _

theorem State.SharedWf.setLocals (hs : s.SharedWf) (v : Locals) : (s.setLocals v).SharedWf := hs.setSelf _

theorem State.SharedWf.setCopy (hs : s.SharedWf) (v : Copy) : (s.setCopy v).SharedWf := hs.setSelf _

theorem State.SharedWf.storeByte {a : Nat} (hs : s.SharedWf) (b : Byte) (ha : a < addressSpace) :
    (s.storeByte a b).SharedWf :=
  { hs with memory := Memory.wf_putByte b hs.memory ha }

theorem State.SharedWf.storeBytes {a n : Nat} (hs : s.SharedWf) (v : Word) (ha : a + n ≤ addressSpace) :
    (s.storeBytes a v n).SharedWf := by
  induction n with
  | zero => exact hs
  | succ n ih => exact (ih (by omega)).storeByte _ (by omega)

theorem State.SharedWf.setDma (hs : s.SharedWf) {v : Dma} (hv : v.op = 0 ∨ v.op = 1) : (s.setDma v).SharedWf :=
  { hs with dma := hv }

/-- A word that passes the check of a primitive ends inside the address space. -/
theorem State.SharedWf.word_le {a : Word} (hs : s.SharedWf) (ha : s.plat.wordCheck a = none) :
    a.toNat + 4 ≤ addressSpace :=
  Platform.memoryRange_le hs.plat (Platform.wordCheck_none ha).2

theorem State.SharedWf.storeWord {a : Word} (hs : s.SharedWf) (v : Word) (ha : s.plat.wordCheck a = none) :
    (s.storeWord a.toNat v).SharedWf := hs.storeBytes v (hs.word_le ha)

theorem semWordsRise_listAddress {l : List Nat} {lo x : Nat} (h : semWordsRise lo l = true) (hlo : lo ≤ x)
    (hal : x % 4 = 0) (hx : x < addressSpace) : semWordsRise lo (listAddress l x) = true := by
  induction l generalizing lo with
  | nil => simp [listAddress, semWordsRise, hlo, hal, hx]
  | cons a rest ih =>
    simp only [semWordsRise, Bool.and_eq_true, decide_eq_true_eq] at h
    obtain ⟨⟨⟨ha, ha4⟩, hax⟩, hrest⟩ := h
    simp only [listAddress]
    split_ifs with hlt heq
    · simp only [semWordsRise, Bool.and_eq_true, decide_eq_true_eq]
      exact ⟨⟨⟨hlo, hal⟩, hx⟩, ⟨⟨by omega, ha4⟩, hax⟩, hrest⟩
    · simp only [semWordsRise, Bool.and_eq_true, decide_eq_true_eq]
      exact ⟨⟨⟨ha, ha4⟩, hax⟩, hrest⟩
    · simp only [semWordsRise, Bool.and_eq_true, decide_eq_true_eq]
      exact ⟨⟨⟨ha, ha4⟩, hax⟩, ih hrest (by omega)⟩

theorem State.SharedWf.initSem {a : Word} (hs : s.SharedWf) (n : Word) (ha : s.plat.wordCheck a = none) :
    (s.initSem a n).SharedWf :=
  { hs.storeWord n ha with
    semWords := semWordsRise_listAddress (hs.storeWord n ha).semWords (Nat.zero_le _)
      (by simpa [aligned4] using (Platform.wordCheck_none ha).1) a.isLt }

theorem all_putCapacity {p : Barrier × Word → Bool} {l : List (Barrier × Word)} {b : Barrier} {c : Word}
    (h : l.all p = true) (hc : p (b, c) = true) : (putCapacity l b c).all p = true := by
  induction l with
  | nil => simpa [putCapacity] using hc
  | cons e rest ih =>
    simp only [List.all_cons, Bool.and_eq_true] at h
    simp only [putCapacity]
    split_ifs <;> simp [h, hc, ih]

theorem State.SharedWf.setBarriers (hs : s.SharedWf) {b : Barrier} {c : Word} (hc : c ≠ 0) :
    (s.setBarriers (putCapacity s.barriers b c)).SharedWf :=
  { hs with barriers := all_putCapacity hs.barriers (by simpa using hc) }

/-! ### The worker -/

/-- A worker whose operation is complete has no invocation left (R22, R25). -/
@[simp] theorem Worker.wf_retire (v : Worker) (r : Ret) : (v.retire r).wf = true := rfl

/-- An outstanding operation of a worker: its local state and its copy fit the label. -/
theorem Worker.wf_of_outstanding {v : Worker} {i : Instr} (hc : v.cur = some i) (hi : ∀ k, i ≠ .engineStep k)
    (hl : snapshotOk v.pc v.locals = true) (hq : copyOk v.pc v.copy = true) : v.wf = true := by
  simp [Worker.wf, Worker.issuable, hc, hi, hl, hq]

theorem Worker.snapshotOk_of_wf {v : Worker} (h : v.wf = true) : snapshotOk v.pc v.locals = true := by
  simp only [Worker.wf, Bool.and_eq_true] at h
  exact h.1.2

theorem Worker.copyOk_of_wf {v : Worker} (h : v.wf = true) : copyOk v.pc v.copy = true := by
  simp only [Worker.wf, Bool.and_eq_true] at h
  exact h.2

/-! ### The state, but for the worker whose operation is not performed -/

structure State.ActiveWf (s : State) : Prop where
  shared : s.SharedWf
  self : s.self.wf = true

theorem State.SharedWf.activeWf_retire (hs : s.SharedWf) (r : Ret) : (s.retire r).ActiveWf :=
  ⟨hs.retire r, by simp⟩

/-- What a micro-step must show of the label it goes on to. -/
theorem State.SharedWf.activeWf_goto {i : Instr} {l : Label} (hs : s.SharedWf) (hi : ∀ k, i ≠ .engineStep k)
    (hl : snapshotOk l s.self.locals = true) (hq : copyOk l s.self.copy = true) : (s.goto i l).ActiveWf :=
  ⟨hs.goto i l, by rw [State.self_goto]; exact Worker.wf_of_outstanding rfl hi hl hq⟩

/-- What leaves the shared parts of the invariant and the worker alone keeps both. -/
theorem State.ActiveWf.of_frame {l : List Part} (hs : s.ActiveWf) (h : Frame s t l) (hp : Part.plat ∉ l)
    (hm : Part.memory ∉ l) (hw : Part.semWords ∉ l) (hb : Part.barriers ∉ l) (hd : Part.dma ∉ l)
    (hsched : Part.schedule ∉ l) (hself : Part.worker s.active ∉ l) : t.ActiveWf :=
  ⟨hs.shared.of_frame h hp hm hw hb hd, by rw [h.self hsched hself]; exact hs.self⟩

theorem State.inv_iff_activeWf : s.inv = true ↔ s.ActiveWf ∧ (s.worker (otherWorker s.active)).wf = true := by
  rw [State.inv_iff]
  constructor
  · exact fun h => ⟨⟨h.1, h.2 s.active⟩, h.2 _⟩
  · rintro ⟨⟨hshared, hself⟩, hother⟩
    refine ⟨hshared, fun w => ?_⟩
    simp only [State.self] at hself
    cases w <;> cases ha : s.active <;> simp_all [otherWorker]

/-! ### Reads and writes of an accelerator -/

theorem activeWf_finishRead {i : Instr} {r : Option (Word × State)} (hs : s.ActiveWf)
    (hi : ∀ k, i ≠ .engineStep k) (hr : ∀ w u, r = some (w, u) → u.SharedWf) (h : finishRead i s r = .next t) :
    t.ActiveWf := by
  simp only [finishRead] at h
  split at h <;> cases h
  · exact (hr _ _ rfl).activeWf_retire _
  · exact hs.shared.activeWf_goto hi rfl rfl

/-! ### Waits and posts (R142, R143) -/

/-- The labels that a wait goes between fit: W1 asks nothing, W2 asks for a snapshot that is not 0. -/
structure WaitLabels (l1 l2 : Label) : Prop where
  first : ∀ v, snapshotOk l1 v = true
  second : ∀ v, v.old ≠ 0 → snapshotOk l2 v = true
  copyFirst : ∀ q, copyOk l1 q = true
  copySecond : ∀ q, copyOk l2 q = true

/-- The labels that a post goes between fit the worker's local state: P1 whatever an attempt wrote, P2 with a snapshot
below the maximum. -/
structure PostLabels (l1 l2 : Label) (v : Locals) : Prop where
  first : ∀ b, snapshotOk l1 { v with ok := b } = true
  second : ∀ x, x ≠ 0xffffffff → snapshotOk l2 { v with old := x } = true
  copyFirst : ∀ q, copyOk l1 q = true
  copySecond : ∀ q, copyOk l2 q = true

theorem activeWf_waitStep {i : Instr} {a : Word} {l1 l2 : Label} {fin : State → State} (hs : s.ActiveWf)
    (hi : ∀ k, i ≠ .engineStep k) (hl : WaitLabels l1 l2) (hfin : ∀ u : State, u.SharedWf → (fin u).ActiveWf)
    (h : waitStep i a l1 l2 fin s = .next t) : t.ActiveWf := by
  rcases waitStep_cases i a l1 l2 fin s with ⟨_, _, e⟩ | ⟨_, _, e⟩ | ⟨hc, _, _, e⟩ | ⟨_, _, _, e⟩ <;>
    rw [e] at h <;> cases h
  · refine (hs.shared.setLocals _).activeWf_goto hi ?_ ?_
    · split_ifs with h0
      · exact hl.first _
      · exact hl.second _ (by simpa using h0)
    · split_ifs
      · exact hl.copyFirst _
      · exact hl.copySecond _
  · exact hfin _ ((hs.shared.storeWord _ (State.semCheck_none hc).1).setLocals _)
  · exact (hs.shared.setLocals _).activeWf_goto hi (hl.first _) (hl.copyFirst _)

theorem activeWf_postStep {i : Instr} {a : Word} {l1 l2 : Label} {fin : State → State} (hs : s.ActiveWf)
    (hi : ∀ k, i ≠ .engineStep k) (hl : PostLabels l1 l2 s.self.locals)
    (hfin : ∀ u : State, u.SharedWf → (fin u).ActiveWf) (h : postStep i a l1 l2 fin s = .next t) : t.ActiveWf := by
  rcases postStep_cases i a l1 l2 fin s with
    ⟨_, _, e⟩ | ⟨_, _, _, e⟩ | ⟨_, _, hmax, e⟩ | ⟨hc, _, _, e⟩ | ⟨_, _, _, e⟩ <;> rw [e] at h <;> cases h
  · exact (hs.shared.setLocals _).activeWf_goto hi (by simpa using hl.second _ hmax) (hl.copySecond _)
  · exact hfin _ ((hs.shared.storeWord _ (State.semCheck_none hc).1).setLocals _)
  · exact (hs.shared.setLocals _).activeWf_goto hi (by simpa using hl.first false) (hl.copyFirst _)

theorem waitLabels_sem : WaitLabels .w1 .w2 :=
  ⟨fun _ => rfl, fun _ h => by simpa [snapshotOk] using h, fun _ => rfl, fun _ => rfl⟩

theorem postLabels_sem (v : Locals) : PostLabels .p1 .p2 v :=
  ⟨fun _ => rfl, fun _ h => by simpa [snapshotOk] using h, fun _ => rfl, fun _ => rfl⟩

theorem activeWf_semInitStep {a n : Word} (hs : s.ActiveWf) (h : semInitStep a n s = .next t) : t.ActiveWf := by
  simp only [semInitStep] at h
  split at h
  · cases h
  · rename_i hc
    cases h
    exact (hs.shared.initSem n hc).activeWf_retire _

/-! ### Barriers (R148, R149) -/

theorem activeWf_execBarrierInit {b : Barrier} {capacity : Word} (hs : s.ActiveWf)
    (h : execBarrierInit b capacity s = .next t) : t.ActiveWf := by
  simp only [execBarrierInit] at h
  split at h
  · cases h
  · rename_i hc
    obtain ⟨hcounter, hlock, hrelease⟩ := Platform.barrierCheck_none hc
    split_ifs at h with hcap
    split at h <;> cases h
    · exact (hs.shared.initSem 1 hlock).activeWf_goto (by simp) rfl rfl
    · exact ((hs.shared.initSem 0 hrelease).setBarriers hcap).activeWf_retire _
    · exact (hs.shared.storeWord 0 hcounter).activeWf_goto (by simp) rfl rfl

theorem State.SharedWf.activeWf_barrierRelease {u : State} (hu : u.SharedWf) (b : Barrier) (n : Word) :
    (barrierRelease b n u).ActiveWf := by
  simp only [barrierRelease]
  split_ifs with hn
  · exact hu.activeWf_retire _
  · exact (hu.setLocals _).activeWf_goto (by simp) (by simpa [snapshotOk] using hn) rfl

theorem waitLabels_lock : WaitLabels .b1w1 .b1w2 :=
  ⟨fun _ => rfl, fun _ h => by simpa [snapshotOk] using h, fun _ => rfl, fun _ => rfl⟩

theorem waitLabels_release : WaitLabels .b8w1 .b8w2 :=
  ⟨fun _ => rfl, fun _ h => by simpa [snapshotOk] using h, fun _ => rfl, fun _ => rfl⟩

theorem postLabels_lastUnlock (v : Locals) : PostLabels .b4p1 .b4p2 v :=
  ⟨fun _ => rfl, fun _ h => by simpa [snapshotOk] using h, fun _ => rfl, fun _ => rfl⟩

theorem postLabels_unlock (v : Locals) : PostLabels .b7p1 .b7p2 v :=
  ⟨fun _ => rfl, fun _ h => by simpa [snapshotOk] using h, fun _ => rfl, fun _ => rfl⟩

/-- B5 posts only while releases are left. -/
theorem postLabels_release {v : Locals} (hn : v.n ≠ 0) : PostLabels .b5p1 .b5p2 v :=
  ⟨fun _ => by simpa [snapshotOk] using hn, fun _ h => by simpa [snapshotOk] using ⟨h, hn⟩, fun _ => rfl, fun _ => rfl⟩

theorem activeWf_execBarrierEnter {b : Barrier} (hs : s.ActiveWf) (h : execBarrierEnter b s = .next t) :
    t.ActiveWf := by
  obtain ⟨capacity, hc, _, h⟩ := execBarrierEnter_next h
  obtain ⟨hcounter, _, _⟩ := Platform.barrierCheck_none hc
  have hi : ∀ k, Instr.barrierEnter b ≠ .engineStep k := by simp
  have hgoto : ∀ l : Label, (∀ v, snapshotOk l v = true) → (∀ q, copyOk l q = true) → ∀ u : State, u.SharedWf →
      (u.goto (.barrierEnter b) l).ActiveWf := fun l hl hq u hu => hu.activeWf_goto hi (hl _) (hq _)
  rcases h with ⟨_, rfl⟩ | ⟨_, rfl⟩ | ⟨_, h⟩ | ⟨_, _, rfl⟩ | ⟨hp, h⟩ | ⟨_, rfl⟩ | ⟨_, h⟩ | ⟨_, h⟩ | ⟨_, h⟩
  · simp only [barrierCount]
    split_ifs
    · exact hgoto .b3 (fun _ => rfl) (fun _ => rfl) _ (hs.shared.setLocals _)
    · exact hgoto .b6 (fun _ => rfl) (fun _ => rfl) _ (hs.shared.setLocals _)
  · exact hgoto .b4p1 (fun _ => rfl) (fun _ => rfl) _ (hs.shared.storeWord _ hcounter)
  · exact activeWf_postStep hs hi (postLabels_lastUnlock _) (fun u hu => hu.activeWf_barrierRelease b _) h
  · exact hs.shared.activeWf_retire _
  · have hn : s.self.locals.n ≠ 0 := by
      rcases hp with ⟨_, hn⟩ | hp
      · exact hn
      · have hok := Worker.snapshotOk_of_wf hs.self
        simp only [hp, snapshotOk, Bool.and_eq_true, bne_iff_ne] at hok
        exact hok.2
    exact activeWf_postStep hs hi (postLabels_release hn) (fun u hu => hu.activeWf_barrierRelease b _) h
  · exact hgoto .b7p1 (fun _ => rfl) (fun _ => rfl) _ (hs.shared.storeWord _ hcounter)
  · exact activeWf_postStep hs hi (postLabels_unlock _) (hgoto .b8w1 (fun _ => rfl) (fun _ => rfl)) h
  · exact activeWf_waitStep hs hi waitLabels_release (fun u hu => hu.activeWf_retire _) h
  · exact activeWf_waitStep hs hi waitLabels_lock (hgoto .b2 (fun _ => rfl) (fun _ => rfl)) h

/-! ### The bulk copy (R175, R176) -/

theorem bytesLeft_iff {q : Copy} : bytesLeft q = true ↔ q.done < q.len.toNat ∧
    q.src.toNat + q.len.toNat ≤ addressSpace ∧ q.dst.toNat + q.len.toNat ≤ addressSpace := by
  simp [bytesLeft, and_assoc]

theorem wholeWords_iff {q : Copy} : wholeWords q = true ↔
    q.done % 4 = 0 ∧ q.len.toNat % 4 = 0 ∧ q.src.toNat % 4 = 0 ∧ q.dst.toNat % 4 = 0 := by
  simp [wholeWords, and_assoc]

/-- A copy that starts has both ranges in the address space, and moves whole aligned words unless it moves bytes. -/
theorem copyPlan_ok {p : Platform} {src dst len : Word} {l : Label} (h : copyPlan p src dst len = .ok l) :
    src.toNat + len.toNat ≤ addressSpace ∧ dst.toNat + len.toNat ≤ addressSpace ∧
      (l = .copyByte ∨ l = .copyRead ∧ len.toNat % 4 = 0 ∧ src.toNat % 4 = 0 ∧ dst.toNat % 4 = 0) := by
  simp only [copyPlan] at h
  split_ifs at h with hwrap hover htouch hal hfit hmem
  · cases h
    exact ⟨by omega, by omega, .inr ⟨rfl, by omega, by omega, by omega⟩⟩
  · cases h
    exact ⟨by omega, by omega, .inl rfl⟩

theorem activeWf_copyStart (hs : s.ActiveWf) (h : copyStart s = .next t) : t.ActiveWf := by
  have hstart : s.startCopy.SharedWf := (hs.shared.setDma (.inr rfl)).setCopy _
  simp only [copyStart] at h
  split_ifs at h with hlen
  · cases h
    exact hstart.activeWf_retire _
  · split at h <;> cases h
    rename_i l hplan
    obtain ⟨hsrc, hdst, hl⟩ := copyPlan_ok hplan
    have hpos : 0 < s.dma.len.toNat := by
      have := BitVec.toNat_ne.1 hlen
      simpa [Nat.pos_iff_ne_zero] using this
    have hleft : bytesLeft ⟨s.dma.src, s.dma.dst, s.dma.len, 0, 0⟩ = true := bytesLeft_iff.2 ⟨hpos, hsrc, hdst⟩
    rcases hl with rfl | ⟨rfl, hlen4, hsrc4, hdst4⟩
    · exact hstart.activeWf_goto (by simp) rfl (by simpa [State.startCopy, copyOk] using hleft)
    · have hwords : wholeWords ⟨s.dma.src, s.dma.dst, s.dma.len, 0, 0⟩ = true :=
        wholeWords_iff.2 ⟨rfl, hlen4, hsrc4, hdst4⟩
      exact hstart.activeWf_goto (by simp) rfl (by simpa [State.startCopy, copyOk] using ⟨hleft, hwords⟩)

/-- After `n` more bytes a copy is over, or still has bytes left. -/
theorem State.SharedWf.activeWf_copied {n : Nat} {l : Label} (hs : s.SharedWf)
    (hl : ∀ v, snapshotOk l v = true)
    (hq : s.self.copy.done + n < s.self.copy.len.toNat →
      copyOk l { s.self.copy with done := s.self.copy.done + n } = true) : (s.copied n l).ActiveWf := by
  simp only [State.copied]
  split_ifs with hend
  · exact (hs.setCopy _).activeWf_retire _
  · exact (hs.setCopy _).activeWf_goto (by simp) (hl _) (by simpa using hq (by omega))

theorem activeWf_copyByteStep (hs : s.ActiveWf) (hpc : s.self.pc = .copyByte) (h : copyByteStep s = .next t) :
    t.ActiveWf := by
  have hok := Worker.copyOk_of_wf hs.self
  simp only [hpc, copyOk] at hok
  obtain ⟨hdone, hsrc, hdst⟩ := bytesLeft_iff.1 hok
  cases h
  refine (hs.shared.storeByte _ (by omega)).activeWf_copied (fun _ => rfl) fun hmore => ?_
  have hleft : bytesLeft { s.self.copy with done := s.self.copy.done + 1 } = true :=
    bytesLeft_iff.2 ⟨by simpa using hmore, hsrc, hdst⟩
  simpa [copyOk] using hleft

theorem activeWf_copyReadStep (hs : s.ActiveWf) (hpc : s.self.pc = .copyRead) (h : copyReadStep s = .next t) :
    t.ActiveWf := by
  have hok := Worker.copyOk_of_wf hs.self
  simp only [hpc, copyOk, Bool.and_eq_true] at hok
  have hi : ∀ k, Instr.dmaOpCopy ≠ .engineStep k := by simp
  simp only [copyReadStep] at h
  split at h <;> cases h
  · exact hs.shared.activeWf_goto hi rfl (by simp [copyOk, hok])
  · rename_i w u hr
    have hu : u.SharedWf := by
      rcases busRead4_some hr with ⟨_, _, rfl⟩ | ⟨k, _, hacc⟩
      · exact hs.shared
      · exact hs.shared.of_frame (frame_accRead hacc) (by simp) (by simp) (by simp) (by simp) (by simp)
    refine (hu.setCopy _).activeWf_goto hi rfl ?_
    simpa [copyOk, bytesLeft_iff, wholeWords_iff] using hok

theorem activeWf_copyWriteStep (hs : s.ActiveWf) (hpc : s.self.pc = .copyWrite) (h : copyWriteStep s = .next t) :
    t.ActiveWf := by
  have hok := Worker.copyOk_of_wf hs.self
  simp only [hpc, copyOk, Bool.and_eq_true] at hok
  obtain ⟨hdone, hsrc, hdst⟩ := bytesLeft_iff.1 hok.1
  obtain ⟨hdone4, hlen4, hsrc4, hdst4⟩ := wholeWords_iff.1 hok.2
  simp only [copyWriteStep] at h
  split at h <;> cases h
  rename_i u hw
  have hu : u.SharedWf ∧ u.self = s.self := by
    rcases busWrite4_ok hw with ⟨_, rfl⟩ | ⟨k, _, rfl⟩
    · exact ⟨hs.shared.storeBytes _ (by omega), by simp⟩
    · have hframe := frame_accWrite k (BitVec.ofNat 32 (s.self.copy.dst.toNat + s.self.copy.done -
        (s.plat.accBase k).toNat)) s.self.copy.buf s
      exact ⟨hs.shared.of_frame hframe (by simp) (by simp) (by simp) (by simp) (by simp),
        hframe.self (by simp) (by simp)⟩
  obtain ⟨hshared, hself⟩ := hu
  refine hshared.activeWf_copied (fun _ => rfl) fun hmore => ?_
  rw [hself] at hmore ⊢
  simp only [copyOk, Bool.and_eq_true, bytesLeft_iff, wholeWords_iff]
  exact ⟨⟨hmore, hsrc, hdst⟩, by omega, hlen4, hsrc4, hdst4⟩

theorem activeWf_execDmaOpCopy (hs : s.ActiveWf) (h : execDmaOpCopy s = .next t) : t.ActiveWf := by
  rcases execDmaOpCopy_cases s with ⟨hpc, e⟩ | ⟨hpc, e⟩ | ⟨hpc, e⟩ | ⟨_, _, _, e⟩ <;> rw [e] at h
  · exact activeWf_copyByteStep hs hpc h
  · exact activeWf_copyReadStep hs hpc h
  · exact activeWf_copyWriteStep hs hpc h
  · exact activeWf_copyStart hs h

/-! ### Every operation, and every turn -/

/-- A change of an accelerator, of the log and of the count of free values is none of the shared parts. -/
theorem State.SharedWf.of_frame_device (k : InstId) {l : List Part} (hs : s.SharedWf) (h : Frame s t l)
    (hl : l ⊆ [.inst k, .draws, .log]) : t.SharedWf :=
  hs.of_frame (h.mono hl) (by simp) (by simp) (by simp) (by simp) (by simp)

theorem exec_activeWf (i : Instr) (hs : s.ActiveWf) (h : exec i s = .next t) : t.ActiveWf := by
  cases i with
  | wrA k w => cases h; exact (hs.shared.of_frame_device k (frame_writeA k w s) (by simp)).activeWf_retire _
  | wrB k w => cases h; exact (hs.shared.of_frame_device k (frame_writeB k w s) (by simp)).activeWf_retire _
  | wrZ k w => cases h; exact (hs.shared.of_frame_device k (frame_writeZ k w s) (by simp)).activeWf_retire _
  | rdA k =>
    refine activeWf_finishRead hs (by simp) (fun w u hr => ?_) h
    obtain ⟨_, _, _, _, rfl⟩ := readA_some hr
    exact hs.shared.of_frame_device k (frame_setInst s k _) (by simp)
  | rdB k =>
    refine activeWf_finishRead hs (by simp) (fun w u hr => ?_) h
    obtain ⟨_, _, _, _, rfl⟩ := readB_some hr
    exact hs.shared.of_frame_device k (frame_setInst s k _) (by simp)
  | rdZ k =>
    refine activeWf_finishRead hs (by simp) (fun w u hr => ?_) h
    obtain ⟨_, _, _, _, rfl⟩ := readZ_some hr
    exact hs.shared.of_frame_device k (frame_setInst s k _) (by simp)
  | badWr k off w =>
    cases h; exact (hs.shared.of_frame_device k (frame_badWrite k off s) (by simp)).activeWf_retire _
  | badRd k off =>
    cases h; exact (hs.shared.of_frame_device k (frame_badRead k off s) (by simp)).activeWf_retire _
  | engineStep k =>
    exact hs.of_frame (frame_execEngineStep k h) (by simp) (by simp) (by simp) (by simp) (by simp) (by simp) (by simp)
  | rotate x y t0 => cases h; exact hs.shared.activeWf_retire _
  | vector x y t0 => cases h; exact hs.shared.activeWf_retire _
  | dmaSrc v => cases h; exact (hs.shared.setDma (v := { s.dma with src := v }) hs.shared.dma).activeWf_retire _
  | dmaDst v => cases h; exact (hs.shared.setDma (v := { s.dma with dst := v }) hs.shared.dma).activeWf_retire _
  | dmaLen v => cases h; exact (hs.shared.setDma (v := { s.dma with len := v }) hs.shared.dma).activeWf_retire _
  | dmaOpNop => cases h; exact (hs.shared.setDma (.inl rfl)).activeWf_retire _
  | dmaOpCopy => exact activeWf_execDmaOpCopy hs h
  | dmaReserved cmd off data => cases h
  | cas32 addr expect new =>
    simp only [exec, execCas32] at h
    split at h <;> cases h
    rename_i hc
    refine State.SharedWf.activeWf_retire ?_ _
    simp only [State.cas]
    split_ifs
    · exact hs.shared.storeWord new hc
    · exact hs.shared
  | semInit a n => exact activeWf_semInitStep hs h
  | semWait a => exact activeWf_waitStep hs (by simp) waitLabels_sem (fun u hu => hu.activeWf_retire _) h
  | semPost a => exact activeWf_postStep hs (by simp) (postLabels_sem _) (fun u hu => hu.activeWf_retire _) h
  | mutexInit m => exact activeWf_semInitStep hs h
  | mutexLock m => exact activeWf_waitStep hs (by simp) waitLabels_sem (fun u hu => hu.activeWf_retire _) h
  | mutexUnlock m => exact activeWf_postStep hs (by simp) (postLabels_sem _) (fun u hu => hu.activeWf_retire _) h
  | barrierInit b capacity => exact activeWf_execBarrierInit hs h
  | barrierEnter b => exact activeWf_execBarrierEnter hs h

/-- The other worker is as before, so an operation keeps the invariant. -/
theorem exec_inv (i : Instr) (hs : s.inv = true) (h : exec i s = .next t) : t.inv = true := by
  obtain ⟨hactive, hother⟩ := State.inv_iff_activeWf.1 hs
  obtain ⟨k, hframe⟩ := exec_frame i h
  refine State.inv_iff_activeWf.2 ⟨exec_activeWf i hactive h, ?_⟩
  rw [hframe.active (by simp), hframe.worker (by cases s.active <;> simp [otherWorker])]
  exact hother

theorem memoryAccess_inv {dir : Dir} {a len : Nat} {data : Word} (hs : s.inv = true)
    (h : memoryAccess dir a len data s = .next t) : t.inv = true := by
  obtain ⟨hactive, hother⟩ := State.inv_iff_activeWf.1 hs
  have hframe := frame_memoryAccess h
  refine State.inv_iff_activeWf.2 ⟨?_, ?_⟩
  · simp only [memoryAccess] at h
    split_ifs at h with hlen hmem
    have hle := Platform.memoryRange_le hactive.shared.plat hmem
    cases dir <;> cases h
    · exact hactive.shared.activeWf_retire _
    · exact (hactive.shared.storeBytes data hle).activeWf_retire _
  · rw [hframe.active (by simp), hframe.worker (by cases s.active <;> simp [otherWorker])]
    exact hother

/-- Taking a turn and a request off a worker's script is nothing the invariant speaks of. -/
theorem inv_taken {w : WorkerId} {rest : List Request} (hs : s.inv = true) :
    ((s.tick.setActive w).setWorker w { s.worker w with script := rest }).inv = true := by
  obtain ⟨hshared, hworkers⟩ := State.inv_iff.1 hs
  refine State.inv_iff.2 ⟨hshared.of_frame (frame_taken s w _) (by simp) (by simp) (by simp) (by simp) (by simp),
    fun x => ?_⟩
  rw [State.worker_setWorker]
  split_ifs
  · exact hworkers w
  · simpa using hworkers x

end Sys2Proof.Machine

open Sys2Proof Sys2Proof.Machine

/-- Settles O57. -/
theorem invariantAtReset : Obligations.InvariantAtReset := by
  unfold Obligations.InvariantAtReset
  decide

/-- Settles O58. A turn performs an operation or a worker's own access of memory, on a state that differs from the one
before it in whose turn it is and in the script; both keep the invariant (`exec_inv`, `memoryAccess_inv`). -/
theorem invariantKeptByStep : Obligations.InvariantKeptByStep := by
  intro s t hs h
  rcases step_next h with ⟨k, _, h⟩ | ⟨w, _, rfl | ⟨i, _, h⟩ | ⟨r, rest, _, _, ⟨i, _, h⟩ | ⟨_, _, _, _, h⟩⟩⟩
  · have htick : s.tick.inv = true := hs
    exact exec_inv _ htick h
  · exact hs
  · have hturn : (s.tick.setActive w).inv = true := hs
    exact exec_inv i hturn h
  · exact exec_inv i (inv_taken hs) h
  · exact memoryAccess_inv (inv_taken hs) h
end

section
/-! Whose turn it is and what a worker's request comes to: the statements about one turn, the bus held by a blocked
read, a worker's own loads and stores, and the decoder of the bulk transfer block (10_state.md section 7, 20_memory.md
sections 1 and 4, 30_encoding.md section 5). -/

namespace Sys2Proof.Machine

variable {s t : State} {w : WorkerId}

/-! ### What the plan of a turn comes to -/

theorem plan_of_outstanding {i : Instr} (hw : s.nextAgent = .worker w) (hc : (s.worker w).cur = some i)
    (hb : s.busStopped w = false) : plan s = .run i (s.tick.setActive w) := by
  simp [plan, hw, planWorker, hc, hb]

theorem plan_of_outstanding_stopped {i : Instr} (hw : s.nextAgent = .worker w) (hc : (s.worker w).cur = some i)
    (hb : s.busStopped w = true) : plan s = .settle (.next (s.tick.setActive w)) := by
  simp [plan, hw, planWorker, hc, hb]

theorem plan_of_request_stopped {r : Request} {rest : List Request} (hw : s.nextAgent = .worker w)
    (hc : (s.worker w).cur = none) (hs : (s.worker w).script = r :: rest) (hr : requestUsesBus r = true)
    (hb : s.busStopped w = true) : plan s = .settle (.next (s.tick.setActive w)) := by
  simp [plan, hw, planWorker, hc, hs, hr, hb]

theorem plan_of_engine {k : InstId} (hk : s.nextAgent = .engine k) : plan s = .run (.engineStep k) s.tick := by
  simp [plan, hk]

/-- A descriptor that decodes to an operation of a worker is performed. -/
theorem issue_descriptor {d : Target} {bytes : List Byte} {i : Instr} (h : decode d bytes = .ok i)
    (hi : ∀ k, i ≠ .engineStep k) (s : State) : issue (.descriptor d bytes) s = .run i s := by
  cases i with
  | engineStep k => exact absurd rfl (hi k)
  | _ => simp only [issue, h]

/-! ### A worker's own load or store (R71) -/

/-- The four bytes of a load make the word. -/
theorem State.loadBytes_four (s : State) (a : Nat) : s.loadBytes a 4 = s.loadWord a := rfl

theorem memoryAccess_read {a : Nat} (data : Word) (hm : s.plat.memoryRange a 4 = true) :
    memoryAccess .read a 4 data s = .next (s.retire (.word (s.loadWord a))) := by
  simp [memoryAccess, hm, State.loadBytes_four]

theorem memoryAccess_write {a : Nat} (data : Word) (hm : s.plat.memoryRange a 4 = true) :
    memoryAccess .write a 4 data s = .next ((s.storeWord a data).retire .ok) := by
  simp [memoryAccess, hm, State.storeWord]

theorem State.worker_retire {u : State} (h : u.active = w) (r : Ret) :
    (u.retire r).worker w = (u.worker w).retire r := by
  subst h
  simpa only [State.self, State.active_retire] using u.self_retire r

/-- The turn of a worker whose next request is an access of four bytes of shared memory. -/
theorem step_memoryAccess {dir : Dir} {addr data : Word} {rest : List Request} (hw : s.nextAgent = .worker w)
    (hc : (s.worker w).cur = none) (hs : (s.worker w).script = .bus dir addr 4 data :: rest)
    (hb : s.busStopped w = false) (hm : s.plat.memoryRange addr.toNat 4 = true) :
    step s = memoryAccess dir addr.toNat 4 data
      ((s.tick.setActive w).setWorker w { s.worker w with script := rest }) := by
  have hdev : s.plat.deviceAt addr.toNat = .memory := Platform.deviceAt_memoryRange hm ⟨le_rfl, by omega⟩
  refine step_of_plan_settle ((plan_of_request hw hc hs (by simp [hb])).trans ?_)
  simp [issue, issueBus, hdev]

/-! ### Device accesses of another length (R43) -/

theorem Platform.deviceAt_inWindow {p : Platform} {k : InstId} {a : Nat} (h : p.inWindow k a = true) :
    ∃ j, p.deviceAt a = .acc j := by
  cases k with
  | acc0 => exact ⟨.acc0, by simp [Platform.deviceAt, h]⟩
  | acc1 =>
    by_cases h0 : p.inWindow .acc0 a = true
    · exact ⟨.acc0, by simp [Platform.deviceAt, h0]⟩
    · exact ⟨.acc1, by simp [Platform.deviceAt, h0, h]⟩

theorem Platform.deviceAt_inDma {p : Platform} {a : Nat} (h : p.inDma a = true) :
    (∃ j, p.deviceAt a = .acc j) ∨ p.deviceAt a = .dma := by
  by_cases hw : ∃ k, p.inWindow k a = true
  · obtain ⟨k, hk⟩ := hw
    exact .inl (Platform.deviceAt_inWindow hk)
  · simp only [not_exists, Bool.not_eq_true] at hw
    exact .inr (by simp [Platform.deviceAt, hw, h])

theorem issueBus_device_length {dir : Dir} {addr data : Word} {len : Nat} (hlen : len ≠ 4)
    (hd : (∃ k, s.plat.deviceAt addr.toNat = .acc k) ∨ s.plat.deviceAt addr.toNat = .dma) :
    issueBus dir addr len data s = .settle (.refused .transactionLength) := by
  rcases hd with ⟨k, hk⟩ | hd
  · simp [issueBus, hk, hlen]
  · simp [issueBus, hd, hlen]

end Sys2Proof.Machine

open Sys2Proof Sys2Proof.Machine

/-- Settles O6. -/
theorem stepRunsTheDescriptor : Obligations.StepRunsTheDescriptor := by
  intro s w d bytes rest i hw hc hs hdec hi hbus
  have hfree : (requestUsesBus (.descriptor d bytes) && s.busStopped w) = false := by
    rcases hbus with rfl | hb
    · rfl
    · simp [hb]
  exact step_of_plan_run ((plan_of_request hw hc hs hfree).trans (issue_descriptor hdec hi _))

/-- Settles O8. -/
theorem stepContinuesOrRunsTheEngine : Obligations.StepContinuesOrRunsTheEngine :=
  ⟨fun _ _ _ hw hc hb => step_of_plan_run (plan_of_outstanding hw hc hb),
    fun _ _ hk => step_of_plan_run (plan_of_engine hk)⟩

/-- Settles O9. The bus is stopped for a worker exactly if the platform holds it and the other worker's read blocks. -/
theorem blockedReadHoldsTheBus : Obligations.BlockedReadHoldsTheBus := by
  refine ⟨fun s w r rest hw hheld hblocked hc hs hr => ?_, fun s w i hw hheld hblocked hc => ?_, fun s w hheld => ?_⟩
  · exact step_of_plan_settle (plan_of_request_stopped hw hc hs hr (by simp [State.busStopped, hblocked, hheld]))
  · exact step_of_plan_settle (plan_of_outstanding_stopped hw hc (by simp [State.busStopped, hblocked, hheld]))
  · simp [State.busStopped, hheld]

/-- Settles O10. The turn is the access of memory on the state with the request taken off (`step_memoryAccess`). -/
theorem workerLoadsAndStores : Obligations.WorkerLoadsAndStores := by
  intro s w addr data rest hw hc hb hm
  have htaken := frame_taken s w { s.worker w with script := rest }
  refine ⟨fun hs => ?_, fun hs => ?_⟩
  · have hstep := (step_memoryAccess hw hc hs hb hm).trans (memoryAccess_read data (by simpa using hm))
    rw [State.loadWord_congr (t := s) (by simp)] at hstep
    exact ⟨_, hstep, by rw [State.worker_retire (by simp)]; simp, by rw [State.worker_retire (by simp)]; simp,
      htaken.trans ((frame_retire _ _).mono (by simp))⟩
  · have hstep := (step_memoryAccess hw hc hs hb hm).trans (memoryAccess_write data (by simpa using hm))
    refine ⟨_, hstep, by rw [State.worker_retire (by simp)]; simp, by rw [State.worker_retire (by simp)]; simp,
      by simp, fun x hx => ?_,
      ((htaken.mono (by simp)).trans ((frame_storeWord _ _ _).mono (by simp))).trans ((frame_retire _ _).mono (by simp))⟩
    simp [State.loadByte_storeWord_other _ _ _ _ hx]

/-- Settles O39. Of the statement's tests only those of a write can hold, and these are the decoder's, in order; a
device's address is dispatched to one, which takes four bytes or none. -/
theorem bulkDecodeAndReserved : Obligations.BulkDecodeAndReserved := by
  refine ⟨fun cmd off data => ?_, fun _ _ _ _ => rfl, fun s w dir addr data len rest hw hc hs hb hlen hdev => ?_⟩
  · cases cmd with
    | read => simp [decodeDma]
    | write => simp [decodeDma]
  · have hd : (∃ k, s.plat.deviceAt addr.toNat = .acc k) ∨ s.plat.deviceAt addr.toNat = .dma := by
      rcases hdev with ⟨k, hk⟩ | hd
      · exact .inl (Platform.deviceAt_inWindow (within_iff.2 hk))
      · exact Platform.deviceAt_inDma (within_iff.2 hd)
    exact step_of_plan_settle ((plan_of_request hw hc hs (by simp [hb])).trans
      (issueBus_device_length hlen (by simpa using hd)))
end

section
/-! Fixed-point arithmetic as exact integer and rational arithmetic: sums, right shifts, the gain correction
(40_fixed_point.md section 2). -/

namespace Sys2Proof.Machine

/-! ### Quantised quotients (R85) -/

/-- A quotient by a positive integer lies between 0 and its numerator, whichever way it is rounded. -/
theorem quantize_between (q : Quant) (n : Int) {d : Int} (hd : 0 < d) :
    (0 ≤ n → 0 ≤ quantize q n d ∧ quantize q n d ≤ n) ∧ (n ≤ 0 → n ≤ quantize q n d ∧ quantize q n d ≤ 0) := by
  cases q with
  | floor =>
    simp only [quantize]
    refine ⟨fun hn => ⟨Int.ediv_nonneg hn hd.le, Int.ediv_le_self _ hn⟩, fun hn => ⟨?_, ?_⟩⟩
    · rw [Int.le_ediv_iff_mul_le hd]
      nlinarith
    · exact Int.ediv_nonpos_of_nonpos_of_neg hn hd
  | towardZero =>
    simp only [quantize]
    refine ⟨fun hn => ⟨Int.tdiv_nonneg hn hd.le, ?_⟩, fun hn => ?_⟩
    · rw [Int.tdiv_eq_ediv_of_nonneg hn]
      exact Int.ediv_le_self _ hn
    · obtain ⟨m, rfl⟩ : ∃ m, n = -m := ⟨-n, by omega⟩
      have hm : 0 ≤ m := by omega
      rw [Int.neg_tdiv, Int.tdiv_eq_ediv_of_nonneg hm]
      have := Int.ediv_le_self d hm
      have := Int.ediv_nonneg hm hd.le
      omega

/-- A quotient without remainder is not rounded. -/
theorem quantize_mul_self (q : Quant) (n : Int) {d : Int} (hd : d ≠ 0) : quantize q (n * d) d = n := by
  cases q with
  | floor => exact Int.mul_ediv_cancel n hd
  | towardZero => exact Int.mul_tdiv_cancel n hd

/-- A quotient of a raw value fits in 16 bits. -/
theorem toInt_wrap16_quantize (q : Quant) (a : Fx) {d : Int} (hd : 0 < d) :
    (wrap16 (quantize q a.toInt d)).toInt = quantize q a.toInt d := by
  obtain ⟨hlo, hhi⟩ := toInt_fits a
  obtain ⟨hpos, hneg⟩ := quantize_between q a.toInt hd
  rcases le_total 0 a.toInt with h | h
  · obtain ⟨h0, h1⟩ := hpos h
    exact toInt_wrap16_of_fits (by omega) (by omega)
  · obtain ⟨h0, h1⟩ := hneg h
    exact toInt_wrap16_of_fits (by omega) (by omega)

theorem toInt_fxAsr (q : Quant) (a : Fx) (n : Nat) : (fxAsr q a n).toInt = quantize q a.toInt ((2 : Int) ^ n) :=
  toInt_wrap16_quantize q a (by positivity)

theorem fxAsr_zero (q : Quant) (a : Fx) : fxAsr q a 0 = a := by
  refine BitVec.eq_of_toInt_eq ?_
  rw [toInt_fxAsr, pow_zero]
  simpa using quantize_mul_self q a.toInt one_ne_zero

/-- The floor of the quotient by 2^n is the arithmetic shift of the pattern. -/
theorem fxAsr_floor_eq_sshiftRight (a : Fx) (n : Nat) : fxAsr .floor a n = a.sshiftRight n := by
  refine BitVec.eq_of_toInt_eq ?_
  rw [toInt_fxAsr, BitVec.toInt_sshiftRight, Int.shiftRight_eq_div_pow]
  simp [quantize]

/-! ### The gain correction (R87) -/

/-- The floor of a rational quotient of integers is their integer quotient. -/
theorem floor_mul_div (a : Int) (n d : Nat) : ⌊(a : ℚ) * ((n : ℚ) / (d : ℚ))⌋ = a * n / d := by
  rw [← mul_div_assoc, ← Int.cast_natCast n, ← Int.cast_mul, Rat.floor_intCast_div_natCast]

theorem toInt_fxGain_default (a : Fx) : (fxGain .default a).toInt = a.toInt * 6072776441 / 10000000000 := by
  obtain ⟨hlo, hhi⟩ := toInt_fits a
  exact toInt_wrap16_of_fits (n := a.toInt * 6072776441 / 10000000000) (by omega) (by omega)

end Sys2Proof.Machine

open Sys2Proof Sys2Proof.Machine

/-- Settles O11. -/
theorem fixedSumsWrap : Obligations.FixedSumsWrap :=
  fun _ _ => ⟨toInt_wrap16 _, toInt_wrap16 _, toInt_wrap16_of_fits, toInt_wrap16_of_fits⟩

/-- Settles O14. -/
theorem fixedShiftIsFloor : Obligations.FixedShiftIsFloor := by
  refine ⟨fun a n => ?_, fun q a n => ⟨toInt_fxAsr q a n, fxAsr_zero q a⟩⟩
  have hpow : (0 : Int) < 2 ^ n := by positivity
  have hfloor : (fxAsr .floor a n).toInt = a.toInt / 2 ^ n := toInt_fxAsr .floor a n
  rw [hfloor]
  exact ⟨Int.mul_ediv_self_le hpow.ne', by rw [mul_comm]; exact Int.lt_ediv_add_one_mul_self _ hpow,
    fxAsr_floor_eq_sshiftRight a n⟩

/-- Settles O15. -/
theorem fixedGainIsFloor : Obligations.FixedGainIsFloor := by
  refine ⟨fun c a hq => ?_, fun a => ?_⟩
  · rw [floor_mul_div, fxGain, hq]
    rfl
  · rw [toInt_fxGain_default]
    exact_mod_cast (floor_mul_div a.toInt 6072776441 10000000000).symm
end

section
/-! A register word as binary32 and its two conversions: the fields of a word, narrowing as a floor, widening as exact
(40_fixed_point.md section 3); and the driver's phase correction (45_host_protocol.md section 2). -/

namespace Sys2Proof.Machine

/-! ### The fields of a word (R88) -/

theorem f32OfWord_fields (neg : Bool) {e m : Nat} (he : e < 256) (hm : m < 2 ^ 23) :
    f32OfWord (BitVec.ofNat 32 ((if neg then 1 else 0) * 2 ^ 31 + e * 2 ^ 23 + m)) =
      if e = 255 then if m = 0 then .infinity neg else .nan
      else if e = 0 then .finite neg m 1 else .finite neg (2 ^ 23 + m) e := by
  obtain ⟨n, hn, hneg⟩ : ∃ n, n < 2 ∧ n = if neg then 1 else 0 := by cases neg <;> simp
  rw [← hneg]
  have hw : (BitVec.ofNat 32 (n * 2 ^ 31 + e * 2 ^ 23 + m)).toNat = n * 2 ^ 31 + e * 2 ^ 23 + m := by
    rw [BitVec.toNat_ofNat]
    omega
  have hfields : (n * 2 ^ 31 + e * 2 ^ 23 + m) / 2 ^ 31 % 2 = n ∧ (n * 2 ^ 31 + e * 2 ^ 23 + m) / 2 ^ 23 % 256 = e ∧
      (n * 2 ^ 31 + e * 2 ^ 23 + m) % 2 ^ 23 = m := by omega
  obtain ⟨hsign, hexp, hfrac⟩ := hfields
  have hbit : (n == 1) = neg := by
    rw [hneg]
    cases neg <;> rfl
  simp only [f32OfWord, hw, hsign, hexp, hfrac, hbit]

/-! ### Narrowing (R89) -/

/-- The signed significand of a finite datum. -/
def signedMant (neg : Bool) (mant : Nat) : Int := if neg then -(mant : Int) else (mant : Int)

theorem f32Value_eq (neg : Bool) (mant scale : Nat) :
    f32Value neg mant scale = (signedMant neg mant : ℚ) * (2 : ℚ) ^ ((scale : Int) - 150) := by
  cases neg <;> simp [f32Value, signedMant]

theorem scaledValue_eq (q : Quant) (F : Nat) (neg : Bool) (mant scale : Nat) : scaledValue q F neg mant scale =
    if 150 ≤ scale + F then signedMant neg mant * (2 : Int) ^ (scale + F - 150)
    else quantize q (signedMant neg mant) ((2 : Int) ^ (150 - (scale + F))) := rfl

/-- Scaling a finite value and taking the floor is exact integer arithmetic. -/
theorem floor_f32Value (F : Nat) (neg : Bool) (mant scale : Nat) :
    ⌊f32Value neg mant scale * 2 ^ F⌋ = scaledValue .floor F neg mant scale := by
  have hscale : f32Value neg mant scale * 2 ^ F =
      (signedMant neg mant : ℚ) * (2 : ℚ) ^ ((scale : Int) + F - 150) := by
    rw [f32Value_eq, mul_assoc, ← zpow_natCast, ← zpow_add₀ (by norm_num)]
    congr 2
    omega
  rw [hscale, scaledValue_eq]
  split_ifs with h
  · have he : (scale : Int) + F - 150 = ((scale + F - 150 : Nat) : Int) := by omega
    rw [he, zpow_natCast]
    exact_mod_cast Int.floor_intCast (R := ℚ) (signedMant neg mant * 2 ^ (scale + F - 150))
  · have he : (scale : Int) + F - 150 = -((150 - (scale + F) : Nat) : Int) := by omega
    rw [he, zpow_neg, zpow_natCast, ← div_eq_mul_inv]
    exact_mod_cast Rat.floor_intCast_div_natCast (signedMant neg mant) (2 ^ (150 - (scale + F)))

theorem narrow_finite {w : Word} {neg : Bool} {mant scale : Nat} (h : f32OfWord w = .finite neg mant scale)
    (q : Quant) (F : Nat) : narrow q F w = some (wrap16 (scaledValue q F neg mant scale)) := by
  simp only [narrow, h]

theorem narrow_not_finite {w : Word} (h : ∀ neg mant scale, f32OfWord w ≠ .finite neg mant scale) (q : Quant)
    (F : Nat) : narrow q F w = none := by
  simp only [narrow]
  split
  · rename_i e
    exact absurd e (h _ _ _)
  · rfl
  · rfl

/-! ### Widening (R91) -/

/-- `topBit` is the position of the highest set bit. -/
theorem topBit_spec {fuel a : Nat} (h0 : a ≠ 0) (ha : a < 2 ^ (fuel + 1)) :
    topBit fuel a ≤ fuel ∧ 2 ^ topBit fuel a ≤ a ∧ a < 2 ^ (topBit fuel a + 1) := by
  induction fuel with
  | zero => exact ⟨le_rfl, by simp [topBit]; omega, by simpa [topBit] using ha⟩
  | succ fuel ih =>
    simp only [topBit]
    split_ifs with h
    · exact ⟨le_rfl, h, ha⟩
    · obtain ⟨hle, hlo, hhi⟩ := ih (by omega)
      exact ⟨by omega, hlo, hhi⟩

/-- The word of a raw value other than 0: its sign, the exponent of its highest bit, and the bits below that one. -/
theorem f32OfWord_widen {F : Nat} {r : Fx} (hF : F = 7 ∨ F = 8) (hr : r ≠ 0) :
    ∃ h, h ≤ 15 ∧ 2 ^ 23 ≤ r.toInt.natAbs * 2 ^ (23 - h) ∧
      f32OfWord (widen F r) = .finite (decide (r.toInt < 0)) (r.toInt.natAbs * 2 ^ (23 - h)) (127 + h - F) := by
  obtain ⟨hlo, hhi⟩ := toInt_fits r
  have h0 : r.toInt.natAbs ≠ 0 := by
    rw [Int.natAbs_ne_zero]
    exact fun h => hr (BitVec.eq_of_toInt_eq (by simpa using h))
  obtain ⟨hle, hbit, hnext⟩ := topBit_spec (fuel := 15) h0 (by omega)
  have hw : widen F r = BitVec.ofNat 32 ((if decide (r.toInt < 0) = true then 1 else 0) * 2 ^ 31 +
      (127 + topBit 15 r.toInt.natAbs - F) * 2 ^ 23 +
      r.toInt.natAbs * 2 ^ (23 - topBit 15 r.toInt.natAbs) % 2 ^ 23) := by
    simp only [widen, if_neg hr, decide_eq_true_eq]
  generalize topBit 15 r.toInt.natAbs = h at *
  generalize r.toInt.natAbs = a at *
  have hpow : 2 ^ h * 2 ^ (23 - h) = 2 ^ 23 := by rw [← pow_add, Nat.add_sub_cancel' (by omega)]
  have hmlo : 2 ^ 23 ≤ a * 2 ^ (23 - h) := hpow ▸ Nat.mul_le_mul_right _ hbit
  have hmhi : a * 2 ^ (23 - h) < 2 * 2 ^ 23 := by
    rw [← hpow, ← mul_assoc, ← pow_succ']
    exact Nat.mul_lt_mul_of_pos_right hnext (by positivity)
  refine ⟨h, hle, hmlo, ?_⟩
  rw [hw, f32OfWord_fields _ (by omega) (Nat.mod_lt _ (by positivity)), if_neg (by omega), if_neg (by omega)]
  congr 1
  omega

theorem signedMant_natAbs (z : Int) (n : Nat) : signedMant (decide (z < 0)) (z.natAbs * n) = z * n := by
  simp only [signedMant, decide_eq_true_eq, Nat.cast_mul]
  split_ifs with h
  · rw [← neg_mul]
    congr 1
    omega
  · congr 1
    omega

theorem widen_zero (F : Nat) : widen F 0 = 0 := by simp [widen]

/-- The word of raw 0 is +0.0. -/
theorem f32OfWord_zero : f32OfWord 0 = .finite false 0 1 := by decide

theorem f32Value_widen {F h : Nat} {z : Int} (hF : F ≤ 127) (hh : h ≤ 23) :
    f32Value (decide (z < 0)) (z.natAbs * 2 ^ (23 - h)) (127 + h - F) = (z : ℚ) / 2 ^ F := by
  have hexp : ((127 + h - F : Nat) : Int) - 150 = -((23 - h : Nat) : Int) + -(F : Int) := by omega
  rw [f32Value_eq, signedMant_natAbs, hexp, zpow_add₀ (by norm_num), zpow_neg, zpow_neg, zpow_natCast, zpow_natCast]
  push_cast
  field_simp

theorem scaledValue_widen {F h : Nat} {z : Int} (q : Quant) (hF : F ≤ 127) (hh : h < 23) :
    scaledValue q F (decide (z < 0)) (z.natAbs * 2 ^ (23 - h)) (127 + h - F) = z := by
  have hexp : 150 - (127 + h - F + F) = 23 - h := by omega
  rw [scaledValue_eq, if_neg (by omega), signedMant_natAbs, hexp]
  push_cast
  exact quantize_mul_self q z (by positivity)

/-! ### The phase correction (R185) -/

section
variable {α : Type} [Field α] [LinearOrder α] [IsStrictOrderedRing α] [FloorRing α]

theorem phaseCorrection_range (p : α) : -180 < phaseCorrection p ∧ phaseCorrection p ≤ 180 := by
  have hle := Int.le_ceil ((p - 180) / 360)
  have hlt := Int.ceil_lt_add_one ((p - 180) / 360)
  have hsplit : (p - 180) / 360 * 360 = p - 180 := by field_simp
  simp only [phaseCorrection]
  constructor <;> linarith

/-- Values of the range that differ by a multiple of 360 are one. -/
theorem eq_of_mod_360 {x y : α} {n : Int} (hx : -180 < x) (hx' : x ≤ 180) (hy : -180 < y) (hy' : y ≤ 180)
    (h : x = y + 360 * (n : α)) : x = y := by
  have hlo : (-1 : α) < n := by linarith
  have hhi : (n : α) < 1 := by linarith
  have h0 : n = 0 := by
    have : -1 < n := by exact_mod_cast hlo
    have : n < 1 := by exact_mod_cast hhi
    omega
  simp [h, h0]

end

theorem phaseCorrection_ratCast (p : ℚ) : phaseCorrection (p : ℝ) = ((phaseCorrection p : ℚ) : ℝ) := by
  have hceil : ⌈((p : ℝ) - 180) / 360⌉ = ⌈(p - 180) / 360⌉ := by
    rw [← Rat.ceil_cast (α := ℝ)]
    push_cast
    rfl
  simp only [phaseCorrection, hceil]
  push_cast
  rfl

end Sys2Proof.Machine

open Sys2Proof Sys2Proof.Machine

/-- Settles O16. -/
theorem narrowingIsFloorOfTheValue : Obligations.NarrowingIsFloorOfTheValue := by
  refine ⟨fun neg e m he hm => f32OfWord_fields neg he hm, fun F w neg mant scale h => ?_,
    fun q F w h => narrow_not_finite h q F⟩
  rw [narrow_finite h, floor_f32Value]

/-- Settles O17. The word of a raw value holds it exactly, since at most 16 bits need no rounding to 24; scaling it
back leaves an integer, which neither way of rounding changes. -/
theorem wideningIsExact : Obligations.WideningIsExact := by
  intro F r hF
  by_cases hr : r = 0
  · subst hr
    refine ⟨⟨false, 0, 1, by rw [widen_zero, f32OfWord_zero], by simp [f32Value], fun h => absurd rfl h⟩,
      widen_zero F, fun q => ?_⟩
    rw [widen_zero, narrow_finite f32OfWord_zero]
    cases q <;> simp [scaledValue_eq, signedMant, quantize]
  · obtain ⟨h, hh, hm, hf⟩ := f32OfWord_widen hF hr
    refine ⟨⟨_, _, _, hf, f32Value_widen (by omega) (by omega), fun _ => hm⟩, widen_zero F, fun q => ?_⟩
    rw [narrow_finite hf, scaledValue_widen q (by omega) (by omega)]
    exact congrArg some r.ofInt_toInt

/-- Settles O60. The ceiling leaves a phase in the range, and two values of the range that are congruent are equal;
128 times a value of the range fits in 16 bits. -/
theorem phaseCorrectionFolds : Obligations.PhaseCorrectionFolds := by
  refine ⟨fun p => ?_, phaseCorrection_ratCast, fun w neg mant scale h hlo hhi => ?_⟩
  · obtain ⟨hlo, hhi⟩ := phaseCorrection_range p
    refine ⟨hlo, hhi, ⟨_, rfl⟩, fun x hx hx' ⟨n, hn⟩ => ?_⟩
    refine eq_of_mod_360 (n := ⌈(p - 180) / 360⌉ - n) hx hx' hlo hhi ?_
    rw [hn, phaseCorrection]
    push_cast
    ring
  · refine ⟨_, narrow_finite h .floor 7, ?_⟩
    rw [← floor_f32Value]
    refine toInt_wrap16_of_fits (Int.le_floor.2 ?_) (Int.le_of_lt_add_one (Int.floor_lt.2 ?_))
    · push_cast; linarith
    · push_cast; linarith
end

section
/-! The engine function: the pre-correction, the angle's way through the micro-rotations, and what the function is from
its three phases (41_cordic_engine.md). -/

namespace Sys2Proof.Machine

/-! ### The pre-correction (R101) -/

theorem toInt_ninety : ninety.toInt = 11520 := by decide

theorem precorrect_above {v : Triple} (h : 11520 < v.t.toInt) :
    precorrect v = ⟨fxNeg v.y, v.x, fxSub v.t ninety⟩ := by
  rw [precorrect, if_pos ((aboveNinety_iff _).2 h)]

theorem precorrect_below {v : Triple} (h : v.t.toInt < -11520) :
    precorrect v = ⟨v.y, fxNeg v.x, fxAdd v.t ninety⟩ := by
  rw [precorrect, if_neg (by rw [aboveNinety_iff]; omega), if_pos ((belowMinusNinety_iff _).2 h)]

theorem precorrect_within {v : Triple} (hlo : -11520 ≤ v.t.toInt) (hhi : v.t.toInt ≤ 11520) : precorrect v = v := by
  rw [precorrect, if_neg (by rw [aboveNinety_iff]; omega), if_neg (by rw [belowMinusNinety_iff]; omega)]

theorem toInt_precorrect_above {v : Triple} (h : 11520 < v.t.toInt) : (precorrect v).t.toInt = v.t.toInt - 11520 := by
  obtain ⟨hlo, hhi⟩ := toInt_fits v.t
  rw [precorrect_above h, ← toInt_ninety]
  exact toInt_wrap16_of_fits (by rw [toInt_ninety]; omega) (by rw [toInt_ninety]; omega)

theorem toInt_precorrect_below {v : Triple} (h : v.t.toInt < -11520) :
    (precorrect v).t.toInt = v.t.toInt + 11520 := by
  obtain ⟨hlo, hhi⟩ := toInt_fits v.t
  rw [precorrect_below h, ← toInt_ninety]
  exact toInt_wrap16_of_fits (by rw [toInt_ninety]; omega) (by rw [toInt_ninety]; omega)

/-- The angle, whichever of the three branches the pre-correction takes. -/
theorem toInt_precorrect_cases (v : Triple) :
    (11520 < v.t.toInt ∧ (precorrect v).t.toInt = v.t.toInt - 11520) ∨
    (v.t.toInt < -11520 ∧ (precorrect v).t.toInt = v.t.toInt + 11520) ∨
    (-11520 ≤ v.t.toInt ∧ v.t.toInt ≤ 11520 ∧ (precorrect v).t.toInt = v.t.toInt) := by
  rcases lt_or_ge 11520 v.t.toInt with h | h
  · exact .inl ⟨h, toInt_precorrect_above h⟩
  · rcases lt_or_ge v.t.toInt (-11520) with h' | h'
    · exact .inr (.inl ⟨h', toInt_precorrect_below h'⟩)
    · exact .inr (.inr ⟨h', h, by rw [precorrect_within h' h]⟩)

/-! ### The angle in rotation mode (R103) -/

/-- In rotation mode the angle alone decides what a micro-rotation does to it. -/
theorem t_microrot_rotation (c : EngineConfig) (v : Triple) (i : Fin 7) : (microrot c v i false).t =
    if nonNegative v.t then fxSub v.t (c.atan.get i) else fxAdd v.t (c.atan.get i) := by
  simp only [microrot, counterClockwise, Bool.false_eq_true, if_false]
  split_ifs <;> rfl

theorem t_microrots_rotation_congr (c : EngineConfig) (l : List (Fin 7)) {v u : Triple} (h : v.t = u.t) :
    (microrots c false l v).t = (microrots c false l u).t := by
  induction l generalizing v u with
  | nil => exact h
  | cons i rest ih => exact ih (by rw [t_microrot_rotation, t_microrot_rotation, h])

theorem t_precorrectWith_congr (m : PreMode) {v u : Triple} (h : v.t = u.t) :
    (precorrectWith m v).t = (precorrectWith m u).t := by
  cases m with
  | conditional =>
    simp only [precorrectWith, precorrect, h]
    split_ifs <;> simp [h]
  | always =>
    simp only [precorrectWith, precorrectAlways, h]
    split_ifs <;> simp

/-- The constants of micro-rotation `i` that bring an angle of at most `B` to one of at most `C`. -/
def Narrows (c : EngineConfig) (i : Fin 7) (B C : Int) : Prop :=
  0 ≤ (c.atan.get i).toInt ∧ (c.atan.get i).toInt ≤ C ∧ B - (c.atan.get i).toInt ≤ C ∧
    (c.atan.get i).toInt ≤ 16384 ∧ B ≤ 16384

/-- A micro-rotation drives the angle towards 0 by its constant: what is left is within the constant, or within what
the constant leaves of the angle. -/
theorem Narrows.t_microrot {c : EngineConfig} {i : Fin 7} {B C : Int} (h : Narrows c i B C) {v : Triple}
    (hv : -B ≤ v.t.toInt ∧ v.t.toInt ≤ B) :
    -C ≤ (microrot c v i false).t.toInt ∧ (microrot c v i false).t.toInt ≤ C := by
  obtain ⟨h0, hC, hC', ha, hB⟩ := h
  obtain ⟨hlo, hhi⟩ := hv
  rw [t_microrot_rotation]
  split_ifs with hs <;> rw [nonNegative_iff] at hs
  · rw [fxSub, toInt_wrap16_of_fits (by omega) (by omega)]
    omega
  · rw [fxAdd, toInt_wrap16_of_fits (by omega) (by omega)]
    omega

/-- With the spec's table each micro-rotation leaves at most its own constant of an angle of at most 90 degrees, but
the last, which leaves at most 115 of 229. -/
theorem t_microrots_default_bound {v : Triple} (hv : -11520 ≤ v.t.toInt ∧ v.t.toInt ≤ 11520) :
    -115 ≤ (microrots .default false [0, 1, 2, 3, 4, 5, 6] v).t.toInt ∧
      (microrots .default false [0, 1, 2, 3, 4, 5, 6] v).t.toInt ≤ 115 := by
  have h0 : Narrows .default 0 11520 5760 := by unfold Narrows; decide
  have h1 : Narrows .default 1 5760 3400 := by unfold Narrows; decide
  have h2 : Narrows .default 2 3400 1796 := by unfold Narrows; decide
  have h3 : Narrows .default 3 1796 912 := by unfold Narrows; decide
  have h4 : Narrows .default 4 912 457 := by unfold Narrows; decide
  have h5 : Narrows .default 5 457 229 := by unfold Narrows; decide
  have h6 : Narrows .default 6 229 115 := by unfold Narrows; decide
  simp only [microrots]
  exact h6.t_microrot (h5.t_microrot (h4.t_microrot (h3.t_microrot (h2.t_microrot (h1.t_microrot
    (h0.t_microrot hv))))))

/-! ### The function from its phases (R100) -/

theorem t_rotate (c : EngineConfig) (x y t0 : Fx) (mode : Bool) : (rotate c x y t0 mode).t =
    (microrots c mode [0, 1, 2, 3, 4, 5, 6] (precorrectWith c.preMode ⟨x, y, t0⟩)).t := rfl

/-- The micro-rotations as a sequence of triples, each one micro-rotation from the one before. -/
theorem microrots_eq_of_steps {c : EngineConfig} {mode : Bool} {v : Nat → Triple}
    (h : ∀ i : Fin 7, v (i.val + 1) = microrot c (v i.val) i mode) :
    microrots c mode [0, 1, 2, 3, 4, 5, 6] (v 0) = v 7 := by
  have h0 : v 1 = microrot c (v 0) 0 mode := h 0
  have h1 : v 2 = microrot c (v 1) 1 mode := h 1
  have h2 : v 3 = microrot c (v 2) 2 mode := h 2
  have h3 : v 4 = microrot c (v 3) 3 mode := h 3
  have h4 : v 5 = microrot c (v 4) 4 mode := h 4
  have h5 : v 6 = microrot c (v 5) 5 mode := h 5
  have h6 : v 7 = microrot c (v 6) 6 mode := h 6
  simp only [microrots, ← h0, ← h1, ← h2, ← h3, ← h4, ← h5, ← h6]

/-- The direction as an integer: 1 is counter-clockwise, -1 clockwise (R102). -/
theorem microrot_of_direction {c : EngineConfig} {v : Triple} {i : Fin 7} {mode : Bool} {d : Int}
    (hd : d = 1 ↔ if mode then v.y.toInt < 0 else 0 ≤ v.t.toInt) (hd' : d = 1 ∨ d = -1) :
    microrot c v i mode = ⟨wrap16 (v.x.toInt - d * quantize c.quant v.y.toInt (2 ^ i.val)),
      wrap16 (v.y.toInt + d * quantize c.quant v.x.toInt (2 ^ i.val)),
      wrap16 (v.t.toInt - d * (c.atan.get i).toInt)⟩ := by
  have hccw : counterClockwise v mode = true ↔ d = 1 := by
    rw [hd]
    cases mode <;> simp [counterClockwise]
  rcases hd' with rfl | rfl
  · rw [microrot_ccw (hccw.2 rfl)]
    simp
  · rw [microrot_cw (by rw [← Bool.not_eq_true, hccw]; decide)]
    simp [← sub_eq_add_neg]

/-! ### The two readings of the pre-correction (decision D6) -/

/-- Raw sums, differences and negations are those of the 16-bit patterns. -/
theorem fxAdd_eq (a b : Fx) : fxAdd a b = a + b := by simp [fxAdd, BitVec.ofInt_add]

theorem fxSub_eq (a b : Fx) : fxSub a b = a - b := by
  simp [fxSub, sub_eq_add_neg, BitVec.ofInt_add, BitVec.ofInt_neg]

theorem fxNeg_eq (a : Fx) : fxNeg a = -a := by simp [fxNeg, BitVec.ofInt_neg]

/-- The first micro-rotation shifts by 0 bits. -/
theorem microrot_zero (c : EngineConfig) (v : Triple) : microrot c v 0 false =
    if nonNegative v.t then ⟨v.x - v.y, v.y + v.x, v.t - c.atan.get 0⟩
    else ⟨v.x + v.y, v.y - v.x, v.t + c.atan.get 0⟩ := by
  have hx : fxAsr c.quant v.x ((0 : Fin 7) : Nat) = v.x := fxAsr_zero c.quant v.x
  have hy : fxAsr c.quant v.y ((0 : Fin 7) : Nat) = v.y := fxAsr_zero c.quant v.y
  simp only [microrot, counterClockwise, hx, hy, fxAdd_eq, fxSub_eq, Bool.false_eq_true, if_false]

theorem precorrectAlways_nonneg {v : Triple} (h : 0 ≤ v.t.toInt) :
    precorrectAlways v = ⟨fxNeg v.y, v.x, fxSub v.t ninety⟩ := by
  rw [precorrectAlways, if_neg (by rw [negative_iff]; omega)]

theorem precorrectAlways_neg {v : Triple} (h : v.t.toInt < 0) :
    precorrectAlways v = ⟨v.y, fxNeg v.x, fxAdd v.t ninety⟩ := by
  rw [precorrectAlways, if_pos ((negative_iff _).2 h)]

/-- Beyond 90 degrees the two readings are one. Within 90 degrees, but at +90 degrees, the other reading's rotation by
90 degrees takes the angle over 0, and the first micro-rotation by 45 degrees back from there leaves what a first
micro-rotation by 45 degrees alone does. -/
theorem microrot_zero_precorrect {c : EngineConfig} {v : Triple} (hc : c.atan.get 0 = 5760) (ht : v.t ≠ 11520) :
    microrot c (precorrectAlways v) 0 false = microrot c (precorrect v) 0 false := by
  have hne : v.t.toInt ≠ 11520 := fun h => ht (BitVec.eq_of_toInt_eq (h.trans (by decide)))
  have h90 : ninety.toInt = 11520 := toInt_ninety
  rcases lt_or_ge 11520 v.t.toInt with habove | hhi
  · rw [precorrect_above habove, precorrectAlways_nonneg (by omega)]
  · rcases lt_or_ge v.t.toInt (-11520) with hbelow | hlo
    · rw [precorrect_below hbelow, precorrectAlways_neg (by omega)]
    · rw [precorrect_within hlo hhi, microrot_zero, microrot_zero, hc]
      rcases lt_or_ge v.t.toInt 0 with hneg | hpos
      · have hover : 0 ≤ (fxAdd v.t ninety).toInt := by
          rw [fxAdd, toInt_wrap16_of_fits (by omega) (by omega)]
          omega
        rw [precorrectAlways_neg hneg, if_pos ((nonNegative_iff _).2 hover), if_neg (by rw [nonNegative_iff]; omega)]
        simp only [fxAdd_eq, fxNeg_eq, ninety, Triple.mk.injEq]
        exact ⟨by ring, by ring, by ring⟩
      · have hover : (fxSub v.t ninety).toInt < 0 := by
          rw [fxSub, toInt_wrap16_of_fits (by omega) (by omega)]
          omega
        rw [precorrectAlways_nonneg hpos, if_neg (by rw [nonNegative_iff]; exact hover.not_ge),
          if_pos ((nonNegative_iff _).2 hpos)]
        simp only [fxSub_eq, fxNeg_eq, ninety, Triple.mk.injEq]
        exact ⟨by ring, by ring, by ring⟩

/-- The micro-rotations do not read which pre-correction was made. -/
theorem microrots_preMode (c : EngineConfig) (m : PreMode) (mode : Bool) (l : List (Fin 7)) (v : Triple) :
    microrots { c with preMode := m } mode l v = microrots c mode l v := by
  induction l generalizing v with
  | nil => rfl
  | cons i rest ih => exact ih _

theorem rotate_preMode (c : EngineConfig) (m : PreMode) (x y t0 : Fx) : rotate { c with preMode := m } x y t0 false =
    gainCorrect c (microrots c false [1, 2, 3, 4, 5, 6] (microrot c (precorrectWith m ⟨x, y, t0⟩) 0 false)) := by
  rw [rotate, microrots_preMode, microrots]
  rfl

end Sys2Proof.Machine

open Sys2Proof Sys2Proof.Machine

/-- Settles O18. -/
theorem precorrectionRange : Obligations.PrecorrectionRange := by
  intro x y t
  have hcases := toInt_precorrect_cases ⟨x, y, t⟩
  obtain ⟨hlo, hhi⟩ := toInt_fits t
  simp only at hcases
  refine ⟨fun h => ⟨toInt_precorrect_above h, ?_, ?_⟩, fun h => ⟨toInt_precorrect_below h, ?_, ?_⟩,
    precorrect_within (v := ⟨x, y, t⟩), by omega, by omega⟩
  · rw [precorrect_above h]
  · rw [precorrect_above h]
  · rw [precorrect_below h]
  · rw [precorrect_below h]

/-- Settles O19. -/
theorem residualAngleAtMost115 : Obligations.ResidualAngleAtMost115 := by
  intro x y t
  refine ⟨fun c x' y' => ?_, fun hlo hhi => ?_⟩
  · rw [t_rotate, t_rotate]
    exact t_microrots_rotation_congr c _ (t_precorrectWith_congr _ rfl)
  · have hcases := toInt_precorrect_cases ⟨x, y, t⟩
    simp only at hcases
    rw [t_rotate]
    exact t_microrots_default_bound (v := precorrect ⟨x, y, t⟩) (by omega)

/-- Settles O20. -/
theorem preModesAgreeBelowNinety : Obligations.PreModesAgreeBelowNinety := by
  refine ⟨fun c x y t hc ht => ?_, by decide, by decide⟩
  rw [rotate_preMode, rotate_preMode]
  simp only [precorrectWith, microrot_zero_precorrect (v := ⟨x, y, t⟩) hc ht]

/-- Settles O21. -/
theorem engineFunctionReturnsItsTriple : Obligations.EngineFunctionReturnsItsTriple := by
  refine ⟨fun x y t0 s => ⟨⟨_, rfl, returns_retire rfl _, frame_retire s _⟩,
    ⟨_, rfl, returns_retire rfl _, frame_retire s _⟩⟩,
    fun c x y t0 mode v h0 hstep => ?_⟩
  have hv : microrots c mode [0, 1, 2, 3, 4, 5, 6] (v 0) = v 7 := microrots_eq_of_steps fun i => by
    obtain ⟨d, hd, hd', he⟩ := hstep i
    rw [he, microrot_of_direction hd hd']
  rw [rotate, ← h0, hv]
  rfl
end

section
/-! The registers of an accelerator and its engine process: writes, reads, engine steps one after another, and one exchange
of the driver (42_transaction_interface.md, 45_host_protocol.md section 2). -/

namespace Sys2Proof.Machine

variable {s t : State}

/-! ### Operand writes (R121 to R123) -/

theorem exec_wrA (k : InstId) (w : Word) (s : State) : exec (.wrA k w) s = .next ((writeA k w s).retire .ok) := rfl
theorem exec_wrB (k : InstId) (w : Word) (s : State) : exec (.wrB k w) s = .next ((writeB k w s).retire .ok) := rfl
theorem exec_wrZ (k : InstId) (w : Word) (s : State) : exec (.wrZ k w) s = .next ((writeZ k w s).retire .ok) := rfl

theorem operand_of_narrow {F : Nat} {w : Word} {r : Fx} (h : narrow s.plat.engine.quant F w = some r) :
    operand F w s = (r, s) := by simp only [operand, h]

/-- The element is the word narrowed, or the next free value where it has no narrowing. -/
theorem operand_spec (F : Nat) (w : Word) (s : State) :
    (∀ q, narrow s.plat.engine.quant F w = some q → (operand F w s).1 = q ∧ (operand F w s).2.draws = s.draws) ∧
    (narrow s.plat.engine.quant F w = none →
      (operand F w s).1 = Config.draw16 s.draws ∧ (operand F w s).2.draws = s.draws + 1) := by
  refine ⟨fun q h => ?_, fun h => ?_⟩
  · rw [operand_of_narrow h]
    exact ⟨rfl, rfl⟩
  · simp only [operand, h, State.draws_drawn, and_self]

theorem draws_writeA (k : InstId) (w : Word) (s : State) : (writeA k w s).draws = (operand 8 w s).2.draws := by
  simp [writeA]
theorem draws_writeB (k : InstId) (w : Word) (s : State) : (writeB k w s).draws = (operand 8 w s).2.draws := by
  simp [writeB]
theorem draws_writeZ (k : InstId) (w : Word) (s : State) : (writeZ k w s).draws = (operand 7 w s).2.draws := by
  simp [writeZ]

/-- A word that has a narrowing is written without drawing a free value. -/
theorem writeA_of_narrow {w : Word} {r : Fx} (h : narrow s.plat.engine.quant 8 w = some r) (k : InstId) :
    writeA k w s = s.setInst k { s.inst k with inA := (s.inst k).inA ++ [r] } := by
  simp only [writeA, operand_of_narrow h]
theorem writeB_of_narrow {w : Word} {r : Fx} (h : narrow s.plat.engine.quant 8 w = some r) (k : InstId) :
    writeB k w s = s.setInst k { s.inst k with inB := (s.inst k).inB ++ [r] } := by
  simp only [writeB, operand_of_narrow h]
theorem writeZ_of_narrow {w : Word} {r : Fx} (h : narrow s.plat.engine.quant 7 w = some r) (k : InstId) :
    writeZ k w s = s.setInst k { s.inst k with inZ := (s.inst k).inZ ++ [r] } := by
  simp only [writeZ, operand_of_narrow h]

/-- What a write of an operand register does, of whichever channel: `f` is the accelerator with one element more. -/
theorem write_enqueues {i : Instr} {k : InstId} {F : Nat} {w : Word} {u : State} {f : Fx → Accel}
    (he : exec i s = .next (u.retire .ok)) (hu : Frame s u [.inst k, .draws])
    (hf : u.inst k = f (operand F w s).1) (hd : u.draws = (operand F w s).2.draws) :
    ∃ t r, exec i s = .next t ∧ returns s t .ok ∧ t.inst k = f r ∧
      Frame s t [.inst k, .worker s.active, .draws] ∧
      (∀ q, narrow s.plat.engine.quant F w = some q → r = q ∧ t.draws = s.draws) ∧
      (narrow s.plat.engine.quant F w = none → r = Config.draw16 s.draws ∧ t.draws = s.draws + 1) := by
  have hspec := operand_spec F w s
  rw [← hd] at hspec
  refine ⟨_, _, he, returns_retire (hu.self (by simp) (by simp)) _, (u.inst_retire k _).trans hf,
    hu.then (frame_retire _ _) (by simp) (by simp) (by simp), ?_, ?_⟩
  · simpa using hspec.1
  · simpa using hspec.2

/-! ### Reads (R124, R125, R129) -/

theorem finishRead_some {i : Instr} {w : Word} {u : State} : finishRead i s (some (w, u)) = .next (u.retire (.word w)) :=
  rfl

theorem finishRead_none {i : Instr} : finishRead i s none = .next (s.goto i .start) := rfl

theorem readA_cons {k : InstId} {r : Fx} {rest : List Fx} (h : (s.inst k).outA = r :: rest) :
    readA k s = some (widen 8 r, s.setInst k { s.inst k with outA := rest }) := by simp only [readA, h]
theorem readB_cons {k : InstId} {r : Fx} {rest : List Fx} (h : (s.inst k).outB = r :: rest) :
    readB k s = some (widen 8 r, s.setInst k { s.inst k with outB := rest }) := by simp only [readB, h]
theorem readZ_cons {k : InstId} {r : Fx} {rest : List Fx} (h : (s.inst k).outZ = r :: rest) :
    readZ k s = some (widen 7 r, s.setInst k { s.inst k with outZ := rest }) := by simp only [readZ, h]

theorem readA_nil {k : InstId} (h : (s.inst k).outA = []) : readA k s = none := by simp only [readA, h]
theorem readB_nil {k : InstId} (h : (s.inst k).outB = []) : readB k s = none := by simp only [readB, h]
theorem readZ_nil {k : InstId} (h : (s.inst k).outZ = []) : readZ k s = none := by simp only [readZ, h]

/-- A completed read took its head: what it returns and what it changes. -/
theorem finishRead_takes {i : Instr} {k : InstId} {w : Word} {v : Accel} {r : Option (Word × State)}
    (hr : r = some (w, s.setInst k v)) (he : exec i s = finishRead i s r) : ∃ t, exec i s = .next t ∧
      returns s t (.word w) ∧ t.inst k = v ∧ Frame s t [.inst k, .worker s.active] := by
  subst hr
  exact ⟨_, he, returns_retire (by simp) _, by simp,
    (frame_setInst s k v).then (frame_retire _ _) (by simp) (by simp) (by simp)⟩

/-- A read of an empty channel holds. -/
theorem finishRead_holds {i : Instr} {r : Option (Word × State)} (hr : r = none)
    (he : exec i s = finishRead i s r) : ∃ t, exec i s = .next t ∧ staysAt s t i .start ∧
      Frame s t [.worker s.active] := by
  subst hr
  exact ⟨_, he, by simp [staysAt], frame_goto s i .start⟩

theorem exec_badRd (k : InstId) (off : Word) (s : State) : exec (.badRd k off) s =
    .next (((s.diag k off .read).drawn).retire (.word (Config.draw32 s.draws))) := rfl

/-! ### The engine process (R130) -/

theorem stepEngine_cons {c : EngineConfig} {v : Accel} {x y z : Fx} {as bs zs : List Fx} (ha : v.inA = x :: as)
    (hb : v.inB = y :: bs) (hz : v.inZ = z :: zs) : v.stepEngine c = some ⟨as, bs, zs,
      v.outA ++ [(rotate c x y z false).x], v.outB ++ [(rotate c x y z false).y], v.outZ ++ [(rotate c x y z false).t],
      .idle⟩ := by
  simp only [Accel.stepEngine, ha, hb, hz]

theorem stepEngine_nil {c : EngineConfig} {v : Accel} (h : v.inA = [] ∨ v.inB = [] ∨ v.inZ = []) :
    v.stepEngine c = none := by
  simp only [Accel.stepEngine]
  split
  · rename_i ha hb hz
    simp [ha, hb, hz] at h
  · rfl

theorem exec_engineStep_of_some {k : InstId} {v : Accel} (h : (s.inst k).stepEngine s.plat.engine = some v) :
    exec (.engineStep k) s = .next (s.setInst k v) := by
  simp only [exec, execEngineStep, h]

theorem exec_engineStep_of_none {k : InstId} (h : (s.inst k).stepEngine s.plat.engine = none) :
    exec (.engineStep k) s = .next s := by
  simp only [exec, execEngineStep, h]

theorem engineStep_takes {k : InstId} {x y z : Fx} {as bs zs : List Fx} (ha : (s.inst k).inA = x :: as)
    (hb : (s.inst k).inB = y :: bs) (hz : (s.inst k).inZ = z :: zs) : ∃ t, exec (.engineStep k) s = .next t ∧
      t.inst k = ⟨as, bs, zs, (s.inst k).outA ++ [(rotate s.plat.engine x y z false).x],
        (s.inst k).outB ++ [(rotate s.plat.engine x y z false).y],
        (s.inst k).outZ ++ [(rotate s.plat.engine x y z false).t], .idle⟩ ∧ Frame s t [.inst k] := by
  have hexec := exec_engineStep_of_some (stepEngine_cons (c := s.plat.engine) ha hb hz)
  exact ⟨_, hexec, s.inst_setInst_same k _, frame_execEngineStep k hexec⟩

/-! ### Operations on end -/

theorem execTimes_succ {i : Instr} (n : Nat) (h : exec i s = .next t) : execTimes (n + 1) i s = execTimes n i t := by
  simp only [execTimes, h]

theorem execAll_cons {i : Instr} {rest : List Instr} (h : exec i s = .next t) :
    execAll (i :: rest) s = execAll rest t := by
  simp only [execAll, h]

/-- The triples of heads that the engine takes, in their order. -/
def Accel.operands (v : Accel) : List (Fx × Fx × Fx) := v.inA.zip (v.inB.zip v.inZ)

/-- Engine steps on end take the first operand triples and push their results, in order. -/
theorem execTimes_engineStep (n : Nat) (k : InstId) (s : State) (ha : n ≤ (s.inst k).inA.length)
    (hb : n ≤ (s.inst k).inB.length) (hz : n ≤ (s.inst k).inZ.length) :
    ∃ t, execTimes n (.engineStep k) s = .next t ∧ (t.inst k).inA = (s.inst k).inA.drop n ∧
      (t.inst k).inB = (s.inst k).inB.drop n ∧ (t.inst k).inZ = (s.inst k).inZ.drop n ∧
      (t.inst k).outA = (s.inst k).outA ++ ((s.inst k).operands.take n).map
        (fun v => (rotate s.plat.engine v.1 v.2.1 v.2.2 false).x) ∧
      (t.inst k).outB = (s.inst k).outB ++ ((s.inst k).operands.take n).map
        (fun v => (rotate s.plat.engine v.1 v.2.1 v.2.2 false).y) ∧
      (t.inst k).outZ = (s.inst k).outZ ++ ((s.inst k).operands.take n).map
        (fun v => (rotate s.plat.engine v.1 v.2.1 v.2.2 false).t) ∧ Frame s t [.inst k] := by
  induction n generalizing s with
  | zero => exact ⟨s, rfl, by simp, by simp, by simp, by simp, by simp, by simp, Frame.refl _ _⟩
  | succ n ih =>
    obtain ⟨x, as, hA⟩ := List.exists_cons_of_length_pos (Nat.lt_of_lt_of_le n.succ_pos ha)
    obtain ⟨y, bs, hB⟩ := List.exists_cons_of_length_pos (Nat.lt_of_lt_of_le n.succ_pos hb)
    obtain ⟨z, zs, hZ⟩ := List.exists_cons_of_length_pos (Nat.lt_of_lt_of_le n.succ_pos hz)
    obtain ⟨u, hu, hinst, hfirst⟩ := engineStep_takes hA hB hZ
    rw [hA, List.length_cons] at ha
    rw [hB, List.length_cons] at hb
    rw [hZ, List.length_cons] at hz
    obtain ⟨t, ht, htA, htB, htZ, htX, htY, htT, hrest⟩ :=
      ih u (by simpa [hinst] using ha) (by simpa [hinst] using hb) (by simpa [hinst] using hz)
    have hops : (s.inst k).operands = (x, y, z) :: (u.inst k).operands := by
      simp only [Accel.operands, hA, hB, hZ, hinst, List.zip_cons_cons]
    rw [hops, List.take_succ_cons]
    refine ⟨t, (execTimes_succ n hu).trans ht, ?_, ?_, ?_, ?_, ?_, ?_, hfirst.trans hrest⟩
    · rw [htA, hinst, hA, List.drop_succ_cons]
    · rw [htB, hinst, hB, List.drop_succ_cons]
    · rw [htZ, hinst, hZ, List.drop_succ_cons]
    · rw [htX, hinst, hfirst.plat (by simp), List.map_cons, List.append_assoc, List.singleton_append]
    · rw [htY, hinst, hfirst.plat (by simp), List.map_cons, List.append_assoc, List.singleton_append]
    · rw [htT, hinst, hfirst.plat (by simp), List.map_cons, List.append_assoc, List.singleton_append]

/-- From `s` to `t` accelerator k became `v`, the active worker was given `rs`, and nothing else changed but the worker's
own state. -/
def InstanceMoves (k : InstId) (s t : State) (v : Accel) (rs : List Ret) : Prop :=
  t.inst k = v ∧ t.self.returned = s.self.returned ++ rs ∧ Frame s t [.inst k, .worker s.active]

theorem InstanceMoves.inst {k : InstId} {v : Accel} {rs : List Ret} (h : InstanceMoves k s t v rs) :
    t.inst k = v := h.1

theorem InstanceMoves.plat {k : InstId} {v : Accel} {rs : List Ret} (h : InstanceMoves k s t v rs) :
    t.plat = s.plat := h.2.2.plat (by simp)

theorem InstanceMoves.trans {k : InstId} {u : State} {v v' : Accel} {rs rs' : List Ret}
    (h : InstanceMoves k s t v rs) (h' : InstanceMoves k t u v' rs') : InstanceMoves k s u v' (rs ++ rs') := by
  obtain ⟨_, hret, hframe⟩ := h
  obtain ⟨hinst', hret', hframe'⟩ := h'
  rw [hframe.active (by simp)] at hframe'
  exact ⟨hinst', by rw [hret', hret, List.append_assoc], hframe.trans hframe'⟩

theorem instanceMoves_retire (s : State) (k : InstId) (v : Accel) (r : Ret) :
    InstanceMoves k s ((s.setInst k v).retire r) v [r] :=
  ⟨by simp, by simp, (frame_setInst s k v).then (frame_retire _ _) (by simp) (by simp) (by simp)⟩

/-- The six operations of a worker and the engine step, as moves of the accelerator they are performed by. -/
theorem wrA_moves {k : InstId} {w : Word} {r : Fx} (h : narrow s.plat.engine.quant 8 w = some r) :
    ∃ t, exec (.wrA k w) s = .next t ∧
      InstanceMoves k s t { s.inst k with inA := (s.inst k).inA ++ [r] } [.ok] := by
  rw [exec_wrA, writeA_of_narrow h]
  exact ⟨_, rfl, instanceMoves_retire s k _ _⟩
theorem wrB_moves {k : InstId} {w : Word} {r : Fx} (h : narrow s.plat.engine.quant 8 w = some r) :
    ∃ t, exec (.wrB k w) s = .next t ∧
      InstanceMoves k s t { s.inst k with inB := (s.inst k).inB ++ [r] } [.ok] := by
  rw [exec_wrB, writeB_of_narrow h]
  exact ⟨_, rfl, instanceMoves_retire s k _ _⟩
theorem wrZ_moves {k : InstId} {w : Word} {r : Fx} (h : narrow s.plat.engine.quant 7 w = some r) :
    ∃ t, exec (.wrZ k w) s = .next t ∧
      InstanceMoves k s t { s.inst k with inZ := (s.inst k).inZ ++ [r] } [.ok] := by
  rw [exec_wrZ, writeZ_of_narrow h]
  exact ⟨_, rfl, instanceMoves_retire s k _ _⟩
theorem rdA_moves {k : InstId} {r : Fx} {rest : List Fx} (h : (s.inst k).outA = r :: rest) :
    ∃ t, exec (.rdA k) s = .next t ∧ InstanceMoves k s t { s.inst k with outA := rest } [.word (widen 8 r)] := by
  obtain ⟨t, ht, ⟨hret, _, _⟩, hinst, hframe⟩ := finishRead_takes (i := .rdA k) (readA_cons h) rfl
  exact ⟨t, ht, hinst, hret, hframe⟩
theorem rdB_moves {k : InstId} {r : Fx} {rest : List Fx} (h : (s.inst k).outB = r :: rest) :
    ∃ t, exec (.rdB k) s = .next t ∧ InstanceMoves k s t { s.inst k with outB := rest } [.word (widen 8 r)] := by
  obtain ⟨t, ht, ⟨hret, _, _⟩, hinst, hframe⟩ := finishRead_takes (i := .rdB k) (readB_cons h) rfl
  exact ⟨t, ht, hinst, hret, hframe⟩
theorem rdZ_moves {k : InstId} {r : Fx} {rest : List Fx} (h : (s.inst k).outZ = r :: rest) :
    ∃ t, exec (.rdZ k) s = .next t ∧ InstanceMoves k s t { s.inst k with outZ := rest } [.word (widen 7 r)] := by
  obtain ⟨t, ht, ⟨hret, _, _⟩, hinst, hframe⟩ := finishRead_takes (i := .rdZ k) (readZ_cons h) rfl
  exact ⟨t, ht, hinst, hret, hframe⟩
theorem engineStep_moves {k : InstId} {x y z : Fx} {as bs zs : List Fx} (ha : (s.inst k).inA = x :: as)
    (hb : (s.inst k).inB = y :: bs) (hz : (s.inst k).inZ = z :: zs) : ∃ t, exec (.engineStep k) s = .next t ∧
      InstanceMoves k s t ⟨as, bs, zs, (s.inst k).outA ++ [(rotate s.plat.engine x y z false).x],
        (s.inst k).outB ++ [(rotate s.plat.engine x y z false).y],
        (s.inst k).outZ ++ [(rotate s.plat.engine x y z false).t], .idle⟩ [] := by
  obtain ⟨t, ht, hinst, hframe⟩ := engineStep_takes ha hb hz
  exact ⟨t, ht, hinst, by rw [hframe.self (by simp) (by simp), List.append_nil], hframe.mono (by simp)⟩

theorem Accel.drained_iff {v : Accel} : v.drained = true ↔
    v.inA = [] ∧ v.inB = [] ∧ v.inZ = [] ∧ v.outA = [] ∧ v.outB = [] ∧ v.outZ = [] := by
  simp [Accel.drained, and_assoc]

end Sys2Proof.Machine

open Sys2Proof Sys2Proof.Machine

/-- Settles O22. -/
theorem writesEnqueueOneElement : Obligations.WritesEnqueueOneElement := fun k w s =>
  ⟨write_enqueues (exec_wrA k w s) (frame_writeA k w s) (inst_writeA k w s) (draws_writeA k w s),
    write_enqueues (exec_wrB k w s) (frame_writeB k w s) (inst_writeB k w s) (draws_writeB k w s),
    write_enqueues (exec_wrZ k w s) (frame_writeZ k w s) (inst_writeZ k w s) (draws_writeZ k w s)⟩

/-- Settles O23. -/
theorem readsTakeTheHead : Obligations.ReadsTakeTheHead := fun _ _ _ _ =>
  ⟨fun h => finishRead_takes (readA_cons h) rfl, fun h => finishRead_takes (readB_cons h) rfl,
    fun h => finishRead_takes (readZ_cons h) rfl⟩

/-- Settles O24. -/
theorem readsHoldWhileEmpty : Obligations.ReadsHoldWhileEmpty := fun _ _ =>
  ⟨fun h => finishRead_holds (readA_nil h) rfl, fun h => finishRead_holds (readB_nil h) rfl,
    fun h => finishRead_holds (readZ_nil h) rfl⟩

/-- Settles O26. -/
theorem badReadLogsAndReturnsAFreeWord : Obligations.BadReadLogsAndReturnsAFreeWord :=
  ⟨decodeAcc_read_eq_badRd_iff, fun k off s => ⟨_, exec_badRd k off s, returns_retire (by simp) _, by simp, by simp,
    (frame_execBadRd k off (exec_badRd k off s)).mono (by simp)⟩⟩

/-- Settles O27. -/
theorem engineStepTakesThree : Obligations.EngineStepTakesThree :=
  ⟨fun _ _ _ _ _ _ _ _ => engineStep_takes, fun _ _ h => exec_engineStep_of_none (stepEngine_nil h)⟩

/-- Settles O28. -/
theorem engineIsFirstInFirstOut : Obligations.EngineIsFirstInFirstOut := execTimes_engineStep

/-- Settles O29. Seven moves of the accelerator on end: each channel gets one element and loses it again. -/
theorem exchangeReturnsTheRotation : Obligations.ExchangeReturnsTheRotation := by
  intro k s wa wb wz x y z hdrained hx hy hz
  obtain ⟨hinA, hinB, hinZ, houtA, houtB, houtZ⟩ := Accel.drained_iff.1 hdrained
  obtain ⟨s1, e1, m1⟩ := wrA_moves (k := k) hx
  obtain ⟨s2, e2, m2⟩ := wrB_moves (k := k) (m1.plat ▸ hy)
  obtain ⟨s3, e3, m3⟩ := wrZ_moves (k := k) ((m1.trans m2).plat ▸ hz)
  have h3 : s3.inst k = ⟨[x], [y], [z], [], [], [], (s.inst k).epc⟩ := by
    simp [m3.inst, m2.inst, m1.inst, hinA, hinB, hinZ, houtA, houtB, houtZ]
  obtain ⟨s4, e4, m4⟩ := engineStep_moves (s := s3) (k := k) (by rw [h3]) (by rw [h3]) (by rw [h3])
  have hplat := ((m1.trans m2).trans m3).plat
  rw [h3, hplat] at m4
  obtain ⟨s5, e5, m5⟩ := rdA_moves (s := s4) (k := k) (by rw [m4.inst]; rfl)
  obtain ⟨s6, e6, m6⟩ := rdB_moves (s := s5) (k := k) (by rw [m5.inst, m4.inst]; rfl)
  obtain ⟨s7, e7, m7⟩ := rdZ_moves (s := s6) (k := k) (by rw [m6.inst, m5.inst, m4.inst]; rfl)
  obtain ⟨hinst, hret, hframe⟩ := (((((m1.trans m2).trans m3).trans m4).trans m5).trans m6).trans m7
  refine ⟨s7, ?_, hret, ?_, hframe⟩
  · rw [execAll_cons e1, execAll_cons e2, execAll_cons e3, execAll_cons e4, execAll_cons e5, execAll_cons e6,
      execAll_cons e7]
    rfl
  · rw [Accel.drained_iff, hinst, m6.inst, m5.inst, m4.inst]
    exact ⟨rfl, rfl, rfl, rfl, rfl, rfl⟩
end

section
/-! The bulk transfer block: its registers, what each step of a copy does, and whole copies (44_bulk_transfer.md). -/

namespace Sys2Proof.Machine

variable {s t : State}

/-! ### The platform's numbers, taken apart (R46) -/

structure Platform.Bounds (p : Platform) : Prop where
  aligned : ∀ k, (p.accBase k).toNat % 4 = 0
  window : 0x18 ≤ p.windowSize.toNat
  fits : ∀ k, (p.accBase k).toNat + p.windowSize.toNat ≤ addressSpace
  apart : overlaps p.accBase0.toNat p.windowSize.toNat p.accBase1.toNat p.windowSize.toNat = false
  apartDma : ∀ k, overlaps (p.accBase k).toNat p.windowSize.toNat p.dmaBase.toNat dmaBytes = false

theorem Platform.bounds {p : Platform} (h : p.ok = true) : p.Bounds := by
  simp only [Platform.ok, aligned4, Bool.and_eq_true, Bool.not_eq_true', beq_iff_eq, decide_eq_true_eq] at h
  obtain ⟨⟨⟨⟨⟨⟨⟨⟨⟨⟨h0, h1⟩, _⟩, hw⟩, hf0⟩, hf1⟩, _⟩, _⟩, hap⟩, hd0⟩, hd1⟩ := h
  exact ⟨fun k => by cases k <;> assumption, hw, fun k => by cases k <;> assumption, hap,
    fun k => by cases k <;> assumption⟩

theorem overlaps_comm (lo n lo' n' : Nat) : overlaps lo n lo' n' = overlaps lo' n' lo n := by
  simp only [overlaps, Bool.and_comm]

/-- What overlaps a range overlaps every range that one lies in. -/
theorem overlaps_of_insideOf {lo n lo' n' lo'' n'' : Nat} (h : insideOf lo n lo'' n'' = true)
    (ho : overlaps lo n lo' n' = true) : overlaps lo'' n'' lo' n' = true := by
  simp only [insideOf, overlaps, Bool.and_eq_true, decide_eq_true_eq] at *
  omega

theorem Platform.windowRange_iff {p : Platform} {lo n : Nat} :
    p.windowRange lo n = true ↔ ∃ k, insideOf lo n (p.accBase k).toNat p.windowSize.toNat = true := by
  simp only [Platform.windowRange, Bool.or_eq_true]
  exact ⟨fun h => h.elim (fun h => ⟨.acc0, h⟩) fun h => ⟨.acc1, h⟩,
    fun ⟨k, h⟩ => by cases k <;> [exact .inl h; exact .inr h]⟩

theorem Platform.touchesDevice_iff {p : Platform} {lo n : Nat} : p.touchesDevice lo n = true ↔
    (∃ k, overlaps lo n (p.accBase k).toNat p.windowSize.toNat = true) ∨
      overlaps lo n p.dmaBase.toNat dmaBytes = true := by
  simp only [Platform.touchesDevice, Bool.or_eq_true]
  refine or_congr_left ⟨fun h => h.elim (fun h => ⟨.acc0, h⟩) fun h => ⟨.acc1, h⟩,
    fun ⟨k, h⟩ => by cases k <;> [exact .inl h; exact .inr h]⟩

theorem Platform.memoryRange_touches {p : Platform} {lo n : Nat} (h : p.memoryRange lo n = true) :
    p.touchesDevice lo n = false := by
  simp only [Platform.memoryRange, Bool.and_eq_true, Bool.not_eq_true'] at h
  exact h.2

theorem Platform.touchesDevice_of_windowRange {p : Platform} {lo n : Nat} (hn : 0 < n)
    (h : p.windowRange lo n = true) : p.touchesDevice lo n = true := by
  obtain ⟨k, hk⟩ := Platform.windowRange_iff.1 h
  refine Platform.touchesDevice_iff.2 (.inl ⟨k, ?_⟩)
  simp only [insideOf, overlaps, Bool.and_eq_true, decide_eq_true_eq] at *
  omega

/-- Ranges of two windows that share a byte are of one window. -/
theorem Platform.Bounds.window_eq {p : Platform} (h : p.Bounds) {j k : InstId}
    (ho : overlaps (p.accBase j).toNat p.windowSize.toNat (p.accBase k).toNat p.windowSize.toNat = true) : j = k := by
  have hap := h.apart
  cases j <;> cases k
  · rfl
  · simp [Platform.accBase, hap] at ho
  · simp [Platform.accBase, overlaps_comm, hap] at ho
  · rfl

/-- A range across an end of a window, or with a byte of the bulk registers, is neither memory nor in a window. -/
theorem Platform.Bounds.straddles {p : Platform} (h : p.Bounds) {lo n : Nat}
    (hs : (∃ k, overlaps lo n (p.accBase k).toNat p.windowSize.toNat = true ∧
      insideOf lo n (p.accBase k).toNat p.windowSize.toNat = false) ∨ overlaps lo n p.dmaBase.toNat dmaBytes = true) :
    p.memoryRange lo n = false ∧ p.windowRange lo n = false := by
  have htouch : p.touchesDevice lo n = true :=
    Platform.touchesDevice_iff.2 (hs.imp (fun ⟨k, hk, _⟩ => ⟨k, hk⟩) id)
  refine ⟨by simp [Platform.memoryRange, htouch], ?_⟩
  rw [← Bool.not_eq_true, Platform.windowRange_iff]
  rintro ⟨j, hj⟩
  rcases hs with ⟨k, hk, hout⟩ | hdma
  · obtain rfl := h.window_eq (overlaps_of_insideOf hj hk)
    rw [hj] at hout
    cases hout
  · have := overlaps_of_insideOf hj hdma
    rw [h.apartDma j] at this
    cases this

/-! ### The registers (R171 to R173) -/

theorem exec_dmaSrc (v : Word) (s : State) :
    exec (.dmaSrc v) s = .next ((s.setDma { s.dma with src := v }).retire .ok) := rfl
theorem exec_dmaDst (v : Word) (s : State) :
    exec (.dmaDst v) s = .next ((s.setDma { s.dma with dst := v }).retire .ok) := rfl
theorem exec_dmaLen (v : Word) (s : State) :
    exec (.dmaLen v) s = .next ((s.setDma { s.dma with len := v }).retire .ok) := rfl

/-- A register write that retires at once. -/
theorem returns_setDma (s : State) (v : Dma) : returns s ((s.setDma v).retire .ok) .ok :=
  returns_retire (s.self_setDma v) .ok

/-! ### The plan of a copy (R176, R177) -/

section
variable {p : Platform} {src dst len : Word}

/-- The copy wraps or overlaps itself; a copy that does neither goes by what its ranges touch. -/
def CopyRangesOk (src dst len : Word) : Prop :=
  ¬(addressSpace < src.toNat + len.toNat ∨ addressSpace < dst.toNat + len.toNat) ∧
    overlaps src.toNat len.toNat dst.toNat len.toNat = false

/-- The range is shared memory or inside one window. -/
def Platform.fits (p : Platform) (a len : Word) : Prop :=
  p.memoryRange a.toNat len.toNat = true ∨ p.windowRange a.toNat len.toNat = true

theorem copyPlan_touching (hr : CopyRangesOk src dst len)
    (ht : p.touchesDevice src.toNat len.toNat = true ∨ p.touchesDevice dst.toNat len.toNat = true)
    (ha : ¬(len.toNat % 4 ≠ 0 ∨ src.toNat % 4 ≠ 0 ∨ dst.toNat % 4 ≠ 0)) (hs : p.fits src len) (hd : p.fits dst len) :
    copyPlan p src dst len = .ok .copyRead := by
  obtain ⟨hwrap, hover⟩ := hr
  rw [copyPlan, if_neg hwrap, if_neg (by simp [hover]), if_pos (by simpa using ht), if_neg ha, if_pos]
  simpa [Platform.fits] using And.intro hs hd

theorem copyPlan_memory (hr : CopyRangesOk src dst len) (hs : p.memoryRange src.toNat len.toNat = true)
    (hd : p.memoryRange dst.toNat len.toNat = true) : copyPlan p src dst len = .ok .copyByte := by
  obtain ⟨hwrap, hover⟩ := hr
  rw [copyPlan, if_neg hwrap, if_neg (by simp [hover]),
    if_neg (by simp [Platform.memoryRange_touches hs, Platform.memoryRange_touches hd]), if_pos (by simp [hs, hd])]

theorem copyPlan_unaligned (hr : CopyRangesOk src dst len)
    (ht : p.touchesDevice src.toNat len.toNat = true ∨ p.touchesDevice dst.toNat len.toNat = true)
    (ha : len.toNat % 4 ≠ 0 ∨ src.toNat % 4 ≠ 0 ∨ dst.toNat % 4 ≠ 0) :
    copyPlan p src dst len = .error .bulkUnaligned := by
  obtain ⟨hwrap, hover⟩ := hr
  rw [copyPlan, if_neg hwrap, if_neg (by simp [hover]), if_pos (by simpa using ht), if_pos ha]

theorem copyPlan_straddles (hr : CopyRangesOk src dst len)
    (ha : ¬((p.touchesDevice src.toNat len.toNat = true ∨ p.touchesDevice dst.toNat len.toNat = true) ∧
      (len.toNat % 4 ≠ 0 ∨ src.toNat % 4 ≠ 0 ∨ dst.toNat % 4 ≠ 0)))
    (hf : ¬p.fits src len ∨ ¬p.fits dst len) : copyPlan p src dst len = .error .bulkStraddles := by
  obtain ⟨hwrap, hover⟩ := hr
  rw [copyPlan, if_neg hwrap, if_neg (by simp [hover])]
  split_ifs with ht hal hfit hmem
  · exact absurd ⟨by simpa using ht, hal⟩ ha
  · exact absurd (by simpa [Platform.fits] using hfit) (not_and_or.2 hf)
  · rfl
  · simp only [Bool.and_eq_true] at hmem
    exact absurd ⟨.inl hmem.1, .inl hmem.2⟩ (not_and_or.2 hf)
  · rfl

/-- A range that fits and touches no device is shared memory. -/
theorem Platform.fits_memoryRange {a : Word} (hlen : 0 < len.toNat) (hf : p.fits a len)
    (ht : p.touchesDevice a.toNat len.toNat = false) : p.memoryRange a.toNat len.toNat = true := by
  refine hf.resolve_right fun hw => ?_
  rw [Platform.touchesDevice_of_windowRange hlen hw] at ht
  cases ht

end

/-! ### The first step of a copy (R175 to R177) -/

theorem exec_copy_start (hpc : s.self.pc = .start) : exec .dmaOpCopy s = copyStart s := by
  simp only [exec, execDmaOpCopy, hpc]

theorem dma_startCopy (s : State) : s.startCopy.dma = ⟨s.dma.src, s.dma.dst, s.dma.len, 1⟩ := by
  simp [State.startCopy]

theorem self_startCopy (s : State) :
    s.startCopy.self = { s.self with copy := ⟨s.dma.src, s.dma.dst, s.dma.len, 0, 0⟩ } := by
  simp [State.startCopy]

theorem copyStart_zero (hlen : s.dma.len = 0) : copyStart s = .next (s.startCopy.retire .ok) := by
  simp only [copyStart, hlen, if_true]

theorem copyStart_error {r : Refusal} (hlen : s.dma.len ≠ 0)
    (hp : copyPlan s.plat s.dma.src s.dma.dst s.dma.len = .error r) : copyStart s = .refused r := by
  simp only [copyStart, hlen, if_false, hp]

theorem copyStart_ok {l : Label} (hlen : s.dma.len ≠ 0)
    (hp : copyPlan s.plat s.dma.src s.dma.dst s.dma.len = .ok l) :
    copyStart s = .next (s.startCopy.goto .dmaOpCopy l) := by
  simp only [copyStart, hlen, if_false, hp]

/-- A copy that starts: the registers, the request, the label it goes on at. -/
theorem copy_starts {l : Label} (hpc : s.self.pc = .start) (hlen : s.dma.len ≠ 0)
    (hp : copyPlan s.plat s.dma.src s.dma.dst s.dma.len = .ok l) : ∃ t, exec .dmaOpCopy s = .next t ∧
      staysAt s t .dmaOpCopy l ∧ t.self.copy = ⟨s.dma.src, s.dma.dst, s.dma.len, 0, 0⟩ ∧
      t.dma = ⟨s.dma.src, s.dma.dst, s.dma.len, 1⟩ ∧ Frame s t [.dma, .worker s.active] := by
  have hstart := copyStart_ok hlen hp
  exact ⟨_, (exec_copy_start hpc).trans hstart, by simp [staysAt, self_startCopy], by simp [self_startCopy],
    by simp [dma_startCopy], frame_copyStart hstart⟩

/-! ### A step of a copy that moves bytes or a word -/

/-- After `n` more bytes the copy that `s` had in progress returns, or goes on at `l` with `b` the word last read. -/
def CopyGoesOn (s t : State) (n : Nat) (l : Label) (b : Word) : Prop :=
  (s.self.copy.len.toNat ≤ s.self.copy.done + n → returns s t .ok) ∧
  (s.self.copy.done + n < s.self.copy.len.toNat → staysAt s t .dmaOpCopy l ∧
    t.self.copy = { s.self.copy with done := s.self.copy.done + n, buf := b })

theorem copyGoesOn_copied {u : State} {b : Word} (n : Nat) (l : Label) (hret : u.self.returned = s.self.returned)
    (hscript : u.self.script = s.self.script) (hcopy : u.self.copy = { s.self.copy with buf := b }) :
    CopyGoesOn s (u.copied n l) n l b := by
  refine ⟨fun hend => ?_, fun hmore => ?_⟩
  · simp [State.copied, hcopy, hend, returns, hret, hscript]
  · simp [State.copied, hcopy, hmore.not_ge, staysAt, hret, hscript]

theorem exec_copyByte (hpc : s.self.pc = .copyByte) : exec .dmaOpCopy s =
    .next ((s.storeByte (s.self.copy.dst.toNat + s.self.copy.done)
      (s.loadByte (s.self.copy.src.toNat + s.self.copy.done))).copied 1 .copyByte) := by
  simp only [exec, execDmaOpCopy, hpc, copyByteStep]

@[simp] theorem State.loadByte_copied (s : State) (n : Nat) (l : Label) (x : Nat) :
    (s.copied n l).loadByte x = s.loadByte x := (frame_copied s n l).loadByte (by simp) x

/-- A byte of a memory copy (R176). -/
theorem copyByte_moves (hpc : s.self.pc = .copyByte) : ∃ t, exec .dmaOpCopy s = .next t ∧
    t.loadByte (s.self.copy.dst.toNat + s.self.copy.done) = s.loadByte (s.self.copy.src.toNat + s.self.copy.done) ∧
    sameOutside s t (s.self.copy.dst.toNat + s.self.copy.done) 1 ∧ Frame s t [.memory, .worker s.active] ∧
    CopyGoesOn s t 1 .copyByte s.self.copy.buf := by
  refine ⟨_, exec_copyByte hpc, by simp [State.loadByte_storeByte], fun x hx => ?_,
    frame_copyByteStep rfl, copyGoesOn_copied 1 _ (by simp) (by simp) (by simp)⟩
  rw [State.loadByte_copied, State.loadByte_storeByte, if_neg (by omega)]

theorem execTimes_add {m : Nat} {i : Instr} (n : Nat) (h : execTimes m i s = .next t) :
    execTimes (m + n) i s = execTimes n i t := by
  induction m generalizing s with
  | zero => cases h; rw [Nat.zero_add]
  | succ m ih =>
    simp only [execTimes] at h
    split at h
    · rename_i u hu
      rw [Nat.succ_add, execTimes_succ _ hu, ih h]
    · cases h
    · cases h

theorem staysAt.pc {i : Instr} {l : Label} (h : staysAt s t i l) : t.self.pc = l := h.2.1

/-- What one step leaves the worker with, another operation's result may follow. -/
theorem returns_of_staysAt {u : State} {i : Instr} {l : Label} {r : Ret} (h : staysAt s t i l) (h' : returns t u r) :
    returns s u r := by
  obtain ⟨_, _, hret, hscript⟩ := h
  obtain ⟨hret', hcur', hscript'⟩ := h'
  exact ⟨by rw [hret', hret], hcur', hscript'.trans hscript⟩

/-- The frames of steps on end, the second one's worker being the first one's. -/
theorem Frame.next {u : State} {l l' m : List Part} (h : Frame s t (.worker s.active :: l))
    (h' : Frame t u (.worker t.active :: l')) (hs : Part.schedule ∉ l) (hl : l ⊆ m) (hl' : l' ⊆ m) :
    Frame s u (.worker s.active :: m) := by
  rw [h.active (by simpa using hs)] at h'
  exact (h.mono (List.cons_subset_cons _ hl)).trans (h'.mono (List.cons_subset_cons _ hl'))

/-- The rest of a copy of bytes, of which `m` are left. -/
theorem copyBytes_complete (m : Nat) (s : State) (hpc : s.self.pc = .copyByte) (hm : 0 < m)
    (hleft : s.self.copy.done + m = s.self.copy.len.toNat)
    (hover : overlaps s.self.copy.src.toNat s.self.copy.len.toNat s.self.copy.dst.toNat s.self.copy.len.toNat = false) :
    ∃ t, execTimes m .dmaOpCopy s = .next t ∧ returns s t .ok ∧
      (∀ j, s.self.copy.done ≤ j → j < s.self.copy.len.toNat →
        t.loadByte (s.self.copy.dst.toNat + j) = s.loadByte (s.self.copy.src.toNat + j)) ∧
      sameOutside s t (s.self.copy.dst.toNat + s.self.copy.done) m ∧ Frame s t [.worker s.active, .memory] := by
  induction m generalizing s with
  | zero => cases hm
  | succ m ih =>
    obtain ⟨u, hu, hbyte, hout, hframe, hend, hmore⟩ := copyByte_moves hpc
    rcases Nat.eq_zero_or_pos m with rfl | hm'
    · refine ⟨u, execTimes_succ 0 hu, hend (by omega), fun j hj hj' => ?_, hout, hframe.mono (by simp)⟩
      rwa [show j = s.self.copy.done by omega]
    · obtain ⟨hstays, hcopy⟩ := hmore (by omega)
      obtain ⟨t, ht, hret, hbytes, hout', hframe'⟩ := ih u hstays.pc hm' (by rw [hcopy]; simp only; omega)
        (by rw [hcopy]; exact hover)
      simp only [hcopy] at hbytes hout'
      refine ⟨t, (execTimes_succ m hu).trans ht, returns_of_staysAt hstays hret, fun j hj hj' => ?_,
        fun x hx => ?_, Frame.next (l := [.memory]) (hframe.mono (by simp)) hframe' (by simp) (by simp) (by simp)⟩
      · rcases Nat.eq_or_lt_of_le hj with rfl | hlt
        · rw [← hbyte]
          exact hout' _ (by omega)
        · rw [hbytes j (by omega) hj']
          refine hout _ ?_
          simp only [overlaps, Bool.and_eq_false_iff, decide_eq_false_iff_not] at hover
          omega
      · exact (hout' x (by omega)).trans (hout x (by omega))

end Sys2Proof.Machine

open Sys2Proof Sys2Proof.Machine

/-- Settles O30. -/
theorem bulkRegisterWritesStore : Obligations.BulkRegisterWritesStore := fun v s =>
  ⟨⟨_, exec_dmaSrc v s, returns_setDma s _, by simp, frame_execDmaSrc v (exec_dmaSrc v s)⟩,
    ⟨_, exec_dmaDst v s, returns_setDma s _, by simp, frame_execDmaDst v (exec_dmaDst v s)⟩,
    ⟨_, exec_dmaLen v s, returns_setDma s _, by simp, frame_execDmaLen v (exec_dmaLen v s)⟩⟩

/-- Settles O32. -/
theorem copyOfNothingReturns : Obligations.CopyOfNothingReturns := by
  intro s hpc hlen
  have hstart := copyStart_zero hlen
  exact ⟨_, (exec_copy_start hpc).trans hstart, by simp [returns, self_startCopy], by simp [dma_startCopy],
    frame_copyStart hstart⟩

/-- Settles O33. -/
theorem copyMovesOneByteAStep : Obligations.CopyMovesOneByteAStep := by
  intro s hpc
  obtain ⟨t, ht, hbyte, hout, hframe, hend, hmore⟩ := copyByte_moves hpc
  exact ⟨t, ht, hbyte, hout, hframe, hend, hmore⟩

/-- Settles O34. The first step starts a copy of bytes (`copyPlan_memory`), and the rest is one step a byte. -/
theorem copyOfMemoryCompletes : Obligations.CopyOfMemoryCompletes := by
  intro s hok hpc hlen hsrc hdst hover
  have hs := Platform.memoryRange_le hok hsrc
  have hd := Platform.memoryRange_le hok hdst
  have hpos : 0 < s.dma.len.toNat := Nat.pos_of_ne_zero fun h => hlen (BitVec.eq_of_toNat_eq h)
  obtain ⟨u, hu, hstays, hcopy, hdma, hframe⟩ :=
    copy_starts hpc hlen (copyPlan_memory ⟨by omega, hover⟩ hsrc hdst)
  obtain ⟨t, ht, hret, hbytes, hout, hframe'⟩ := copyBytes_complete s.dma.len.toNat u hstays.pc hpos
    (by rw [hcopy]; exact Nat.zero_add _) (by rw [hcopy]; exact hover)
  simp only [hcopy] at hbytes hout
  have hmem := hframe.loadByte (by simp)
  refine ⟨t, ?_, returns_of_staysAt hstays hret, fun j hj => ?_, fun x hx => ?_, ?_, ?_⟩
  · rw [Nat.add_comm, execTimes_succ _ hu, ht]
  · rw [hbytes j (Nat.zero_le j) hj, hmem]
  · rw [hout x hx, hmem]
  · rw [hframe'.dma (by simp), hdma]
  · exact (Frame.next (l := [.dma]) (m := [.dma, .memory]) (hframe.mono (by simp)) hframe' (by simp) (by simp)
      (by simp)).mono (by simp)

/-- Settles O38. The statement's tests are those of the copy's plan, in the same order; a range across an end of a
window or in the bulk registers fails both of the plan's last tests. -/
theorem copyRefusals : Obligations.CopyRefusals := by
  refine ⟨fun s hpc hlen => ?_, fun p lo n hp _ hs => (Platform.bounds hp).straddles hs⟩
  rw [exec_copy_start hpc]
  have hpos : 0 < s.dma.len.toNat := Nat.pos_of_ne_zero fun h => hlen (BitVec.eq_of_toNat_eq h)
  have hfits : ∀ a, (s.plat.memoryRange a s.dma.len.toNat = false ∧ s.plat.windowRange a s.dma.len.toNat = false) ↔
      ¬(s.plat.memoryRange a s.dma.len.toNat = true ∨ s.plat.windowRange a s.dma.len.toNat = true) := by
    intro a
    simp
  split_ifs with hwrap hover hun hstr htouch
  · exact copyStart_error hlen (by rw [copyPlan, if_pos hwrap])
  · exact copyStart_error hlen (by rw [copyPlan, if_neg hwrap, if_pos hover])
  · exact copyStart_error hlen (copyPlan_unaligned ⟨hwrap, by simpa using hover⟩ hun.1 hun.2)
  · rw [hfits, hfits] at hstr
    exact copyStart_error hlen (copyPlan_straddles ⟨hwrap, by simpa using hover⟩ hun hstr)
  · rw [hfits, hfits, not_or, not_not, not_not] at hstr
    obtain ⟨t, ht, hstays, _, _, hframe⟩ := copy_starts hpc hlen (copyPlan_touching ⟨hwrap, by simpa using hover⟩
      htouch (fun ha => hun ⟨htouch, ha⟩) hstr.1 hstr.2)
    exact ⟨t, (exec_copy_start hpc).symm.trans ht, hframe, hstays⟩
  · rw [hfits, hfits, not_or, not_not, not_not] at hstr
    rw [not_or, Bool.not_eq_true, Bool.not_eq_true] at htouch
    obtain ⟨t, ht, hstays, _, _, hframe⟩ := copy_starts hpc hlen (copyPlan_memory ⟨hwrap, by simpa using hover⟩
      (Platform.fits_memoryRange hpos hstr.1 htouch.1) (Platform.fits_memoryRange hpos hstr.2 htouch.2))
    exact ⟨t, (exec_copy_start hpc).symm.trans ht, hframe, hstays⟩
end

section
/-! A copy's word steps: between memory and the window of an accelerator, decoded as the worker's own transactions
(44_bulk_transfer.md section 3). -/

namespace Sys2Proof.Machine

variable {s t : State} {k : InstId}

theorem sameOutside.loadWord {a n x : Nat} (h : sameOutside s t a n) (hx : x + 4 ≤ a ∨ a + n ≤ x) :
    t.loadWord x = s.loadWord x := by
  simp only [State.loadWord, h x (by omega), h (x + 1) (by omega), h (x + 2) (by omega), h (x + 3) (by omega)]

/-! ### One word (R176 `Read4`, `Write4`) -/

theorem accRead_outA (k : InstId) (s : State) : accRead k 0x0c s = readA k s := rfl
theorem accRead_outB (k : InstId) (s : State) : accRead k 0x10 s = readB k s := rfl
theorem accRead_outZ (k : InstId) (s : State) : accRead k 0x14 s = readZ k s := rfl
theorem accWrite_inA (k : InstId) (w : Word) (s : State) : accWrite k 0x00 w s = writeA k w s := rfl
theorem accWrite_inB (k : InstId) (w : Word) (s : State) : accWrite k 0x04 w s = writeB k w s := rfl
theorem accWrite_inZ (k : InstId) (w : Word) (s : State) : accWrite k 0x08 w s = writeZ k w s := rfl

theorem busRead4_memory {a : Nat} (h : s.plat.deviceAt a = .memory) : busRead4 a s = .ok (some (s.loadWord a, s)) := by
  simp only [busRead4, h]

theorem busWrite4_memory {a : Nat} (w : Word) (h : s.plat.deviceAt a = .memory) :
    busWrite4 a w s = .ok (s.storeWord a w) := by
  simp only [busWrite4, h]

/-- An address of a window, by its offset. -/
theorem busRead4_window {a : Nat} {off : Word} (hp : s.plat.ok = true) (hoff : off.toNat < 0x18)
    (ha : a = (s.plat.accBase k).toNat + off.toNat) : busRead4 a s = .ok (accRead k off s) := by
  have hw := (Platform.bounds hp).window
  subst ha
  have hdev : s.plat.deviceAt ((s.plat.accBase k).toNat + off.toNat) = .acc k := Platform.deviceAt_window hp ⟨by omega, by omega⟩
  simp only [busRead4, hdev, Nat.add_sub_cancel_left, BitVec.ofNat_toNat, BitVec.setWidth_eq]

theorem busWrite4_window {a : Nat} {off : Word} (w : Word) (hp : s.plat.ok = true) (hoff : off.toNat < 0x18)
    (ha : a = (s.plat.accBase k).toNat + off.toNat) : busWrite4 a w s = .ok (accWrite k off w s) := by
  have hw := (Platform.bounds hp).window
  subst ha
  have hdev : s.plat.deviceAt ((s.plat.accBase k).toNat + off.toNat) = .acc k := Platform.deviceAt_window hp ⟨by omega, by omega⟩
  simp only [busWrite4, hdev, Nat.add_sub_cancel_left, BitVec.ofNat_toNat, BitVec.setWidth_eq]

theorem exec_copyRead_some {w : Word} {u : State} (hpc : s.self.pc = .copyRead)
    (hr : busRead4 (s.self.copy.src.toNat + s.self.copy.done) s = .ok (some (w, u))) : exec .dmaOpCopy s =
      .next ((u.setCopy { s.self.copy with buf := w }).goto .dmaOpCopy .copyWrite) := by
  simp only [exec, execDmaOpCopy, hpc, copyReadStep, hr]

theorem exec_copyRead_none (hpc : s.self.pc = .copyRead)
    (hr : busRead4 (s.self.copy.src.toNat + s.self.copy.done) s = .ok none) :
    exec .dmaOpCopy s = .next (s.goto .dmaOpCopy .copyRead) := by
  simp only [exec, execDmaOpCopy, hpc, copyReadStep, hr]

theorem exec_copyWrite {u : State} (hpc : s.self.pc = .copyWrite)
    (hw : busWrite4 (s.self.copy.dst.toNat + s.self.copy.done) s.self.copy.buf s = .ok u) :
    exec .dmaOpCopy s = .next (u.copied 4 .copyRead) := by
  simp only [exec, execDmaOpCopy, hpc, copyWriteStep, hw]

/-- The two steps of a word pair: the read leaves `u`, the write, made from `u` with the word read, leaves `v`. -/
theorem copyPair {w : Word} {u v : State} (hpc : s.self.pc = .copyRead)
    (hr : busRead4 (s.self.copy.src.toNat + s.self.copy.done) s = .ok (some (w, u))) (hself : u.self = s.self)
    (hw : busWrite4 (s.self.copy.dst.toNat + s.self.copy.done) w
      ((u.setCopy { s.self.copy with buf := w }).goto .dmaOpCopy .copyWrite) = .ok v)
    (hv : v.self = ((u.setCopy { s.self.copy with buf := w }).goto .dmaOpCopy .copyWrite).self) :
    execTimes 2 .dmaOpCopy s = .next (v.copied 4 .copyRead) ∧ CopyGoesOn s (v.copied 4 .copyRead) 4 .copyRead w := by
  have hread := exec_copyRead_some hpc hr
  have hwrite := exec_copyWrite (s := (u.setCopy { s.self.copy with buf := w }).goto .dmaOpCopy .copyWrite) (u := v)
    (by simp) (by simpa using hw)
  refine ⟨?_, copyGoesOn_copied 4 _ ?_ ?_ ?_⟩
  · rw [execTimes_succ 1 hread, execTimes_succ 0 hwrite]
    rfl
  · simp [hv, hself]
  · simp [hv, hself]
  · simp [hv]

section
variable {src dst len word w : Word} {d : Nat} {off : Word} {v : Accel}

theorem CopyGoesOn.of_copy {n : Nat} {l : Label} (h : CopyGoesOn s t n l w)
    (hcopy : s.self.copy = ⟨src, dst, len, d, word⟩) : (len.toNat ≤ d + n → returns s t .ok) ∧
      (d + n < len.toNat → staysAt s t .dmaOpCopy l ∧ t.self.copy = ⟨src, dst, len, d + n, w⟩) := by
  simpa only [CopyGoesOn, hcopy] using h

/-- A word pair from memory to a register of an accelerator, whose write makes the accelerator `v`. -/
theorem copyPair_submit (hp : s.plat.ok = true) (hpc : s.self.pc = .copyRead)
    (hcopy : s.self.copy = ⟨src, dst, len, d, word⟩) (hsrc : s.plat.deviceAt (src.toNat + d) = .memory)
    (hoff : off.toNat < 0x18) (hdst : dst.toNat + d = (s.plat.accBase k).toNat + off.toNat)
    (hv : ∀ u : State, u.plat = s.plat → u.inst k = s.inst k →
      accWrite k off (s.loadWord (src.toNat + d)) u = u.setInst k v) :
    ∃ t, execTimes 2 .dmaOpCopy s = .next t ∧ t.inst k = v ∧ Frame s t [.worker s.active, .inst k] ∧
      (len.toNat ≤ d + 4 → returns s t .ok) ∧ (d + 4 < len.toNat → staysAt s t .dmaOpCopy .copyRead ∧
        t.self.copy = ⟨src, dst, len, d + 4, s.loadWord (src.toNat + d)⟩) := by
  generalize hword : s.loadWord (src.toNat + d) = w at *
  generalize hu : (s.setCopy { s.self.copy with buf := w }).goto .dmaOpCopy .copyWrite = u
  have hframe : Frame s u [.worker s.active] := by
    subst hu
    exact (frame_setCopy s _).then (frame_goto _ _ _) (by simp) (by simp) (by simp)
  have hplat := hframe.plat (by simp)
  have hwrite : busWrite4 (s.self.copy.dst.toNat + s.self.copy.done) w u = .ok (u.setInst k v) := by
    rw [busWrite4_window (k := k) (off := off) w (by rw [hplat, hp]) hoff (by rw [hcopy, hplat]; exact hdst),
      hv u hplat (hframe.inst (by simp))]
  obtain ⟨ht, hgoes⟩ := copyPair hpc ((busRead4_memory (by rw [hcopy]; exact hsrc)).trans (by rw [hcopy, hword])) rfl
    (by rw [hu]; exact hwrite) (by rw [hu, State.self_setInst])
  refine ⟨_, ht, ?_, ?_, hgoes.of_copy hcopy⟩
  · rw [(frame_copied _ _ _).inst (by simp), State.inst_setInst_same]
  · have hlast := frame_copied (u.setInst k v) 4 .copyRead
    rw [State.active_setInst, hframe.active (by simp)] at hlast
    exact ((hframe.mono (by simp)).trans ((frame_setInst u k v).mono (by simp))).trans (hlast.mono (by simp))

/-- A word pair from a register of an accelerator, whose read makes the accelerator `v`, to memory. -/
theorem copyPair_collect (hp : s.plat.ok = true) (hpc : s.self.pc = .copyRead)
    (hcopy : s.self.copy = ⟨src, dst, len, d, word⟩) (hdst : s.plat.deviceAt (dst.toNat + d) = .memory)
    (hoff : off.toNat < 0x18) (hsrc : src.toNat + d = (s.plat.accBase k).toNat + off.toNat)
    (hr : accRead k off s = some (w, s.setInst k v)) :
    ∃ t, execTimes 2 .dmaOpCopy s = .next t ∧ t.inst k = v ∧ t.loadWord (dst.toNat + d) = w ∧
      sameOutside s t (dst.toNat + d) 4 ∧ Frame s t [.worker s.active, .inst k, .memory] ∧
      (len.toNat ≤ d + 4 → returns s t .ok) ∧ (d + 4 < len.toNat → staysAt s t .dmaOpCopy .copyRead ∧
        t.self.copy = ⟨src, dst, len, d + 4, w⟩) := by
  generalize hu : ((s.setInst k v).setCopy { s.self.copy with buf := w }).goto .dmaOpCopy .copyWrite = u
  have hframe : Frame s u [.worker s.active, .inst k] := by
    subst hu
    have hset := (frame_setInst s k v).then (frame_setCopy _ { s.self.copy with buf := w })
      (m := [.worker s.active, .inst k]) (by simp) (by simp) (by simp)
    exact hset.trans ((frame_goto _ _ _).mono (by simp))
  have hwrite : busWrite4 (s.self.copy.dst.toNat + s.self.copy.done) w u = .ok (u.storeWord (dst.toNat + d) w) := by
    rw [hcopy]
    exact busWrite4_memory w (by rw [hframe.plat (by simp), hdst])
  obtain ⟨ht, hgoes⟩ := copyPair hpc ((busRead4_window hp hoff (by rw [hcopy]; exact hsrc)).trans (by rw [hr]))
    (s.self_setInst k v) (by rw [hu]; exact hwrite) (by rw [hu, State.self_storeWord])
  refine ⟨_, ht, ?_, ?_, fun x hx => ?_, ?_, hgoes.of_copy hcopy⟩
  · rw [(frame_copied _ _ _).inst (by simp), State.inst_storeWord, ← hu]
    simp
  · rw [State.loadWord_congr ((frame_copied _ _ _).mem (by simp)), State.loadWord_storeWord]
  · rw [State.loadByte_copied, State.loadByte_storeWord_other _ _ _ _ hx, hframe.loadByte (by simp)]
  · have hlast := frame_copied (u.storeWord (dst.toNat + d) w) 4 .copyRead
    rw [State.active_storeWord, hframe.active (by simp)] at hlast
    exact ((hframe.mono (by simp)).trans ((frame_storeWord u _ w).mono (by simp))).trans (hlast.mono (by simp))

end

/-! ### The plan of a copy between memory and a window -/

/-- Memory and a window share no byte. -/
theorem not_overlaps_memory_window {p : Platform} {lo n lo' n' : Nat} (hm : p.memoryRange lo n = true)
    (hw : insideOf lo' n' (p.accBase k).toNat p.windowSize.toNat = true) : overlaps lo n lo' n' = false := by
  rw [← Bool.not_eq_true, overlaps_comm]
  intro ho
  have htouch : p.touchesDevice lo n = true :=
    Platform.touchesDevice_iff.2 (.inl ⟨k, by rw [overlaps_comm]; exact overlaps_of_insideOf hw ho⟩)
  rw [Platform.memoryRange_touches hm] at htouch
  cases htouch

theorem insideOf_window_le {p : Platform} (hp : p.Bounds) {lo n : Nat}
    (hw : insideOf lo n (p.accBase k).toNat p.windowSize.toNat = true) : lo + n ≤ addressSpace := by
  have hfits := hp.fits k
  simp only [insideOf, Bool.and_eq_true, decide_eq_true_eq] at hw
  omega

section
variable {p : Platform} {a b len : Word}

theorem copyPlan_memory_to_window (hp : p.ok = true) (hm : p.memoryRange a.toNat len.toNat = true)
    (hw : insideOf b.toNat len.toNat (p.accBase k).toNat p.windowSize.toNat = true) (hpos : 0 < len.toNat)
    (hal : len.toNat % 4 = 0 ∧ a.toNat % 4 = 0 ∧ b.toNat % 4 = 0) : copyPlan p a b len = .ok .copyRead := by
  have hwin := Platform.windowRange_iff.2 ⟨k, hw⟩
  have ha := Platform.memoryRange_le hp hm
  have hb := insideOf_window_le (Platform.bounds hp) hw
  exact copyPlan_touching ⟨by omega, not_overlaps_memory_window hm hw⟩
    (.inr (Platform.touchesDevice_of_windowRange hpos hwin)) (by omega) (.inl hm) (.inr hwin)

theorem copyPlan_window_to_memory (hp : p.ok = true) (hm : p.memoryRange b.toNat len.toNat = true)
    (hw : insideOf a.toNat len.toNat (p.accBase k).toNat p.windowSize.toNat = true) (hpos : 0 < len.toNat)
    (hal : len.toNat % 4 = 0 ∧ a.toNat % 4 = 0 ∧ b.toNat % 4 = 0) : copyPlan p a b len = .ok .copyRead := by
  have hwin := Platform.windowRange_iff.2 ⟨k, hw⟩
  have hb := Platform.memoryRange_le hp hm
  have ha := insideOf_window_le (Platform.bounds hp) hw
  exact copyPlan_touching ⟨by omega, by rw [overlaps_comm]; exact not_overlaps_memory_window hm hw⟩
    (.inl (Platform.touchesDevice_of_windowRange hpos hwin)) (by omega) (.inr hwin) (.inl hm)

end

end Sys2Proof.Machine

open Sys2Proof Sys2Proof.Machine

/-- Settles O37. -/
theorem copyHoldsAtAnEmptyChannel : Obligations.CopyHoldsAtAnEmptyChannel := by
  intro k s off hp hpc hsrc hempty
  have hread : busRead4 (s.self.copy.src.toNat + s.self.copy.done) s = .ok none := by
    rcases hempty with ⟨rfl, h⟩ | ⟨rfl, h⟩ | ⟨rfl, h⟩
    · rw [busRead4_window (off := 0x0c) hp (by decide) hsrc, accRead_outA, readA_nil h]
    · rw [busRead4_window (off := 0x10) hp (by decide) hsrc, accRead_outB, readB_nil h]
    · rw [busRead4_window (off := 0x14) hp (by decide) hsrc, accRead_outZ, readZ_nil h]
  exact ⟨_, exec_copyRead_none hpc hread, by simp [staysAt], by simp, frame_goto s _ _⟩

/-- Settles O35. -/
theorem copyToWindowSubmits : Obligations.CopyToWindowSubmits := by
  intro k s x y z hp hpc hlen hdst hal hm hx hy hz
  have hbounds := Platform.bounds hp
  have hwin := hbounds.window
  have hbase := hbounds.aligned k
  have hlen12 : s.dma.len.toNat = 12 := by rw [hlen]; rfl
  have hplan : copyPlan s.plat s.dma.src s.dma.dst s.dma.len = .ok .copyRead := by
    refine copyPlan_memory_to_window (k := k) hp (by rwa [hlen12]) ?_ (by omega) ?_
    · simp only [insideOf, hdst, hlen12, Bool.and_eq_true, decide_eq_true_eq]
      omega
    · rw [hlen12, hdst]
      omega
  obtain ⟨t0, e0, hstay0, hcopy0, hdma0, hframe0⟩ :=
    copy_starts hpc (by rw [hlen]; decide) hplan
  have hdev : ∀ d, d < 12 → s.plat.deviceAt (s.dma.src.toNat + d) = .memory := fun d hd =>
    Platform.deviceAt_memoryRange hm ⟨by omega, by omega⟩
  have f0 : Frame s t0 [.worker s.active, .dma, .inst k] := hframe0.mono (by simp)
  have p0 := f0.plat (by simp)
  obtain ⟨t1, e1, i1, hframe1, _, g1⟩ := copyPair_submit (k := k) (off := 0x00)
    (v := { s.inst k with inA := (s.inst k).inA ++ [x] }) (by rw [p0, hp]) hstay0.pc hcopy0
    (by rw [p0]; exact hdev 0 (by decide)) (by decide) (by rw [p0, hdst]; rfl) (fun u hu hi => by
      rw [State.loadWord_congr (f0.mem (by simp)), accWrite_inA, writeA_of_narrow (by rw [hu, p0]; exact hx), hi,
        hframe0.inst (by simp)])
  obtain ⟨hstay1, hcopy1⟩ := g1 (by omega)
  have f1 : Frame s t1 [.worker s.active, .dma, .inst k] := f0.next hframe1 (by simp) (by simp) (by simp)
  have p1 := f1.plat (by simp)
  obtain ⟨t2, e2, i2, hframe2, _, g2⟩ := copyPair_submit (k := k) (off := 0x04)
    (v := { t1.inst k with inB := (s.inst k).inB ++ [y] }) (by rw [p1, hp]) hstay1.pc hcopy1
    (by rw [p1]; exact hdev 4 (by decide)) (by decide) (by rw [p1, hdst]; rfl) (fun u hu hi => by
      rw [State.loadWord_congr (f1.mem (by simp)), accWrite_inB, writeB_of_narrow (by rw [hu, p1]; exact hy), hi, i1])
  obtain ⟨hstay2, hcopy2⟩ := g2 (by omega)
  have f2 : Frame s t2 [.worker s.active, .dma, .inst k] := f1.next hframe2 (by simp) (by simp) (by simp)
  have p2 := f2.plat (by simp)
  obtain ⟨t3, e3, i3, hframe3, hret, _⟩ := copyPair_submit (k := k) (off := 0x08)
    (v := { t2.inst k with inZ := (s.inst k).inZ ++ [z] }) (by rw [p2, hp]) hstay2.pc hcopy2
    (by rw [p2]; exact hdev 8 (by decide)) (by decide) (by rw [p2, hdst]; rfl) (fun u hu hi => by
      rw [State.loadWord_congr (f2.mem (by simp)), accWrite_inZ, writeZ_of_narrow (by rw [hu, p2]; exact hz), hi, i2,
        i1])
  have f3 : Frame s t3 [.worker s.active, .dma, .inst k] := f2.next hframe3 (by simp) (by simp) (by simp)
  refine ⟨t3, ?_, ?_, by rw [i3, i2, i1], f3.mono (by simp)⟩
  · rw [execTimes_succ 6 e0, execTimes_add 4 e1, execTimes_add 2 e2, e3]
  · exact returns_of_staysAt hstay0 (returns_of_staysAt hstay1 (returns_of_staysAt hstay2 (hret (by omega))))

/-- Settles O36. -/
theorem copyFromWindowCollects : Obligations.CopyFromWindowCollects := by
  intro k s x y z as bs zs hp hpc hlen hsrc hal hm hx hy hz
  have hbounds := Platform.bounds hp
  have hwin := hbounds.window
  have hbase := hbounds.aligned k
  have hfits := hbounds.fits k
  have hlen12 : s.dma.len.toNat = 12 := by rw [hlen]; rfl
  have hsrc12 : s.dma.src.toNat = (s.plat.accBase k).toNat + 12 := by
    rw [hsrc, BitVec.toNat_add]
    exact Nat.mod_eq_of_lt (by simp only [addressSpace] at hfits; simp; omega)
  have hplan : copyPlan s.plat s.dma.src s.dma.dst s.dma.len = .ok .copyRead := by
    refine copyPlan_window_to_memory (k := k) hp (by rwa [hlen12]) ?_ (by omega) (by omega)
    simp only [insideOf, hsrc12, hlen12, Bool.and_eq_true, decide_eq_true_eq]
    omega
  obtain ⟨t0, e0, hstay0, hcopy0, hdma0, hframe0⟩ :=
    copy_starts hpc (by rw [hlen]; decide) hplan
  have hdev : ∀ d, d < 12 → s.plat.deviceAt (s.dma.dst.toNat + d) = .memory := fun d hd =>
    Platform.deviceAt_memoryRange hm ⟨by omega, by omega⟩
  have f0 : Frame s t0 [.worker s.active, .dma, .inst k, .memory] := hframe0.mono (by simp)
  have p0 := f0.plat (by simp)
  have i0 := hframe0.inst (k := k) (by simp)
  obtain ⟨t1, e1, i1, w1, o1, hframe1, _, g1⟩ := copyPair_collect (k := k) (off := 0x0c) (by rw [p0, hp]) hstay0.pc
    hcopy0 (by rw [p0]; exact hdev 0 (by decide)) (by decide) (by rw [p0, hsrc12]; rfl)
    (by rw [accRead_outA, readA_cons (by rw [i0, hx]), i0])
  obtain ⟨hstay1, hcopy1⟩ := g1 (by omega)
  have f1 : Frame s t1 [.worker s.active, .dma, .inst k, .memory] := f0.next hframe1 (by simp) (by simp) (by simp)
  have p1 := f1.plat (by simp)
  obtain ⟨t2, e2, i2, w2, o2, hframe2, _, g2⟩ := copyPair_collect (k := k) (off := 0x10) (by rw [p1, hp]) hstay1.pc
    hcopy1 (by rw [p1]; exact hdev 4 (by decide)) (by decide) (by rw [p1, hsrc12]; rfl)
    (by rw [accRead_outB, readB_cons (by rw [i1, hy]), i1])
  obtain ⟨hstay2, hcopy2⟩ := g2 (by omega)
  have f2 : Frame s t2 [.worker s.active, .dma, .inst k, .memory] := f1.next hframe2 (by simp) (by simp) (by simp)
  have p2 := f2.plat (by simp)
  obtain ⟨t3, e3, i3, w3, o3, hframe3, hret, _⟩ := copyPair_collect (k := k) (off := 0x14) (by rw [p2, hp]) hstay2.pc
    hcopy2 (by rw [p2]; exact hdev 8 (by decide)) (by decide) (by rw [p2, hsrc12]; rfl)
    (by rw [accRead_outZ, readZ_cons (by rw [i2, hz]), i2])
  have f3 : Frame s t3 [.worker s.active, .dma, .inst k, .memory] := f2.next hframe3 (by simp) (by simp) (by simp)
  refine ⟨t3, ?_, ?_, ?_, ?_, w3, fun a ha => ?_, i3, f3.mono (by simp)⟩
  · rw [execTimes_succ 6 e0, execTimes_add 4 e1, execTimes_add 2 e2, e3]
  · exact returns_of_staysAt hstay0 (returns_of_staysAt hstay1 (returns_of_staysAt hstay2 (hret (by omega))))
  · rw [o3.loadWord (by omega), o2.loadWord (by omega)]
    exact w1
  · rw [o3.loadWord (by omega)]
    exact w2
  · rw [o3 a (by omega), o2 a (by omega), o1 a (by omega), hframe0.loadByte (by simp)]
end

section
/-! The synchronisation primitives on one word: compare-and-swap, initialisation, and what each micro-step of a wait and
of a post does (43_sync_primitives.md sections 1 to 3). -/

namespace Sys2Proof.Machine

variable {s t u : State} {i : Instr} {a : Word} {l1 l2 : Label} {fin : State → State}

/-! ### Checks -/

theorem State.semCheck_congr (hp : t.plat = s.plat) (hw : t.semWords = s.semWords) (a : Word) :
    t.semCheck a = s.semCheck a := by
  simp only [State.semCheck, hp, hw]

theorem Platform.wordCheck_misaligned {p : Platform} (h : aligned4 a = false) :
    p.wordCheck a = some .misalignedWord := by
  simp [Platform.wordCheck, h]

theorem Platform.wordCheck_outside {p : Platform} (h : aligned4 a = true) (hm : p.memoryRange a.toNat 4 = false) :
    p.wordCheck a = some .notSharedMemory := by
  simp [Platform.wordCheck, h, hm]

theorem State.semCheck_of_wordCheck {r : Refusal} (h : s.plat.wordCheck a = some r) : s.semCheck a = some r := by
  simp only [State.semCheck, h]

theorem State.semCheck_uninitialised (h : s.plat.wordCheck a = none) (hw : s.semWords.contains a.toNat = false) :
    s.semCheck a = some .semNotInitialised := by
  simp only [State.semCheck, h, hw, Bool.false_eq_true, if_false]

theorem Platform.barrierCheck_some {p : Platform} {b : Barrier} {r : Refusal}
    (h : p.wordCheck b.counter = some r ∨ (p.wordCheck b.counter = none ∧ p.wordCheck b.gateLock = some r) ∨
      (p.wordCheck b.counter = none ∧ p.wordCheck b.gateLock = none ∧ p.wordCheck b.releaseSem = some r)) :
    p.barrierCheck b = some r := by
  rcases h with h | ⟨h, h'⟩ | ⟨h, h', h''⟩ <;> simp only [Platform.barrierCheck, *]

theorem exec_cas32_refused {e n : Word} {r : Refusal} (h : s.plat.wordCheck a = some r) :
    exec (.cas32 a e n) s = .refused r := by
  simp only [exec, execCas32, h]

theorem semInitStep_refused {n : Word} {r : Refusal} (h : s.plat.wordCheck a = some r) :
    semInitStep a n s = .refused r := by
  simp only [semInitStep, h]

theorem execBarrierInit_refused {b : Barrier} {c : Word} {r : Refusal} (h : s.plat.barrierCheck b = some r) :
    execBarrierInit b c s = .refused r := by
  simp only [execBarrierInit, h]

theorem execBarrierEnter_refused {b : Barrier} {r : Refusal} (h : s.plat.barrierCheck b = some r) :
    execBarrierEnter b s = .refused r := by
  simp only [execBarrierEnter, h]

theorem waitStep_refused {r : Refusal} (h : s.semCheck a = some r) : waitStep i a l1 l2 fin s = .refused r := by
  simp only [waitStep, h]

theorem postStep_refused {r : Refusal} (h : s.semCheck a = some r) : postStep i a l1 l2 fin s = .refused r := by
  simp only [postStep, h]

/-! ### Initialisation (R141) -/

theorem mem_listAddress {l : List Nat} {x y : Nat} : y ∈ listAddress l x ↔ y = x ∨ y ∈ l := by
  induction l with
  | nil => simp [listAddress]
  | cons b rest ih =>
    simp only [listAddress]
    split_ifs with hlt heq
    · exact List.mem_cons
    · simp [heq]
    · simp only [List.mem_cons, ih]
      tauto

theorem State.semCheck_initSem (n : Word) (h : s.plat.wordCheck a = none) : (s.initSem a n).semCheck a = none :=
  State.semCheck_none_iff.2 ⟨by simpa [State.initSem] using h,
    List.contains_iff_mem.2 (mem_listAddress.2 (.inl rfl))⟩

/-- A word stays initialised when another one is. -/
theorem State.semCheck_initSem_of_none {b : Word} (n : Word) (h : s.semCheck b = none) :
    (s.initSem a n).semCheck b = none := by
  obtain ⟨hword, hmem⟩ := State.semCheck_none h
  exact State.semCheck_none_iff.2 ⟨by simpa [State.initSem] using hword,
    List.contains_iff_mem.2 (mem_listAddress.2 (.inr (List.contains_iff_mem.1 (by simpa using hmem))))⟩

theorem loadByte_initSem (s : State) (a n : Word) (x : Nat) :
    (s.initSem a n).loadByte x = (s.storeWord a.toNat n).loadByte x := by simp [State.initSem]

@[simp] theorem State.self_initSem (s : State) (a n : Word) : (s.initSem a n).self = s.self := by simp [State.initSem]

theorem sameOutside_initSem (s : State) (a n : Word) : sameOutside s (s.initSem a n) a.toNat 4 := fun x hx => by
  rw [loadByte_initSem, State.loadByte_storeWord_other _ _ _ _ hx]

@[simp] theorem State.loadWord_initSem (s : State) (a n : Word) : (s.initSem a n).loadWord a.toNat = n := by
  simp [State.initSem]

theorem sameOutside.trans_mem {n x : Nat} (h : sameOutside s t x n) (hm : u.mem = t.mem) : sameOutside s u x n :=
  fun y hy => (State.loadByte_congr hm y).trans (h y hy)

/-- `SEM_INIT` and `MUTEX_INIT` store the count and the word is a semaphore's. -/
theorem semInitStep_stores (n : Word) (h : s.plat.wordCheck a = none) : ∃ t, semInitStep a n s = .next t ∧
    returns s t .done ∧ t.loadWord a.toNat = n ∧ sameOutside s t a.toNat 4 ∧ t.semCheck a = none ∧
    Frame s t [.memory, .semWords, .worker s.active] := by
  have hstep : semInitStep a n s = .next (s.initSem a n).returnDone := by simp only [semInitStep, h]
  refine ⟨_, hstep, returns_retire (by simp) _, by simp [State.returnDone],
    (sameOutside_initSem s a n).trans_mem (by simp [State.returnDone]), ?_, frame_semInitStep a n hstep⟩
  rw [State.semCheck_congr (s := s.initSem a n) (by simp [State.returnDone]) (by simp [State.returnDone])]
  exact State.semCheck_initSem n h

/-! ### Compare-and-swap (R140) -/

theorem exec_cas32 (e n : Word) (h : s.plat.wordCheck a = none) :
    exec (.cas32 a e n) s = .next ((s.cas a e n).2.retire (.flag (s.cas a e n).1)) := by
  simp only [exec, execCas32, h]

/-! ### Micro-steps of a wait and a post (R142, R143) -/

/-- A successful attempt: the word at `a` has become `new`, no other byte changed, and the worker's own state is as in
`s` but for its snapshot and its label. -/
structure Swapped (s t : State) (a new : Word) : Prop where
  word : t.loadWord a.toNat = new
  outside : sameOutside s t a.toNat 4
  returned : t.self.returned = s.self.returned
  script : t.self.script = s.self.script
  arrivals : t.self.locals.c = s.self.locals.c
  releases : t.self.locals.n = s.self.locals.n
  frame : Frame s t [.worker s.active, .memory]

/-- A micro-step that only moves the worker on. -/
structure MovesTo (s t : State) (i : Instr) (l : Label) : Prop where
  stays : staysAt s t i l
  arrivals : t.self.locals.c = s.self.locals.c
  releases : t.self.locals.n = s.self.locals.n
  frame : Frame s t [.worker s.active]

theorem movesTo_goto {v : Locals} (i : Instr) (l : Label) (hc : v.c = s.self.locals.c) (hn : v.n = s.self.locals.n) :
    MovesTo s ((s.setLocals v).goto i l) i l :=
  ⟨by simp [staysAt], by simp [hc], by simp [hn],
    (frame_setLocals s v).then (frame_goto _ _ _) (by simp) (by simp) (by simp)⟩

theorem MovesTo.loadWord {l : Label} (h : MovesTo s t i l) (x : Nat) : t.loadWord x = s.loadWord x :=
  State.loadWord_congr (h.frame.mem (by simp)) x

theorem MovesTo.semCheck {l : Label} (h : MovesTo s t i l) (x : Word) : t.semCheck x = s.semCheck x :=
  State.semCheck_congr (h.frame.plat (by simp)) (h.frame.semWords (by simp)) x

theorem swapped_storeWord {v : Locals} (a n : Word) (hc : v.c = s.self.locals.c) (hn : v.n = s.self.locals.n) :
    Swapped s ((s.storeWord a.toNat n).setLocals v) a n where
  word := by simp
  outside := fun x hx => by rw [State.loadByte_setLocals, State.loadByte_storeWord_other _ _ _ _ hx]
  returned := by simp
  script := by simp
  arrivals := by simp [hc]
  releases := by simp [hn]
  frame := (frame_storeWord s _ _).then (frame_setLocals _ _) (by simp) (by simp) (by simp)

theorem Swapped.after {l : Label} {n : Word} (h : MovesTo s u i l) (h' : Swapped u t a n) : Swapped s t a n := by
  obtain ⟨_, _, hret, hscript⟩ := h.stays
  exact ⟨h'.word, fun x hx => (h'.outside x hx).trans (h.frame.loadByte (by simp) x), h'.returned.trans hret,
    h'.script.trans hscript, h'.arrivals.trans h.arrivals, h'.releases.trans h.releases,
    Frame.next (l := []) h.frame h'.frame (by simp) (by simp) (by simp)⟩

/-- W1 with a count that is not 0. -/
theorem waitStep_reads (hc : s.semCheck a = none) (hpc : s.self.pc ≠ l2) (h0 : s.loadWord a.toNat ≠ 0) :
    ∃ u, waitStep i a l1 l2 fin s = .next u ∧ MovesTo s u i l2 ∧ u.self.locals.old = s.loadWord a.toNat := by
  refine ⟨_, ?_, movesTo_goto (v := { s.self.locals with old := s.loadWord a.toNat }) i l2 rfl rfl, by simp⟩
  simp only [waitStep, hc, hpc, if_false, waitRead, h0]

/-- W1 with a count of 0. -/
theorem waitStep_spins (hc : s.semCheck a = none) (hpc : s.self.pc ≠ l2) (h0 : s.loadWord a.toNat = 0) :
    ∃ u, waitStep i a l1 l2 fin s = .next u ∧ MovesTo s u i l1 := by
  refine ⟨_, ?_, movesTo_goto (v := { s.self.locals with old := s.loadWord a.toNat }) i l1 rfl rfl⟩
  simp only [waitStep, hc, hpc, if_false, waitRead, h0, if_true]

/-- W2 that loses its race. -/
theorem waitStep_loses (hc : s.semCheck a = none) (hpc : s.self.pc = l2)
    (hold : s.loadWord a.toNat ≠ s.self.locals.old) :
    ∃ u, waitStep i a l1 l2 fin s = .next u ∧ MovesTo s u i l1 := by
  refine ⟨_, ?_, movesTo_goto (v := { s.self.locals with ok := false }) i l1 rfl rfl⟩
  simp [waitStep, hc, hpc, waitTry, State.cas_miss _ hold]

/-- W2 that takes one. -/
theorem waitStep_takes (hc : s.semCheck a = none) (hpc : s.self.pc = l2)
    (hold : s.loadWord a.toNat = s.self.locals.old) :
    ∃ v, waitStep i a l1 l2 fin s = .next (fin v) ∧ Swapped s v a (s.loadWord a.toNat - 1) := by
  refine ⟨_, ?_, swapped_storeWord (v := { s.self.locals with ok := true }) a (s.loadWord a.toNat - 1) rfl rfl⟩
  simp [waitStep, hc, hpc, waitTry, State.cas_hit _ hold, hold]

/-- W1 and W2 on end take one. -/
theorem waitStep_pair (hc : s.semCheck a = none) (hpc : s.self.pc ≠ l2) (h0 : s.loadWord a.toNat ≠ 0) :
    ∃ u v, waitStep i a l1 l2 fin s = .next u ∧ MovesTo s u i l2 ∧ waitStep i a l1 l2 fin u = .next (fin v) ∧
      Swapped s v a (s.loadWord a.toNat - 1) := by
  obtain ⟨u, hu, hmoves, hold⟩ := waitStep_reads (i := i) (l1 := l1) (fin := fin) hc hpc h0
  obtain ⟨v, hv, hswap⟩ := waitStep_takes (i := i) (l1 := l1) (fin := fin) (by rw [hmoves.semCheck, hc])
    hmoves.stays.pc (by rw [hold, hmoves.loadWord])
  rw [hmoves.loadWord] at hswap
  exact ⟨u, v, hu, hmoves, hv, hswap.after hmoves⟩

/-- P1 at the maximum count. -/
theorem postStep_full (hc : s.semCheck a = none) (hpc : s.self.pc ≠ l2) (hmax : s.loadWord a.toNat = 0xffffffff) :
    postStep i a l1 l2 fin s = .refused .countOverflow := by
  simp only [postStep, hc, hpc, if_false, postRead, hmax, if_true]

/-- P1 below the maximum. -/
theorem postStep_reads (hc : s.semCheck a = none) (hpc : s.self.pc ≠ l2) (hmax : s.loadWord a.toNat ≠ 0xffffffff) :
    ∃ u, postStep i a l1 l2 fin s = .next u ∧ MovesTo s u i l2 ∧ u.self.locals.old = s.loadWord a.toNat := by
  refine ⟨_, ?_, movesTo_goto (v := { s.self.locals with old := s.loadWord a.toNat }) i l2 rfl rfl, by simp⟩
  simp only [postStep, hc, hpc, if_false, postRead, hmax]

/-- P2 that loses its race. -/
theorem postStep_loses (hc : s.semCheck a = none) (hpc : s.self.pc = l2)
    (hold : s.loadWord a.toNat ≠ s.self.locals.old) :
    ∃ u, postStep i a l1 l2 fin s = .next u ∧ MovesTo s u i l1 := by
  refine ⟨_, ?_, movesTo_goto (v := { s.self.locals with ok := false }) i l1 rfl rfl⟩
  simp [postStep, hc, hpc, postTry, State.cas_miss _ hold]

/-- P2 that adds one. -/
theorem postStep_adds (hc : s.semCheck a = none) (hpc : s.self.pc = l2)
    (hold : s.loadWord a.toNat = s.self.locals.old) :
    ∃ v, postStep i a l1 l2 fin s = .next (fin v) ∧ Swapped s v a (s.loadWord a.toNat + 1) := by
  refine ⟨_, ?_, swapped_storeWord (v := { s.self.locals with ok := true }) a (s.loadWord a.toNat + 1) rfl rfl⟩
  simp [postStep, hc, hpc, postTry, State.cas_hit _ hold, hold]

/-- P1 and P2 on end add one. -/
theorem postStep_pair (hc : s.semCheck a = none) (hpc : s.self.pc ≠ l2) (hmax : s.loadWord a.toNat ≠ 0xffffffff) :
    ∃ u v, postStep i a l1 l2 fin s = .next u ∧ MovesTo s u i l2 ∧ postStep i a l1 l2 fin u = .next (fin v) ∧
      Swapped s v a (s.loadWord a.toNat + 1) := by
  obtain ⟨u, hu, hmoves, hold⟩ := postStep_reads (i := i) (l1 := l1) (fin := fin) hc hpc hmax
  obtain ⟨v, hv, hswap⟩ := postStep_adds (i := i) (l1 := l1) (fin := fin) (by rw [hmoves.semCheck, hc])
    hmoves.stays.pc (by rw [hold, hmoves.loadWord])
  rw [hmoves.loadWord] at hswap
  exact ⟨u, v, hu, hmoves, hv, hswap.after hmoves⟩

/-- A primitive that returns after a successful attempt. -/
theorem Swapped.returnDone {n : Word} (h : Swapped s t a n) : returns s t.returnDone .done ∧
    t.returnDone.loadWord a.toNat = n ∧ sameOutside s t.returnDone a.toNat 4 ∧
    Frame s t.returnDone [.memory, .worker s.active] := by
  refine ⟨by simp [returns, State.returnDone, h.returned, h.script], by simp [State.returnDone, h.word],
    h.outside.trans_mem (by simp [State.returnDone]), ?_⟩
  exact (Frame.next (l' := []) (m := [.memory]) h.frame (frame_returnDone t) (by simp) (by simp) (by simp)).mono
    (by simp)

theorem toNat_sub_one {x : Word} (h : x ≠ 0) : (x - 1).toNat = x.toNat - 1 := by
  have : x.toNat ≠ 0 := fun h' => h (BitVec.eq_of_toNat_eq h')
  bv_omega

theorem toNat_add_one {x : Word} (h : x ≠ 0xffffffff) : (x + 1).toNat = x.toNat + 1 := by
  bv_omega

/-! ### The operations that are one wait or one post (R142 to R146) -/

theorem wait_returns (he : ∀ s, exec i s = waitStep i a .w1 .w2 State.returnDone s) (hc : s.semCheck a = none)
    (hpc : s.self.pc ≠ .w2) (h0 : s.loadWord a.toNat ≠ 0) : ∃ u t, exec i s = .next u ∧ staysAt s u i .w2 ∧
      exec i u = .next t ∧ returns s t .done ∧ (t.loadWord a.toNat).toNat = (s.loadWord a.toNat).toNat - 1 ∧
      sameOutside s t a.toNat 4 ∧ Frame s t [.memory, .worker s.active] := by
  obtain ⟨u, v, hu, hmoves, hv, hswap⟩ := waitStep_pair (i := i) (l1 := .w1) (fin := State.returnDone) hc hpc h0
  obtain ⟨hret, hword, hout, hframe⟩ := hswap.returnDone
  exact ⟨u, _, (he s).trans hu, hmoves.stays, (he u).trans hv, hret, by rw [hword, toNat_sub_one h0], hout, hframe⟩

theorem wait_goes_back (he : ∀ s, exec i s = waitStep i a .w1 .w2 State.returnDone s) (hc : s.semCheck a = none)
    (h : (s.self.pc ≠ .w2 ∧ s.loadWord a.toNat = 0) ∨ (s.self.pc = .w2 ∧ s.loadWord a.toNat ≠ s.self.locals.old)) :
    ∃ t, exec i s = .next t ∧ staysAt s t i .w1 ∧ Frame s t [.worker s.active] := by
  have hback : ∃ t, waitStep i a .w1 .w2 State.returnDone s = .next t ∧ MovesTo s t i .w1 := by
    rcases h with ⟨hpc, h0⟩ | ⟨hpc, hold⟩
    · exact waitStep_spins hc hpc h0
    · exact waitStep_loses hc hpc hold
  obtain ⟨t, ht, hmoves⟩ := hback
  exact ⟨t, (he s).trans ht, hmoves.stays, hmoves.frame⟩

/-- At a count of 0 W1 spins, and W2, whose snapshot is not 0, loses its race. -/
theorem wait_at_zero (he : ∀ s, exec i s = waitStep i a .w1 .w2 State.returnDone s) (hs : s.self.wf = true)
    (h0 : s.loadWord a.toNat = 0) (h : exec i s = .next t) :
    t.self.returned = s.self.returned ∧ t.loadWord a.toNat = 0 := by
  rw [he] at h
  have hc : s.semCheck a = none := by
    by_contra hne
    obtain ⟨r, hr⟩ := Option.ne_none_iff_exists'.1 hne
    rw [waitStep_refused hr] at h
    cases h
  have hback : ∃ t, waitStep i a .w1 .w2 State.returnDone s = .next t ∧ MovesTo s t i .w1 := by
    by_cases hpc : s.self.pc = .w2
    · have hok := Worker.snapshotOk_of_wf hs
      simp only [hpc, snapshotOk, bne_iff_ne] at hok
      exact waitStep_loses hc hpc (by rw [h0]; exact hok.symm)
    · exact waitStep_spins hc hpc h0
  obtain ⟨u, hu, hmoves⟩ := hback
  obtain ⟨_, _, hret, _⟩ := hmoves.stays
  obtain rfl : u = t := by simpa [hu] using h
  exact ⟨hret, by rw [hmoves.loadWord, h0]⟩

theorem post_returns (he : ∀ s, exec i s = postStep i a .p1 .p2 State.returnDone s) (hc : s.semCheck a = none)
    (hpc : s.self.pc ≠ .p2) (hmax : s.loadWord a.toNat ≠ 0xffffffff) : ∃ u t, exec i s = .next u ∧
      staysAt s u i .p2 ∧ exec i u = .next t ∧ returns s t .done ∧
      (t.loadWord a.toNat).toNat = (s.loadWord a.toNat).toNat + 1 ∧ sameOutside s t a.toNat 4 ∧
      Frame s t [.memory, .worker s.active] := by
  obtain ⟨u, v, hu, hmoves, hv, hswap⟩ := postStep_pair (i := i) (l1 := .p1) (fin := State.returnDone) hc hpc hmax
  obtain ⟨hret, hword, hout, hframe⟩ := hswap.returnDone
  exact ⟨u, _, (he s).trans hu, hmoves.stays, (he u).trans hv, hret, by rw [hword, toNat_add_one hmax], hout, hframe⟩

theorem post_goes_back (he : ∀ s, exec i s = postStep i a .p1 .p2 State.returnDone s) (hc : s.semCheck a = none)
    (hpc : s.self.pc = .p2) (hold : s.loadWord a.toNat ≠ s.self.locals.old) :
    ∃ t, exec i s = .next t ∧ staysAt s t i .p1 ∧ Frame s t [.worker s.active] := by
  obtain ⟨t, ht, hmoves⟩ := postStep_loses (i := i) (l1 := .p1) (fin := State.returnDone) hc hpc hold
  exact ⟨t, (he s).trans ht, hmoves.stays, hmoves.frame⟩

end Sys2Proof.Machine

open Sys2Proof Sys2Proof.Machine

/-- Settles O40. -/
theorem compareAndSwap : Obligations.CompareAndSwap := by
  intro addr expect new s hc
  have hexec := exec_cas32 expect new hc
  have hframe := frame_execCas32 addr expect new hexec
  by_cases hit : s.loadWord addr.toNat = expect
  · rw [State.cas_hit _ hit] at hexec hframe
    refine ⟨_, hexec, ?_, by simp [hit], fun x hx => ?_, fun h => absurd hit h, hframe⟩
    · simp [returns, hit]
    · rw [State.loadByte_retire, State.loadByte_storeWord_other _ _ _ _ hx]
  · rw [State.cas_miss _ hit] at hexec hframe
    refine ⟨_, hexec, ?_, by simp [hit], fun x _ => s.loadByte_retire x _, fun _ => s.mem_retire _, hframe⟩
    simp [returns, hit]

/-- Settles O41. -/
theorem initialisationStoresTheCount : Obligations.InitialisationStoresTheCount :=
  fun _ n _ hc => ⟨semInitStep_stores n hc, semInitStep_stores 1 hc⟩

/-- Settles O42. -/
theorem waitTakesOne : Obligations.WaitTakesOne := fun _ _ hc hpc h0 =>
  ⟨wait_returns (fun _ => rfl) hc hpc h0, wait_returns (fun _ => rfl) hc hpc h0⟩

/-- Settles O43. -/
theorem waitGoesBack : Obligations.WaitGoesBack := fun _ _ hc h =>
  ⟨wait_goes_back (fun _ => rfl) hc h, wait_goes_back (fun _ => rfl) hc h⟩

/-- Settles O44. -/
theorem waitDoesNotReturnAtZero : Obligations.WaitDoesNotReturnAtZero := by
  intro a s t hs h0 h
  have hself := (State.inv_iff_activeWf.1 hs).1.self
  rcases h with h | h
  · exact wait_at_zero (fun _ => rfl) hself h0 h
  · exact wait_at_zero (fun _ => rfl) hself h0 h

/-- Settles O45. -/
theorem postAddsOne : Obligations.PostAddsOne := fun _ _ hc hpc hmax =>
  ⟨post_returns (fun _ => rfl) hc hpc hmax, post_returns (fun _ => rfl) hc hpc hmax⟩

/-- Settles O46. -/
theorem postRefusedOrGoesBack : Obligations.PostRefusedOrGoesBack := fun _ _ hc =>
  ⟨fun hpc hmax => ⟨postStep_full hc hpc hmax, postStep_full hc hpc hmax⟩,
    fun hpc hold => ⟨post_goes_back (fun _ => rfl) hc hpc hold, post_goes_back (fun _ => rfl) hc hpc hold⟩⟩

/-- Settles O47. -/
theorem primitivesRefuseBadWords : Obligations.PrimitivesRefuseBadWords := by
  refine ⟨fun a n m s why h => ?_, fun a s hal hm hw => ?_⟩
  · have hword : s.plat.wordCheck a = some why := by
      rcases h with ⟨hal, rfl⟩ | ⟨hal, hm, rfl⟩
      · exact Platform.wordCheck_misaligned hal
      · exact Platform.wordCheck_outside hal hm
    have hsem := State.semCheck_of_wordCheck hword
    refine ⟨exec_cas32_refused hword, semInitStep_refused hword, semInitStep_refused hword, waitStep_refused hsem,
      waitStep_refused hsem, postStep_refused hsem, postStep_refused hsem, fun b capacity hb => ?_⟩
    have hbarrier : s.plat.barrierCheck b = some why := by
      refine Platform.barrierCheck_some ?_
      rcases hb with rfl | ⟨hc, rfl⟩ | ⟨hc, hg, rfl⟩
      · exact .inl hword
      · exact .inr (.inl ⟨hc, hword⟩)
      · exact .inr (.inr ⟨hc, hg, hword⟩)
    exact ⟨execBarrierInit_refused hbarrier, execBarrierEnter_refused hbarrier⟩
  · have hsem := State.semCheck_uninitialised (Platform.wordCheck_none_iff.2 ⟨hal, hm⟩) hw
    exact ⟨waitStep_refused hsem, waitStep_refused hsem, postStep_refused hsem, postStep_refused hsem⟩
end

section
/-! Barriers: the three stores of an initialisation, and what each part of an arrival does (43_sync_primitives.md
section 4). -/

namespace Sys2Proof.Machine

variable {s t u : State} {b : Barrier} {capacity : Word}

/-! ### The three words of a barrier (R20) -/

/-- Aligned words that are not one word share no byte. -/
theorem aligned4_apart {x y : Word} (hx : aligned4 x = true) (hy : aligned4 y = true) (hne : x ≠ y) :
    x.toNat + 4 ≤ y.toNat ∨ y.toNat + 4 ≤ x.toNat := by
  have hne' : x.toNat ≠ y.toNat := fun h => hne (BitVec.eq_of_toNat_eq h)
  simp only [aligned4, beq_iff_eq] at hx hy
  omega

structure WordsApart (b : Barrier) : Prop where
  counterLock : b.counter.toNat + 4 ≤ b.gateLock.toNat ∨ b.gateLock.toNat + 4 ≤ b.counter.toNat
  counterRelease : b.counter.toNat + 4 ≤ b.releaseSem.toNat ∨ b.releaseSem.toNat + 4 ≤ b.counter.toNat
  lockRelease : b.gateLock.toNat + 4 ≤ b.releaseSem.toNat ∨ b.releaseSem.toNat + 4 ≤ b.gateLock.toNat

theorem wordsApart_of_wf (h : b.wf = true) : WordsApart b := by
  simp only [Barrier.wf, Bool.and_eq_true, bne_iff_ne] at h
  obtain ⟨⟨⟨⟨⟨hc, hg⟩, hr⟩, hcg⟩, hcr⟩, hgr⟩ := h
  exact ⟨aligned4_apart hc hg hcg, aligned4_apart hc hr hcr, aligned4_apart hg hr hgr⟩

/-! ### Initialisation (R148) -/

theorem findCapacity_putCapacity (l : List (Barrier × Word)) (b : Barrier) (c : Word) :
    findCapacity (putCapacity l b c) b = some c := by
  induction l with
  | nil => simp [putCapacity, findCapacity]
  | cons e rest ih =>
    simp only [putCapacity]
    split_ifs with h
    · simp [findCapacity]
    · simp [findCapacity, h, ih]

section
variable (hc : s.plat.barrierCheck b = none) (hcap : capacity ≠ 0)
include hc hcap

theorem exec_barrierInit_n1 (hpc : s.self.pc = .start) : exec (.barrierInit b capacity) s =
    .next ((s.storeWord b.counter.toNat 0).goto (.barrierInit b capacity) .n2) := by
  simp only [exec, execBarrierInit, hc, hcap, hpc, if_false]

theorem exec_barrierInit_n2 (hpc : s.self.pc = .n2) : exec (.barrierInit b capacity) s =
    .next ((s.initSem b.gateLock 1).goto (.barrierInit b capacity) .n3) := by
  simp only [exec, execBarrierInit, hc, hcap, hpc, if_false]

theorem exec_barrierInit_n3 (hpc : s.self.pc = .n3) : exec (.barrierInit b capacity) s =
    .next ((s.initSem b.releaseSem 0).setBarriers (putCapacity s.barriers b capacity)).returnDone := by
  simp only [exec, execBarrierInit, hc, hcap, hpc, if_false]

end

theorem exec_barrierInit_zero (hc : s.plat.barrierCheck b = none) :
    exec (.barrierInit b 0) s = .refused .capacityZero := by
  simp only [exec, execBarrierInit, hc, if_true]

theorem State.loadWord_initSem_other {a : Word} {x : Nat} (n : Word) (h : x + 4 ≤ a.toNat ∨ a.toNat + 4 ≤ x) :
    (s.initSem a n).loadWord x = s.loadWord x := (sameOutside_initSem s a n).loadWord h

@[simp] theorem State.plat_initSem (s : State) (a n : Word) : (s.initSem a n).plat = s.plat := by simp [State.initSem]
@[simp] theorem State.active_initSem (s : State) (a n : Word) : (s.initSem a n).active = s.active := by
  simp [State.initSem]

/-! ### An arrival, part by part (R149) -/

/-- What every micro-step of an arrival needs, and no micro-step changes. -/
structure AtBarrier (s : State) (b : Barrier) (capacity : Word) : Prop where
  check : s.plat.barrierCheck b = none
  capacity : findCapacity s.barriers b = some capacity

theorem AtBarrier.of_frame {l : List Part} (h : AtBarrier s b capacity) (hf : Frame s t l) (hp : Part.plat ∉ l)
    (hb : Part.barriers ∉ l) : AtBarrier t b capacity :=
  ⟨by rw [hf.plat hp]; exact h.check, by rw [hf.barriers hb]; exact h.capacity⟩

section
variable (h : AtBarrier s b capacity)
include h

theorem exec_enter_lock (hpc : s.self.pc = .start ∨ s.self.pc = .b1w2) : exec (.barrierEnter b) s =
    waitStep (.barrierEnter b) b.gateLock .b1w1 .b1w2 (fun t => t.goto (.barrierEnter b) .b2) s := by
  rcases hpc with hpc | hpc <;> simp only [exec, execBarrierEnter, h.check, h.capacity, hpc]

theorem exec_enter_count (hpc : s.self.pc = .b2) :
    exec (.barrierEnter b) s = .next (barrierCount b capacity s) := by
  simp only [exec, execBarrierEnter, h.check, h.capacity, hpc]

theorem exec_enter_reset (hpc : s.self.pc = .b3) :
    exec (.barrierEnter b) s = .next ((s.storeWord b.counter.toNat 0).goto (.barrierEnter b) .b4p1) := by
  simp only [exec, execBarrierEnter, h.check, h.capacity, hpc]

theorem exec_enter_lastUnlock (hpc : s.self.pc = .b4p1 ∨ s.self.pc = .b4p2) : exec (.barrierEnter b) s =
    postStep (.barrierEnter b) b.gateLock .b4p1 .b4p2 (barrierRelease b (capacity - 1)) s := by
  rcases hpc with hpc | hpc <;> simp only [exec, execBarrierEnter, h.check, h.capacity, hpc]

theorem exec_enter_release (hpc : (s.self.pc = .b5p1 ∧ s.self.locals.n ≠ 0) ∨ s.self.pc = .b5p2) :
    exec (.barrierEnter b) s =
      postStep (.barrierEnter b) b.releaseSem .b5p1 .b5p2 (barrierRelease b (s.self.locals.n - 1)) s := by
  rcases hpc with ⟨hpc, hn⟩ | hpc
  · simp only [exec, execBarrierEnter, h.check, h.capacity, hpc, hn, if_false]
  · simp only [exec, execBarrierEnter, h.check, h.capacity, hpc]

theorem exec_enter_store (hpc : s.self.pc = .b6) : exec (.barrierEnter b) s =
    .next ((s.storeWord b.counter.toNat (s.self.locals.c + 1)).goto (.barrierEnter b) .b7p1) := by
  simp only [exec, execBarrierEnter, h.check, h.capacity, hpc]

theorem exec_enter_unlock (hpc : s.self.pc = .b7p1 ∨ s.self.pc = .b7p2) : exec (.barrierEnter b) s =
    postStep (.barrierEnter b) b.gateLock .b7p1 .b7p2 (fun t => t.goto (.barrierEnter b) .b8w1) s := by
  rcases hpc with hpc | hpc <;> simp only [exec, execBarrierEnter, h.check, h.capacity, hpc]

theorem exec_enter_leave (hpc : s.self.pc = .b8w1 ∨ s.self.pc = .b8w2) : exec (.barrierEnter b) s =
    waitStep (.barrierEnter b) b.releaseSem .b8w1 .b8w2 State.returnDone s := by
  rcases hpc with hpc | hpc <;> simp only [exec, execBarrierEnter, h.check, h.capacity, hpc]

end

theorem execTimes_two {i : Instr} (h : exec i s = .next u) (h' : exec i u = .next t) :
    execTimes 2 i s = .next t := by
  rw [execTimes_succ 1 h, execTimes_succ 0 h']
  rfl

theorem MovesTo.atBarrier {i : Instr} {l : Label} (h : MovesTo s t i l) (hb : AtBarrier s b capacity) :
    AtBarrier t b capacity := hb.of_frame h.frame (by simp) (by simp)

theorem Swapped.atBarrier {a n : Word} (h : Swapped s t a n) (hb : AtBarrier s b capacity) :
    AtBarrier t b capacity := hb.of_frame h.frame (by simp) (by simp)

theorem Swapped.semCheck {a n : Word} (h : Swapped s t a n) (x : Word) : t.semCheck x = s.semCheck x :=
  State.semCheck_congr (h.frame.plat (by simp)) (h.frame.semWords (by simp)) x

theorem swapped_goto {a n : Word} (h : Swapped s t a n) (i : Instr) (l : Label) :
    Swapped s (t.goto i l) a n ∧ staysAt s (t.goto i l) i l := by
  refine ⟨⟨by simp [h.word], h.outside.trans_mem (by simp), by simp [h.returned], by simp [h.script],
    by simp [h.arrivals], by simp [h.releases], ?_⟩, by simp [staysAt, h.returned, h.script]⟩
  exact Frame.next (l' := []) h.frame (frame_goto t i l) (by simp) (by simp) (by simp)

/-- B1: the lock is taken. -/
theorem enter_lock (h : AtBarrier s b capacity) (hc : s.semCheck b.gateLock = none) (hpc : s.self.pc = .start)
    (h0 : s.loadWord b.gateLock.toNat ≠ 0) : ∃ t, execTimes 2 (.barrierEnter b) s = .next t ∧
      staysAt s t (.barrierEnter b) .b2 ∧ Swapped s t b.gateLock (s.loadWord b.gateLock.toNat - 1) := by
  obtain ⟨u, v, hu, hmoves, hv, hswap⟩ := waitStep_pair (i := .barrierEnter b) (l1 := .b1w1) (l2 := .b1w2)
    (fin := fun t => t.goto (.barrierEnter b) .b2) hc (by rw [hpc]; simp) h0
  obtain ⟨hswap', hstays⟩ := swapped_goto hswap (.barrierEnter b) .b2
  exact ⟨_, execTimes_two ((exec_enter_lock h (.inl hpc)).trans hu)
    ((exec_enter_lock (hmoves.atBarrier h) (.inr hmoves.stays.pc)).trans hv), hstays, hswap'⟩

/-- B2: the counter is read, and tells the last arrival from the others. -/
theorem enter_count (h : AtBarrier s b capacity) (hpc : s.self.pc = .b2) : ∃ t, exec (.barrierEnter b) s = .next t ∧
    staysAt s t (.barrierEnter b) (if s.loadWord b.counter.toNat = capacity - 1 then .b3 else .b6) ∧
    t.self.locals.c = s.loadWord b.counter.toNat ∧ Frame s t [.worker s.active] := by
  refine ⟨_, exec_enter_count h hpc, by simp [barrierCount, staysAt], by simp [barrierCount], ?_⟩
  exact (frame_setLocals s _).then (frame_goto _ _ _) (by simp) (by simp) (by simp)

/-- A micro-step that stores one word and goes on. -/
theorem swapped_store (s : State) (a n : Word) (i : Instr) (l : Label) :
    Swapped s ((s.storeWord a.toNat n).goto i l) a n ∧ staysAt s ((s.storeWord a.toNat n).goto i l) i l := by
  have h : Swapped s (s.storeWord a.toNat n) a n :=
    ⟨by simp, fun x hx => by rw [State.loadByte_storeWord_other _ _ _ _ hx], by simp, by simp, by simp, by simp,
      (frame_storeWord s _ _).mono (by simp)⟩
  exact swapped_goto h i l

/-- B3: the last arrival resets the counter. -/
theorem enter_reset (h : AtBarrier s b capacity) (hpc : s.self.pc = .b3) : ∃ t, exec (.barrierEnter b) s = .next t ∧
    staysAt s t (.barrierEnter b) .b4p1 ∧ Swapped s t b.counter 0 := by
  obtain ⟨hswap, hstays⟩ := swapped_store s b.counter 0 (.barrierEnter b) .b4p1
  exact ⟨_, exec_enter_reset h hpc, hstays, hswap⟩

/-- B6: another arrival counts itself. -/
theorem enter_store (h : AtBarrier s b capacity) (hpc : s.self.pc = .b6) : ∃ t, exec (.barrierEnter b) s = .next t ∧
    staysAt s t (.barrierEnter b) .b7p1 ∧ Swapped s t b.counter (s.self.locals.c + 1) := by
  obtain ⟨hswap, hstays⟩ := swapped_store s b.counter (s.self.locals.c + 1) (.barrierEnter b) .b7p1
  exact ⟨_, exec_enter_store h hpc, hstays, hswap⟩

/-- B7: it frees the lock and goes to wait. -/
theorem enter_unlock (h : AtBarrier s b capacity) (hc : s.semCheck b.gateLock = none) (hpc : s.self.pc = .b7p1)
    (hmax : s.loadWord b.gateLock.toNat ≠ 0xffffffff) : ∃ t, execTimes 2 (.barrierEnter b) s = .next t ∧
      staysAt s t (.barrierEnter b) .b8w1 ∧ Swapped s t b.gateLock (s.loadWord b.gateLock.toNat + 1) := by
  obtain ⟨u, v, hu, hmoves, hv, hswap⟩ := postStep_pair (i := .barrierEnter b) (l1 := .b7p1) (l2 := .b7p2)
    (fin := fun t => t.goto (.barrierEnter b) .b8w1) hc (by rw [hpc]; simp) hmax
  obtain ⟨hswap', hstays⟩ := swapped_goto hswap (.barrierEnter b) .b8w1
  exact ⟨_, execTimes_two ((exec_enter_unlock h (.inl hpc)).trans hu)
    ((exec_enter_unlock (hmoves.atBarrier h) (.inr hmoves.stays.pc)).trans hv), hstays, hswap'⟩

/-- B4: the last arrival frees the lock and has all but its own arrival to release. -/
theorem enter_lastUnlock (h : AtBarrier s b capacity) (hc : s.semCheck b.gateLock = none) (hpc : s.self.pc = .b4p1)
    (hmax : s.loadWord b.gateLock.toNat ≠ 0xffffffff) : ∃ v,
      execTimes 2 (.barrierEnter b) s = .next (barrierRelease b (capacity - 1) v) ∧
      Swapped s v b.gateLock (s.loadWord b.gateLock.toNat + 1) := by
  obtain ⟨u, v, hu, hmoves, hv, hswap⟩ := postStep_pair (i := .barrierEnter b) (l1 := .b4p1) (l2 := .b4p2)
    (fin := barrierRelease b (capacity - 1)) hc (by rw [hpc]; simp) hmax
  exact ⟨v, execTimes_two ((exec_enter_lastUnlock h (.inl hpc)).trans hu)
    ((exec_enter_lastUnlock (hmoves.atBarrier h) (.inr hmoves.stays.pc)).trans hv), hswap⟩

/-- B5, once round: one release. -/
theorem enter_release (h : AtBarrier s b capacity) (hc : s.semCheck b.releaseSem = none) (hpc : s.self.pc = .b5p1)
    (hn : s.self.locals.n ≠ 0) (hmax : s.loadWord b.releaseSem.toNat ≠ 0xffffffff) : ∃ v,
      execTimes 2 (.barrierEnter b) s = .next (barrierRelease b (s.self.locals.n - 1) v) ∧
      Swapped s v b.releaseSem (s.loadWord b.releaseSem.toNat + 1) := by
  obtain ⟨u, v, hu, hmoves, hv, hswap⟩ := postStep_pair (i := .barrierEnter b) (l1 := .b5p1) (l2 := .b5p2)
    (fin := barrierRelease b (s.self.locals.n - 1)) hc (by rw [hpc]; simp) hmax
  refine ⟨v, execTimes_two ((exec_enter_release h (.inl ⟨hpc, hn⟩)).trans hu) ?_, hswap⟩
  rw [exec_enter_release (hmoves.atBarrier h) (.inr hmoves.stays.pc), hmoves.releases, hv]

theorem Swapped.returns {a n : Word} {r : Ret} (h : Swapped s t a n) (h' : returns t u r) : returns s u r := by
  obtain ⟨hret', hcur', hscript'⟩ := h'
  exact ⟨by rw [hret', h.returned], hcur', hscript'.trans h.script⟩

theorem staysAt.trans {i j : Instr} {l l' : Label} (h : staysAt s t i l) (h' : staysAt t u j l') :
    staysAt s u j l' := by
  obtain ⟨_, _, hret, hscript⟩ := h
  obtain ⟨hcur', hpc', hret', hscript'⟩ := h'
  exact ⟨hcur', hpc', hret'.trans hret, hscript'.trans hscript⟩

theorem Swapped.loadWord {a n : Word} (h : Swapped s t a n) {x : Nat} (hx : x + 4 ≤ a.toNat ∨ a.toNat + 4 ≤ x) :
    t.loadWord x = s.loadWord x := h.outside.loadWord hx

/-- The frames of two parts of an arrival. -/
theorem Frame.nextMemory (h : Frame s t [.worker s.active, .memory]) (h' : Frame t u [.worker t.active, .memory]) :
    Frame s u [.worker s.active, .memory] := h.next h' (by simp) (List.Subset.refl _) (List.Subset.refl _)

/-- Words that are equal have equal bytes. -/
theorem loadByte_of_loadWord {a x : Nat} (h : t.loadWord a = s.loadWord a) (hx : a ≤ x ∧ x < a + 4) :
    t.loadByte x = s.loadByte x := by
  have hbytes := congrArg bytes4 h
  simp only [State.loadWord, bytes4_le4, List.cons.injEq, and_true] at hbytes
  obtain ⟨h0, h1, h2, h3⟩ := hbytes
  obtain ⟨hlo, hhi⟩ := hx
  have hcases : x = a ∨ x = a + 1 ∨ x = a + 2 ∨ x = a + 3 := by omega
  rcases hcases with rfl | rfl | rfl | rfl <;> assumption

theorem sub_one_ne_max {x : Word} (h : x ≠ 0) : x - 1 ≠ 0xffffffff := by
  bv_omega

/-! ### The releases of the last arrival, by their number (B5) -/

/-- The while of B5 is entered with releases left. -/
theorem barrierRelease_enters {n : Word} (hn : n ≠ 0) (b : Barrier) (u : State) :
    staysAt u (barrierRelease b n u) (.barrierEnter b) .b5p1 ∧ (barrierRelease b n u).self.locals.n = n ∧
      Frame u (barrierRelease b n u) [.worker u.active] := by
  have he : barrierRelease b n u =
      (u.setLocals { u.self.locals with n := n }).goto (.barrierEnter b) .b5p1 := if_neg hn
  refine ⟨?_, ?_, frame_barrierRelease b n u⟩ <;> simp [he, staysAt]

theorem barrierRelease_ends (b : Barrier) (u : State) : barrierRelease b 0 u = u.returnDone := by
  simp [barrierRelease]

theorem releases_complete (m : Nat) (n : Word) (u : State) (hm : n.toNat = m) (hb : AtBarrier u b capacity)
    (hc : u.semCheck b.releaseSem = none) (hmax : (u.loadWord b.releaseSem.toNat).toNat + m < 2 ^ 32) :
    ∃ t, execTimes (2 * m) (.barrierEnter b) (barrierRelease b n u) = .next t ∧ returns u t .done ∧
      (t.loadWord b.releaseSem.toNat).toNat = (u.loadWord b.releaseSem.toNat).toNat + m ∧
      sameOutside u t b.releaseSem.toNat 4 ∧ Frame u t [.worker u.active, .memory] := by
  induction m generalizing n u with
  | zero =>
    obtain rfl : n = 0 := BitVec.eq_of_toNat_eq hm
    rw [barrierRelease_ends]
    exact ⟨_, rfl, returns_retire rfl _, by simp [State.returnDone], fun x _ => by simp [State.returnDone],
      (frame_returnDone u).mono (by simp)⟩
  | succ m ih =>
    have hn : n ≠ 0 := by
      rintro rfl
      simp at hm
    obtain ⟨hstays, hleft, hframe⟩ := barrierRelease_enters hn b u
    generalize barrierRelease b n u = s at hstays hleft hframe ⊢
    have hword : s.loadWord b.releaseSem.toNat = u.loadWord b.releaseSem.toNat :=
      State.loadWord_congr (hframe.mem (by simp)) _
    have hfull : s.loadWord b.releaseSem.toNat ≠ 0xffffffff := by
      rw [hword]
      intro hf
      rw [hf] at hmax
      simp at hmax
      omega
    have hs := hb.of_frame hframe (by simp) (by simp)
    obtain ⟨v, hv, hswap⟩ := enter_release hs
      (by rw [State.semCheck_congr (hframe.plat (by simp)) (hframe.semWords (by simp)), hc]) hstays.pc
      (by rw [hleft]; exact hn) hfull
    have hadd : (v.loadWord b.releaseSem.toNat).toNat = (u.loadWord b.releaseSem.toNat).toNat + 1 := by
      rw [hswap.word, toNat_add_one hfull, hword]
    rw [hleft] at hv
    obtain ⟨t, ht, hret, hcount, hout, hframe'⟩ := ih (n - 1) v (by rw [toNat_sub_one hn, hm]; rfl)
      (hswap.atBarrier hs) (by rw [hswap.semCheck, State.semCheck_congr (hframe.plat (by simp))
        (hframe.semWords (by simp)), hc]) (by rw [hadd]; omega)
    refine ⟨t, ?_, returns_of_staysAt hstays (hswap.returns hret), by rw [hcount, hadd]; omega, fun x hx => ?_, ?_⟩
    · rw [Nat.mul_succ, Nat.add_comm, execTimes_add _ hv, ht]
    · rw [hout x hx, hswap.outside x hx, hframe.loadByte (by simp)]
    · exact (hframe.mono (by simp)).nextMemory (hswap.frame.nextMemory hframe')

end Sys2Proof.Machine

open Sys2Proof Sys2Proof.Machine

/-- Settles O48. The three stores on end are to words without a common byte. -/
theorem barrierInitialises : Obligations.BarrierInitialises := by
  intro b capacity s hwf hc hpc
  have hap := wordsApart_of_wf hwf
  obtain ⟨_, hlock, hrelease⟩ := Platform.barrierCheck_none hc
  refine ⟨fun hcap => ?_, fun hcap => by rw [hcap]; exact exec_barrierInit_zero hc⟩
  have h1 := exec_barrierInit_n1 hc hcap hpc
  have f1 := frame_execBarrierInit b capacity h1
  generalize hu : (s.storeWord b.counter.toNat 0).goto (.barrierInit b capacity) .n2 = u at h1 f1
  have o1 : sameOutside s u b.counter.toNat 4 := fun x hx => by
    rw [← hu, State.loadByte_goto, State.loadByte_storeWord_other _ _ _ _ hx]
  have h2 := exec_barrierInit_n2 (s := u) (capacity := capacity) (by rw [f1.plat (by simp), hc]) hcap
    (by rw [← hu]; simp)
  have f2 := frame_execBarrierInit b capacity h2
  have s2 : (u.initSem b.gateLock 1).semCheck b.gateLock = none :=
    State.semCheck_initSem 1 (by rw [f1.plat (by simp), hlock])
  generalize hv : (u.initSem b.gateLock 1).goto (.barrierInit b capacity) .n3 = v at h2 f2
  have o2 : sameOutside u v b.gateLock.toNat 4 := fun x hx => by
    rw [← hv, State.loadByte_goto, sameOutside_initSem u b.gateLock 1 x hx]
  have hplat : v.plat = s.plat := (f2.plat (by simp)).trans (f1.plat (by simp))
  have h3 := exec_barrierInit_n3 (s := v) (capacity := capacity) (by rw [hplat, hc]) hcap (by rw [← hv]; simp)
  have f3 := frame_execBarrierInit b capacity h3
  have s3 : (v.initSem b.releaseSem 0).semCheck b.gateLock = none :=
    State.semCheck_initSem_of_none 0 (by rw [← s2, ← hv]; exact State.semCheck_congr (by simp) (by simp) _)
  have s4 : (v.initSem b.releaseSem 0).semCheck b.releaseSem = none :=
    State.semCheck_initSem 0 (by rw [hplat, hrelease])
  generalize ht : ((v.initSem b.releaseSem 0).setBarriers (putCapacity v.barriers b capacity)).returnDone = t at h3 f3
  have hmem : t.mem = (v.initSem b.releaseSem 0).mem := by rw [← ht]; simp [State.returnDone]
  have o3 : sameOutside v t b.releaseSem.toNat 4 := (sameOutside_initSem v b.releaseSem 0).trans_mem hmem
  have hsem : ∀ a, t.semCheck a = (v.initSem b.releaseSem 0).semCheck a := fun a => by
    rw [← ht]
    exact State.semCheck_congr (by simp [State.returnDone]) (by simp [State.returnDone]) a
  refine ⟨u, v, t, h1, h2, h3, ?_, ?_, ?_, ?_, ?_, by rw [hsem, s3], by rw [hsem, s4], fun x hx hx' hx'' => ?_, ?_⟩
  · rw [← ht, ← hv, ← hu]
    simp [returns, State.returnDone]
  · rw [o3.loadWord hap.counterRelease, o2.loadWord hap.counterLock, ← hu]
    simp
  · rw [o3.loadWord hap.lockRelease, ← hv]
    simp
  · rw [State.loadWord_congr hmem]
    simp
  · rw [← ht]
    simp [State.returnDone, findCapacity_putCapacity]
  · rw [o3 x hx'', o2 x hx', o1 x hx]
  · rw [f1.active (by simp)] at f2
    rw [f2.active (by simp), f1.active (by simp)] at f3
    exact (f1.trans (f2.trans f3)).mono (by simp)

/-- Settles O49. -/
theorem barrierArrivalWaits : Obligations.BarrierArrivalWaits := by
  intro b capacity s hwf hc hcap hlock hpc h0 hlast
  have hap := wordsApart_of_wf hwf
  have hb : AtBarrier s b capacity := ⟨hc, hcap⟩
  obtain ⟨t1, e1, stay1, swap1⟩ := enter_lock hb hlock hpc h0
  have hb1 := swap1.atBarrier hb
  have counter1 := swap1.loadWord hap.counterLock
  obtain ⟨t2, e2, stay2, c2, f2⟩ := enter_count hb1 stay1.pc
  rw [counter1] at stay2 c2
  rw [if_neg hlast] at stay2
  have hb2 := hb1.of_frame f2 (by simp) (by simp)
  have lock2 : t2.loadWord b.gateLock.toNat = s.loadWord b.gateLock.toNat - 1 := by
    rw [State.loadWord_congr (f2.mem (by simp)), swap1.word]
  obtain ⟨t3, e3, stay3, swap3⟩ := enter_store hb2 stay2.pc
  have hb3 := swap3.atBarrier hb2
  have lock3 := (swap3.loadWord hap.counterLock.symm).trans lock2
  have sem3 : t3.semCheck b.gateLock = none := by
    rw [swap3.semCheck, State.semCheck_congr (f2.plat (by simp)) (f2.semWords (by simp)), swap1.semCheck, hlock]
  obtain ⟨t4, e4, stay4, swap4⟩ := enter_unlock hb3 sem3 stay3.pc (by rw [lock3]; exact sub_one_ne_max h0)
  have lock4 : t4.loadWord b.gateLock.toNat = s.loadWord b.gateLock.toNat := by
    rw [swap4.word, lock3, BitVec.sub_add_cancel]
  have mem2 : ∀ x, t2.loadByte x = t1.loadByte x := f2.loadByte (by simp)
  refine ⟨t4, ?_, ((stay1.trans stay2).trans stay3).trans stay4, ?_, lock4, ?_, fun x hx => ?_, ?_⟩
  · rw [execTimes_add 4 e1, execTimes_succ 3 e2, execTimes_succ 2 e3, e4]
  · rw [swap4.loadWord hap.counterLock, swap3.word, c2]
  · rw [swap4.loadWord hap.lockRelease.symm, swap3.loadWord hap.counterRelease.symm,
      State.loadWord_congr (f2.mem (by simp)), swap1.loadWord hap.lockRelease.symm]
  · by_cases hx' : b.gateLock.toNat ≤ x ∧ x < b.gateLock.toNat + 4
    · exact loadByte_of_loadWord lock4 hx'
    · rw [swap4.outside x (by omega), swap3.outside x hx, mem2, swap1.outside x (by omega)]
  · exact (((swap1.frame.nextMemory (f2.mono (by simp))).nextMemory swap3.frame).nextMemory swap4.frame).mono (by simp)

/-- Settles O50. -/
theorem barrierLastArrivalReleases : Obligations.BarrierLastArrivalReleases := by
  intro b capacity s hwf hc hcap hcap0 hlock hrel hpc h0 hlast hmax
  have hap := wordsApart_of_wf hwf
  have hb : AtBarrier s b capacity := ⟨hc, hcap⟩
  obtain ⟨t1, e1, stay1, swap1⟩ := enter_lock hb hlock hpc h0
  have hb1 := swap1.atBarrier hb
  have counter1 := swap1.loadWord hap.counterLock
  obtain ⟨t2, e2, stay2, c2, f2⟩ := enter_count hb1 stay1.pc
  rw [counter1, if_pos hlast] at stay2
  have hb2 := hb1.of_frame f2 (by simp) (by simp)
  obtain ⟨t3, e3, stay3, swap3⟩ := enter_reset hb2 stay2.pc
  have hb3 := swap3.atBarrier hb2
  have sem3 : ∀ x, t3.semCheck x = s.semCheck x := fun x => by
    rw [swap3.semCheck, State.semCheck_congr (f2.plat (by simp)) (f2.semWords (by simp)), swap1.semCheck]
  have lock3 : t3.loadWord b.gateLock.toNat = s.loadWord b.gateLock.toNat - 1 := by
    rw [swap3.loadWord hap.counterLock.symm, State.loadWord_congr (f2.mem (by simp)), swap1.word]
  have mem2 : ∀ x, t2.loadByte x = t1.loadByte x := f2.loadByte (by simp)
  obtain ⟨v, e4, swap4⟩ := enter_lastUnlock hb3 ((sem3 _).trans hlock) stay3.pc
    (by rw [lock3]; exact sub_one_ne_max h0)
  have lock4 : v.loadWord b.gateLock.toNat = s.loadWord b.gateLock.toNat := by
    rw [swap4.word, lock3, BitVec.sub_add_cancel]
  have release4 : v.loadWord b.releaseSem.toNat = s.loadWord b.releaseSem.toNat := by
    rw [swap4.loadWord hap.lockRelease.symm, swap3.loadWord hap.counterRelease.symm,
      State.loadWord_congr (f2.mem (by simp)), swap1.loadWord hap.lockRelease.symm]
  obtain ⟨t, e5, hret, hcount, out5, f5⟩ := releases_complete (capacity.toNat - 1) (capacity - 1) v
    (toNat_sub_one hcap0) (swap4.atBarrier hb3) (by rw [swap4.semCheck, sem3, hrel]) (by rw [release4]; exact hmax)
  have lock5 := (out5.loadWord hap.lockRelease).trans lock4
  refine ⟨t, ?_, ?_, ?_, lock5, by rw [hcount, release4], fun x hx hx' => ?_, ?_⟩
  · have hsteps : 6 + 2 * (capacity.toNat - 1) = 2 + ((2 + 2 * (capacity.toNat - 1)) + 1 + 1) := by omega
    rw [hsteps, execTimes_add _ e1, execTimes_succ _ e2, execTimes_succ _ e3, execTimes_add _ e4, e5]
  · exact returns_of_staysAt ((stay1.trans stay2).trans stay3) (swap4.returns hret)
  · rw [out5.loadWord hap.counterRelease, swap4.loadWord hap.counterLock, swap3.word]
  · by_cases hx'' : b.gateLock.toNat ≤ x ∧ x < b.gateLock.toNat + 4
    · exact loadByte_of_loadWord lock5 hx''
    · rw [out5 x hx', swap4.outside x (by omega), swap3.outside x hx, mem2, swap1.outside x (by omega)]
  · exact ((((swap1.frame.nextMemory (f2.mono (by simp))).nextMemory swap3.frame).nextMemory swap4.frame).nextMemory
      f5).mono (by simp)

/-- Settles O51. -/
theorem barrierWaiterLeaves : Obligations.BarrierWaiterLeaves := by
  intro b s hc
  refine ⟨fun capacity hcap hrel hpc h0 => ?_, fun capacity hcap hrel hpc h0 => ?_, fun hcap => ?_⟩
  · have hb : AtBarrier s b capacity := ⟨hc, hcap⟩
    obtain ⟨u, v, hu, hmoves, hv, hswap⟩ := waitStep_pair (i := .barrierEnter b) (l1 := .b8w1) (l2 := .b8w2)
      (fin := State.returnDone) hrel (by rw [hpc]; simp) h0
    obtain ⟨hret, hword, hout, hframe⟩ := hswap.returnDone
    exact ⟨u, _, (exec_enter_leave hb (.inl hpc)).trans hu, hmoves.stays,
      (exec_enter_leave (hmoves.atBarrier hb) (.inr hmoves.stays.pc)).trans hv, hret,
      by rw [hword, toNat_sub_one h0], hout, hframe⟩
  · obtain ⟨t, ht, hmoves⟩ := waitStep_spins (i := .barrierEnter b) (l1 := .b8w1) (l2 := .b8w2)
      (fin := State.returnDone) hrel (by rw [hpc]; simp) h0
    exact ⟨t, (exec_enter_leave ⟨hc, hcap⟩ (.inl hpc)).trans ht, hmoves.stays, hmoves.frame⟩
  · simp only [exec, execBarrierEnter, hc, hcap]
end

section
/-! What no operation changes, whichever it is: bytes it does not store to, the other worker and the configuration, the
ends of the channels, and the log but for one record (10_state.md, 60_exceptions.md section 1). -/

namespace Sys2Proof.Machine

variable {s t : State}

/-! ### The parts an operation can change -/

/-- The parts of the state that an operation of worker `w` can change; a bulk copy can be one of either accelerator. -/
def changesOf (w : WorkerId) : Instr → List Part
  | .wrA k _ | .wrB k _ | .wrZ k _ => [.inst k, .draws, .worker w]
  | .rdA k | .rdB k | .rdZ k => [.worker w, .inst k]
  | .badWr _ _ _ => [.log, .worker w]
  | .badRd _ _ => [.log, .draws, .worker w]
  | .engineStep k => [.inst k]
  | .rotate _ _ _ | .vector _ _ _ => [.worker w]
  | .dmaSrc _ | .dmaDst _ | .dmaLen _ | .dmaOpNop => [.dma, .worker w]
  | .dmaOpCopy => [.inst .acc0, .inst .acc1, .memory, .dma, .log, .draws, .worker w]
  | .dmaReserved _ _ _ => []
  | .cas32 _ _ _ | .semWait _ | .semPost _ | .mutexLock _ | .mutexUnlock _ | .barrierEnter _ => [.memory, .worker w]
  | .semInit _ _ | .mutexInit _ => [.memory, .semWords, .worker w]
  | .barrierInit _ _ => [.memory, .semWords, .barriers, .worker w]

theorem exec_changes (i : Instr) (h : exec i s = .next t) : Frame s t (changesOf s.active i) := by
  cases i with
  | wrA k w => exact frame_execWrA k w h
  | wrB k w => exact frame_execWrB k w h
  | wrZ k w => exact frame_execWrZ k w h
  | rdA k => exact frame_execRdA k h
  | rdB k => exact frame_execRdB k h
  | rdZ k => exact frame_execRdZ k h
  | badWr k off w => exact frame_execBadWr k off h
  | badRd k off => exact frame_execBadRd k off h
  | engineStep k => exact frame_execEngineStep k h
  | rotate x y t0 => exact frame_execRotate x y t0 h
  | vector x y t0 => exact frame_execVector x y t0 h
  | dmaSrc v => exact frame_execDmaSrc v h
  | dmaDst v => exact frame_execDmaDst v h
  | dmaLen v => exact frame_execDmaLen v h
  | dmaOpNop => exact frame_execDmaOpNop h
  | dmaOpCopy =>
    obtain ⟨k, hframe⟩ := frame_execDmaOpCopy h
    cases k <;> exact hframe.mono (by simp [changesOf])
  | dmaReserved cmd off data => cases h
  | cas32 addr expect new => exact frame_execCas32 addr expect new h
  | semInit a n => exact frame_semInitStep a n h
  | semWait a => exact frame_waitStep frame_returnDone h
  | semPost a => exact frame_postStep frame_returnDone h
  | mutexInit m => exact frame_semInitStep m 1 h
  | mutexLock m => exact frame_waitStep frame_returnDone h
  | mutexUnlock m => exact frame_postStep frame_returnDone h
  | barrierInit b capacity => exact frame_execBarrierInit b capacity h
  | barrierEnter b => exact frame_execBarrierEnter b h

/-! ### Bytes outside those stored to -/

/-- Every byte outside the range, if one is given, reads as before. -/
def KeepsOutside (s t : State) (r : Option (Nat × Nat)) : Prop :=
  ∀ x, (∀ a n, r = some (a, n) → x < a ∨ a + n ≤ x) → t.loadByte x = s.loadByte x

theorem keepsOutside_of_mem (h : t.mem = s.mem) (r : Option (Nat × Nat)) : KeepsOutside s t r :=
  fun x _ => State.loadByte_congr h x

theorem sameOutside.keepsOutside {a n : Nat} (h : sameOutside s t a n) : KeepsOutside s t (some (a, n)) :=
  fun x hx => h x (hx a n rfl)

theorem keepsOutside_storeWord {u : State} (a : Nat) (v : Word) (h : u.mem = (s.storeWord a v).mem) :
    KeepsOutside s u (some (a, 4)) := fun x hx => by
  rw [State.loadByte_congr h, State.loadByte_storeWord_other _ _ _ _ (hx a 4 rfl)]

theorem State.casStores_hit {a e : Word} (h : s.loadWord a.toNat = e) : s.casStores a e = some (a.toNat, 4) :=
  if_pos h

theorem State.trialStores_at {l : Label} (h : s.self.pc = l) (a : Word) :
    s.trialStores l a = s.casStores a s.self.locals.old := if_pos h

variable {i : Instr} {a : Word} {l1 l2 : Label} {fin : State → State}

/-- A wait stores in W2 only, and only if its attempt succeeds. -/
theorem keepsOutside_waitStep (hf : ∀ u, (fin u).mem = u.mem) (h : waitStep i a l1 l2 fin s = .next t) :
    KeepsOutside s t (s.trialStores l2 a) := by
  rcases waitStep_cases i a l1 l2 fin s with ⟨_, _, e⟩ | ⟨_, _, e⟩ | ⟨_, hpc, hold, e⟩ | ⟨_, _, _, e⟩ <;>
    rw [e] at h <;> cases h
  · exact keepsOutside_of_mem (by simp) _
  · rw [State.trialStores_at hpc, State.casStores_hit hold]
    exact keepsOutside_storeWord _ _ (by rw [hf, State.mem_setLocals])
  · exact keepsOutside_of_mem (by simp) _

/-- A post stores in P2 only, and only if its attempt succeeds. -/
theorem keepsOutside_postStep (hf : ∀ u, (fin u).mem = u.mem) (h : postStep i a l1 l2 fin s = .next t) :
    KeepsOutside s t (s.trialStores l2 a) := by
  rcases postStep_cases i a l1 l2 fin s with
    ⟨_, _, e⟩ | ⟨_, _, _, e⟩ | ⟨_, _, _, e⟩ | ⟨_, hpc, hold, e⟩ | ⟨_, _, _, e⟩ <;> rw [e] at h <;> cases h
  · exact keepsOutside_of_mem (by simp) _
  · rw [State.trialStores_at hpc, State.casStores_hit hold]
    exact keepsOutside_storeWord _ _ (by rw [hf, State.mem_setLocals])
  · exact keepsOutside_of_mem (by simp) _

theorem mem_returnDone (u : State) : u.returnDone.mem = u.mem := State.mem_retire u .done

theorem keepsOutside_semInitStep {n : Word} (h : semInitStep a n s = .next t) :
    KeepsOutside s t (some (a.toNat, 4)) := by
  simp only [semInitStep] at h
  split at h <;> cases h
  exact keepsOutside_storeWord _ n (by simp [State.returnDone, State.initSem])

theorem keepsOutside_cas32 {e n : Word} (h : execCas32 a e n s = .next t) : KeepsOutside s t (s.casStores a e) := by
  simp only [execCas32] at h
  split at h <;> cases h
  by_cases hit : s.loadWord a.toNat = e
  · rw [State.cas_hit _ hit, State.casStores_hit hit]
    exact keepsOutside_storeWord _ n (State.mem_retire _ _)
  · rw [State.cas_miss _ hit]
    exact keepsOutside_of_mem (State.mem_retire _ _) _

theorem keepsOutside_execBarrierInit {b : Barrier} {c : Word} (h : execBarrierInit b c s = .next t) :
    KeepsOutside s t (some (barrierInitStores b s.self.pc, 4)) := by
  simp only [execBarrierInit] at h
  split at h
  · cases h
  · split_ifs at h
    split at h <;> cases h
    · rename_i hpc
      rw [hpc]
      exact keepsOutside_storeWord _ 1 (by simp [State.initSem, barrierInitStores])
    · rename_i hpc
      rw [hpc]
      exact keepsOutside_storeWord _ 0 (by simp [State.returnDone, State.initSem, barrierInitStores])
    · rename_i hn2 hn3
      have hstores : barrierInitStores b s.self.pc = b.counter.toNat := by
        simp only [barrierInitStores]
      rw [hstores]
      exact keepsOutside_storeWord _ 0 (by simp)

/-- What a trial of an arrival stores to, at the label it is made at. -/
theorem KeepsOutside.of_trial {b : Barrier} {l : Label} (h : KeepsOutside s t (s.trialStores l a))
    (hl : s.self.pc = l → s.barrierEnterStores b = s.casStores a s.self.locals.old) :
    KeepsOutside s t (s.barrierEnterStores b) := fun x hx => h x fun a' n' he => by
  simp only [State.trialStores] at he
  split_ifs at he with hpc
  exact hx a' n' ((hl hpc).trans he)

theorem mem_barrierRelease (b : Barrier) (n : Word) (u : State) : (barrierRelease b n u).mem = u.mem :=
  (frame_barrierRelease b n u).mem (by simp)

theorem keepsOutside_execBarrierEnter {b : Barrier} (h : execBarrierEnter b s = .next t) :
    KeepsOutside s t (s.barrierEnterStores b) := by
  obtain ⟨capacity, _, _, h⟩ := execBarrierEnter_next h
  rcases h with ⟨_, rfl⟩ | ⟨hpc, rfl⟩ | ⟨_, h⟩ | ⟨_, _, rfl⟩ | ⟨_, h⟩ | ⟨hpc, rfl⟩ | ⟨_, h⟩ | ⟨_, h⟩ | ⟨_, h⟩
  · exact keepsOutside_of_mem (by simp [barrierCount]) _
  · rw [show s.barrierEnterStores b = some (b.counter.toNat, 4) by simp only [State.barrierEnterStores, hpc]]
    exact keepsOutside_storeWord _ 0 (by simp)
  · exact (keepsOutside_postStep (mem_barrierRelease b _) h).of_trial fun hpc => by
      simp only [State.barrierEnterStores, hpc]
  · exact keepsOutside_of_mem (mem_returnDone s) _
  · exact (keepsOutside_postStep (mem_barrierRelease b _) h).of_trial fun hpc => by
      simp only [State.barrierEnterStores, hpc]
  · rw [show s.barrierEnterStores b = some (b.counter.toNat, 4) by simp only [State.barrierEnterStores, hpc]]
    exact keepsOutside_storeWord _ (s.self.locals.c + 1) (by simp)
  · exact (keepsOutside_postStep (fun u => u.mem_goto _ _) h).of_trial fun hpc => by
      simp only [State.barrierEnterStores, hpc]
  · exact (keepsOutside_waitStep mem_returnDone h).of_trial fun hpc => by
      simp only [State.barrierEnterStores, hpc]
  · exact (keepsOutside_waitStep (fun u => u.mem_goto _ _) h).of_trial fun hpc => by
      simp only [State.barrierEnterStores, hpc]

theorem keepsOutside_execDmaOpCopy (h : execDmaOpCopy s = .next t) : KeepsOutside s t s.copyStores := by
  rcases execDmaOpCopy_cases s with ⟨hpc, e⟩ | ⟨hpc, e⟩ | ⟨hpc, e⟩ | ⟨_, _, _, e⟩ <;> rw [e] at h
  · cases h
    rw [show s.copyStores = some (s.self.copy.dst.toNat + s.self.copy.done, 1) by simp only [State.copyStores, hpc]]
    refine sameOutside.keepsOutside fun x hx => ?_
    rw [State.loadByte_copied, State.loadByte_storeByte, if_neg (by omega)]
  · rcases frame_copyReadStep h with f | ⟨k, _, f⟩ <;> exact keepsOutside_of_mem (f.mem (by simp)) _
  · simp only [copyWriteStep] at h
    split at h <;> cases h
    rename_i u hw
    rcases busWrite4_ok hw with ⟨hm, rfl⟩ | ⟨k, _, rfl⟩
    · rw [show s.copyStores = some (s.self.copy.dst.toNat + s.self.copy.done, 4) by
        simp only [State.copyStores, hpc, hm]]
      exact keepsOutside_storeWord _ s.self.copy.buf ((frame_copied _ _ _).mem (by simp))
    · exact keepsOutside_of_mem (((frame_copied _ _ _).mem (by simp)).trans
        ((frame_accWrite k _ _ s).mem (by simp))) _
  · exact keepsOutside_of_mem ((frame_copyStart h).mem (by simp)) _

theorem exec_keepsOutside (i : Instr) (h : exec i s = .next t) : KeepsOutside s t (storesTo i s) := by
  cases i with
  | dmaOpCopy => exact keepsOutside_execDmaOpCopy h
  | cas32 addr expect new => exact keepsOutside_cas32 h
  | semInit a n => exact keepsOutside_semInitStep h
  | semWait a => exact keepsOutside_waitStep mem_returnDone h
  | semPost a => exact keepsOutside_postStep mem_returnDone h
  | mutexInit m => exact keepsOutside_semInitStep h
  | mutexLock m => exact keepsOutside_waitStep mem_returnDone h
  | mutexUnlock m => exact keepsOutside_postStep mem_returnDone h
  | barrierInit b capacity => exact keepsOutside_execBarrierInit h
  | barrierEnter b => exact keepsOutside_execBarrierEnter h
  | _ => exact keepsOutside_of_mem ((exec_changes _ h).mem (by simp [changesOf])) _

end Sys2Proof.Machine

open Sys2Proof Sys2Proof.Machine

/-- Settles O52. -/
theorem onlyTheStoredBytesChange : Obligations.OnlyTheStoredBytesChange := fun i _ _ h => exec_keepsOutside i h

/-- Settles O53. -/
theorem otherWorkerUntouched : Obligations.OtherWorkerUntouched := by
  intro i s t h
  obtain ⟨k, hframe⟩ := exec_frame i h
  obtain ⟨hsched, hturns, hactive⟩ := hframe .schedule (by simp)
  exact ⟨hframe.worker (by cases s.active <;> simp [otherWorker]), hframe.plat (by simp), hactive, hsched, hturns⟩

/-- Settles O56. -/
theorem resetState : Obligations.ResetState := by
  refine ⟨fun k => ?_, rfl, rfl, rfl, fun w => ?_, rfl, rfl, rfl, rfl, rfl⟩
  · cases k <;> exact ⟨rfl, rfl, rfl, rfl, rfl, rfl, rfl⟩
  · cases w <;> exact ⟨rfl, rfl⟩

end

section
/-! The records of one step (60_exceptions.md section 1) and the ends of the channels (R135, 10_state.md section 3). -/

namespace Sys2Proof.Machine

variable {s t : State} {k : InstId}

/-! ### Transactions of an accelerator, by offset -/

theorem accWrite_eq (k : InstId) (off w : Word) (s : State) : accWrite k off w s =
    if off = 0x00 then writeA k w s else if off = 0x04 then writeB k w s else if off = 0x08 then writeZ k w s
    else badWrite k off s := by
  simp only [accWrite, accOp]
  split_ifs <;> rfl

theorem accRead_eq (k : InstId) (off : Word) (s : State) : accRead k off s =
    if off = 0x0c then readA k s else if off = 0x10 then readB k s else if off = 0x14 then readZ k s
    else some (badRead k off s) := by
  simp only [accRead, accOp]
  split_ifs <;> rfl

/-! ### At most one record -/

theorem log_accWrite (k : InstId) (off w : Word) (s : State) : (accWrite k off w s).log = s.log ∨
    (accWrite k off w s).log = s.log ++ [⟨k, off, .write⟩] ∧ decodeAcc k .write off w = .badWr k off w := by
  rw [accWrite_eq]
  split_ifs with hA hB hZ
  · exact .inl ((frame_writeA k w s).log (by simp))
  · exact .inl ((frame_writeB k w s).log (by simp))
  · exact .inl ((frame_writeZ k w s).log (by simp))
  · exact .inr ⟨rfl, (decodeAcc_write_eq_badWr_iff k off w).2 ⟨hA, hB, hZ⟩⟩

theorem log_accRead {off w : Word} (h : accRead k off s = some (w, t)) : t.log = s.log ∨
    t.log = s.log ++ [⟨k, off, .read⟩] ∧ decodeAcc k .read off 0 = .badRd k off := by
  rw [accRead_eq] at h
  split_ifs at h with hA hB hZ
  · obtain ⟨_, _, _, _, rfl⟩ := readA_some h
    exact .inl (by simp)
  · obtain ⟨_, _, _, _, rfl⟩ := readB_some h
    exact .inl (by simp)
  · obtain ⟨_, _, _, _, rfl⟩ := readZ_some h
    exact .inl (by simp)
  · cases h
    exact .inr ⟨by simp, (decodeAcc_read_eq_badRd_iff k off 0).2 ⟨hA, hB, hZ⟩⟩

/-- What a copy's read step did: it held, or it took a word from memory, or it was a transaction of an accelerator. -/
theorem copyReadStep_next (h : copyReadStep s = .next t) :
    t = s.goto .dmaOpCopy .copyRead ∨ (∃ w u, t = (u.setCopy { s.self.copy with buf := w }).goto .dmaOpCopy .copyWrite ∧
      (u = s ∨ ∃ k, s.plat.deviceAt (s.self.copy.src.toNat + s.self.copy.done) = .acc k ∧
        accRead k (BitVec.ofNat 32 (s.self.copy.src.toNat + s.self.copy.done - (s.plat.accBase k).toNat)) s =
          some (w, u))) := by
  simp only [copyReadStep] at h
  split at h
  · cases h
  · cases h
    exact .inl rfl
  · rename_i w u hread
    cases h
    refine .inr ⟨w, u, rfl, ?_⟩
    rcases busRead4_some hread with ⟨_, _, rfl⟩ | haccess
    · exact .inl rfl
    · exact .inr haccess

/-- What a copy's write step did: it stored a word in memory, or it was a transaction of an accelerator. -/
theorem copyWriteStep_next (h : copyWriteStep s = .next t) :
    ∃ u, t = u.copied 4 .copyRead ∧ (u = s.storeWord (s.self.copy.dst.toNat + s.self.copy.done) s.self.copy.buf ∨
      ∃ k, s.plat.deviceAt (s.self.copy.dst.toNat + s.self.copy.done) = .acc k ∧ u = accWrite k
        (BitVec.ofNat 32 (s.self.copy.dst.toNat + s.self.copy.done - (s.plat.accBase k).toNat)) s.self.copy.buf s) := by
  simp only [copyWriteStep] at h
  split at h <;> cases h
  rename_i u hwrite
  refine ⟨u, rfl, ?_⟩
  rcases busWrite4_ok hwrite with ⟨_, rfl⟩ | haccess
  · exact .inl rfl
  · exact .inr haccess

theorem log_copied (u : State) (n : Nat) (l : Label) : (u.copied n l).log = u.log := (frame_copied u n l).log (by simp)
theorem inst_copied (u : State) (n : Nat) (l : Label) (k : InstId) : (u.copied n l).inst k = u.inst k :=
  (frame_copied u n l).inst (by simp)

end Sys2Proof.Machine

open Sys2Proof Sys2Proof.Machine

/-- Settles O55. Only two operations log, and a copy's word logs as the accelerator it is a transaction of. -/
theorem atMostOneDiagnostic : Obligations.AtMostOneDiagnostic := by
  intro i s t h
  cases i with
  | badWr k off w =>
    cases (exec_badWr k off w s).symm.trans h
    exact .inr ⟨k, off, .write, by simp, .inl ⟨rfl, w, rfl⟩⟩
  | badRd k off =>
    cases (exec_badRd k off s).symm.trans h
    exact .inr ⟨k, off, .read, by simp, .inr (.inl ⟨rfl, rfl⟩)⟩
  | dmaOpCopy =>
    rcases execDmaOpCopy_cases s with ⟨_, e⟩ | ⟨hpc, e⟩ | ⟨hpc, e⟩ | ⟨_, _, _, e⟩ <;> replace h := e.symm.trans h
    · exact .inl ((frame_copyByteStep h).log (by simp))
    · rcases copyReadStep_next h with rfl | ⟨w, u, rfl, rfl | ⟨k, hk, hread⟩⟩
      · exact .inl (by simp)
      · exact .inl (by simp)
      · rcases log_accRead hread with hlog | ⟨hlog, hdecode⟩
        · exact .inl (by simpa using hlog)
        · exact .inr ⟨k, _, .read, by simpa using hlog, .inr (.inr (.inl ⟨rfl, rfl, hpc, hk, rfl, hdecode⟩))⟩
    · obtain ⟨u, rfl, rfl | ⟨k, hk, rfl⟩⟩ := copyWriteStep_next h <;> rw [log_copied]
      · exact .inl (by simp)
      · rcases log_accWrite k (BitVec.ofNat 32 (s.self.copy.dst.toNat + s.self.copy.done - (s.plat.accBase k).toNat))
          s.self.copy.buf s with hlog | ⟨hlog, hdecode⟩
        · exact .inl hlog
        · exact .inr ⟨k, _, .write, hlog, .inr (.inr (.inr ⟨rfl, rfl, hpc, hk, rfl, hdecode⟩))⟩
    · exact .inl ((frame_copyStart h).log (by simp))
  | _ => exact .inl ((exec_changes _ h).log (by simp [changesOf]))

namespace Sys2Proof.Machine

variable {s t : State} {k : InstId}

/-! ### The ends of the channels -/

/-- From `v` to `v'` elements were only added to input channels and only taken from output channels. -/
structure KeepsEnds (v v' : Accel) : Prop where
  inA : v.inA <+: v'.inA
  inB : v.inB <+: v'.inB
  inZ : v.inZ <+: v'.inZ
  outA : v'.outA <:+ v.outA
  outB : v'.outB <:+ v.outB
  outZ : v'.outZ <:+ v.outZ

/-- From `v` to `v'` no output channel changed. -/
def KeepsOuts (v v' : Accel) : Prop := v'.outA = v.outA ∧ v'.outB = v.outB ∧ v'.outZ = v.outZ

theorem KeepsEnds.of_eq {v v' : Accel} (h : v' = v) : KeepsEnds v v' := by
  rw [h]
  exact ⟨List.prefix_rfl, List.prefix_rfl, List.prefix_rfl, List.suffix_rfl, List.suffix_rfl, List.suffix_rfl⟩

theorem KeepsOuts.of_eq {v v' : Accel} (h : v' = v) : KeepsOuts v v' := by rw [h]; exact ⟨rfl, rfl, rfl⟩

/-- Only one accelerator matters where the others are left alone. -/
theorem KeepsEnds.of_frame {j : InstId} {l : List Part} (hframe : Frame s t l) (hl : Part.inst k ∈ l → k = j)
    (h : KeepsEnds (s.inst j) (t.inst j)) : KeepsEnds (s.inst k) (t.inst k) := by
  by_cases hk : Part.inst k ∈ l
  · rw [hl hk]
    exact h
  · exact of_eq (hframe.inst hk)

theorem KeepsOuts.of_frame {j : InstId} {l : List Part} (hframe : Frame s t l) (hl : Part.inst k ∈ l → k = j)
    (h : KeepsOuts (s.inst j) (t.inst j)) : KeepsOuts (s.inst k) (t.inst k) := by
  by_cases hk : Part.inst k ∈ l
  · rw [hl hk]
    exact h
  · exact of_eq (hframe.inst hk)

/-- An operand write adds one element to one input channel. -/
theorem keepsEnds_writeA (k : InstId) (w : Word) (s : State) : KeepsEnds (s.inst k) ((writeA k w s).inst k) := by
  rw [inst_writeA]
  exact { KeepsEnds.of_eq rfl with inA := List.prefix_append _ _ }
theorem keepsEnds_writeB (k : InstId) (w : Word) (s : State) : KeepsEnds (s.inst k) ((writeB k w s).inst k) := by
  rw [inst_writeB]
  exact { KeepsEnds.of_eq rfl with inB := List.prefix_append _ _ }
theorem keepsEnds_writeZ (k : InstId) (w : Word) (s : State) : KeepsEnds (s.inst k) ((writeZ k w s).inst k) := by
  rw [inst_writeZ]
  exact { KeepsEnds.of_eq rfl with inZ := List.prefix_append _ _ }

theorem keepsOuts_writeA (k : InstId) (w : Word) (s : State) : KeepsOuts (s.inst k) ((writeA k w s).inst k) := by
  rw [inst_writeA]
  exact ⟨rfl, rfl, rfl⟩
theorem keepsOuts_writeB (k : InstId) (w : Word) (s : State) : KeepsOuts (s.inst k) ((writeB k w s).inst k) := by
  rw [inst_writeB]
  exact ⟨rfl, rfl, rfl⟩
theorem keepsOuts_writeZ (k : InstId) (w : Word) (s : State) : KeepsOuts (s.inst k) ((writeZ k w s).inst k) := by
  rw [inst_writeZ]
  exact ⟨rfl, rfl, rfl⟩

/-- A completed read takes the head of one output channel. -/
theorem keepsEnds_readA {w : Word} (h : readA k s = some (w, t)) : KeepsEnds (s.inst k) (t.inst k) := by
  obtain ⟨r, rest, hout, _, rfl⟩ := readA_some h
  rw [State.inst_setInst_same]
  exact { KeepsEnds.of_eq rfl with outA := hout ▸ List.suffix_cons r rest }
theorem keepsEnds_readB {w : Word} (h : readB k s = some (w, t)) : KeepsEnds (s.inst k) (t.inst k) := by
  obtain ⟨r, rest, hout, _, rfl⟩ := readB_some h
  rw [State.inst_setInst_same]
  exact { KeepsEnds.of_eq rfl with outB := hout ▸ List.suffix_cons r rest }
theorem keepsEnds_readZ {w : Word} (h : readZ k s = some (w, t)) : KeepsEnds (s.inst k) (t.inst k) := by
  obtain ⟨r, rest, hout, _, rfl⟩ := readZ_some h
  rw [State.inst_setInst_same]
  exact { KeepsEnds.of_eq rfl with outZ := hout ▸ List.suffix_cons r rest }

theorem keepsEnds_finishRead {i : Instr} {r : Option (Word × State)}
    (hr : ∀ w u, r = some (w, u) → KeepsEnds (s.inst k) (u.inst k)) (h : finishRead i s r = .next t) :
    KeepsEnds (s.inst k) (t.inst k) := by
  rcases r with _ | ⟨w, u⟩ <;> cases h
  · exact .of_eq (s.inst_goto k i .start)
  · rw [State.inst_retire]
    exact hr w u rfl

theorem keepsEnds_accWrite (k : InstId) (off w : Word) (s : State) :
    KeepsEnds (s.inst k) ((accWrite k off w s).inst k) := by
  rcases accWrite_cases k off w s with e | e | e | e <;> rw [e]
  · exact keepsEnds_writeA k w s
  · exact keepsEnds_writeB k w s
  · exact keepsEnds_writeZ k w s
  · exact .of_eq ((frame_badWrite k off s).inst (by simp))

theorem keepsEnds_accRead {off w : Word} (h : accRead k off s = some (w, t)) : KeepsEnds (s.inst k) (t.inst k) := by
  rcases accRead_cases k off s with e | e | e | e <;> rw [e] at h
  · exact keepsEnds_readA h
  · exact keepsEnds_readB h
  · exact keepsEnds_readZ h
  · cases h
    exact .of_eq ((frame_badRead k off s).inst (by simp))

theorem keepsEnds_execDmaOpCopy (h : execDmaOpCopy s = .next t) (k : InstId) : KeepsEnds (s.inst k) (t.inst k) := by
  rcases execDmaOpCopy_cases s with ⟨_, e⟩ | ⟨_, e⟩ | ⟨_, e⟩ | ⟨_, _, _, e⟩ <;> rw [e] at h
  · exact .of_eq ((frame_copyByteStep h).inst (by simp))
  · rcases copyReadStep_next h with rfl | ⟨w, u, rfl, rfl | ⟨j, _, hread⟩⟩
    · exact .of_eq (by simp)
    · exact .of_eq (by simp)
    · simpa using KeepsEnds.of_frame (frame_accRead hread) (by simp) (keepsEnds_accRead hread)
  · obtain ⟨u, rfl, rfl | ⟨j, _, rfl⟩⟩ := copyWriteStep_next h <;> rw [inst_copied]
    · exact .of_eq (by simp)
    · exact .of_frame (frame_accWrite j _ _ s) (by simp) (keepsEnds_accWrite j _ _ s)
  · exact .of_eq ((frame_copyStart h).inst (by simp))

/-- No operation but the engine's own step touches the far ends of an accelerator's channels. -/
theorem exec_keepsEnds (i : Instr) (h : exec i s = .next t) (hi : i ≠ .engineStep k) :
    KeepsEnds (s.inst k) (t.inst k) := by
  cases i with
  | wrA j w =>
    cases (exec_wrA j w s).symm.trans h
    simpa using KeepsEnds.of_frame (frame_writeA j w s) (by simp) (keepsEnds_writeA j w s)
  | wrB j w =>
    cases (exec_wrB j w s).symm.trans h
    simpa using KeepsEnds.of_frame (frame_writeB j w s) (by simp) (keepsEnds_writeB j w s)
  | wrZ j w =>
    cases (exec_wrZ j w s).symm.trans h
    simpa using KeepsEnds.of_frame (frame_writeZ j w s) (by simp) (keepsEnds_writeZ j w s)
  | rdA j =>
    exact .of_frame (exec_changes _ h) (by simp [changesOf]) (keepsEnds_finishRead (fun _ _ => keepsEnds_readA) h)
  | rdB j =>
    exact .of_frame (exec_changes _ h) (by simp [changesOf]) (keepsEnds_finishRead (fun _ _ => keepsEnds_readB) h)
  | rdZ j =>
    exact .of_frame (exec_changes _ h) (by simp [changesOf]) (keepsEnds_finishRead (fun _ _ => keepsEnds_readZ) h)
  | engineStep j => exact .of_eq ((exec_changes _ h).inst (by simpa [changesOf, eq_comm] using hi))
  | dmaOpCopy => exact keepsEnds_execDmaOpCopy h k
  | _ => exact .of_eq ((exec_changes _ h).inst (by simp [changesOf]))

/-- No operation but the engine's own step, a read and a copy touches an output channel. -/
theorem exec_keepsOuts (i : Instr) (h : exec i s = .next t) (hi : i ≠ .engineStep k) (hA : i ≠ .rdA k)
    (hB : i ≠ .rdB k) (hZ : i ≠ .rdZ k) (hcopy : i ≠ .dmaOpCopy) : KeepsOuts (s.inst k) (t.inst k) := by
  cases i with
  | wrA j w =>
    cases (exec_wrA j w s).symm.trans h
    simpa using KeepsOuts.of_frame (frame_writeA j w s) (by simp) (keepsOuts_writeA j w s)
  | wrB j w =>
    cases (exec_wrB j w s).symm.trans h
    simpa using KeepsOuts.of_frame (frame_writeB j w s) (by simp) (keepsOuts_writeB j w s)
  | wrZ j w =>
    cases (exec_wrZ j w s).symm.trans h
    simpa using KeepsOuts.of_frame (frame_writeZ j w s) (by simp) (keepsOuts_writeZ j w s)
  | rdA j => exact .of_eq ((exec_changes _ h).inst (by simpa [changesOf, eq_comm] using hA))
  | rdB j => exact .of_eq ((exec_changes _ h).inst (by simpa [changesOf, eq_comm] using hB))
  | rdZ j => exact .of_eq ((exec_changes _ h).inst (by simpa [changesOf, eq_comm] using hZ))
  | engineStep j => exact .of_eq ((exec_changes _ h).inst (by simpa [changesOf, eq_comm] using hi))
  | dmaOpCopy => exact absurd rfl hcopy
  | _ => exact .of_eq ((exec_changes _ h).inst (by simp [changesOf]))

end Sys2Proof.Machine

/-- Settles O54. -/
theorem channelsHaveTheirOwnEnds : Obligations.ChannelsHaveTheirOwnEnds := by
  intro i k s t h hi
  obtain ⟨inA, inB, inZ, outA, outB, outZ⟩ := exec_keepsEnds i h hi
  exact ⟨inA, inB, inZ, outA, outB, outZ, exec_keepsOuts i h hi⟩
end

section
/-! Endless runs whose schedule is weakly fair: an enabled engine process takes its step, and a read that waits for its
result returns it (43_sync_primitives.md section 5, R153). -/

namespace Sys2Proof.Machine

variable {s t : State} {k : InstId}

/-! ### What a turn can change, by agent -/

/-- The parts of the state that the turn of an agent can change. -/
def turnChanges : Agent → List Part
  | .engine k => [.inst k, .schedule]
  | .worker w => [.inst .acc0, .inst .acc1, .memory, .semWords, .barriers, .dma, .log, .draws, .worker w, .schedule]

theorem frame_tick (s : State) : Frame s s.tick [.schedule] := fun p hp => by
  cases p with
  | schedule => simp at hp
  | _ => simp [samePart]

theorem frame_turn (s : State) (w : WorkerId) : Frame s (s.tick.setActive w) [.schedule] := fun p hp => by
  cases p with
  | schedule => simp at hp
  | _ => simp [samePart]

theorem exec_turnChanges {i : Instr} {w : WorkerId} (hw : s.active = w) (h : exec i s = .next t) :
    Frame s t (turnChanges (.worker w)) := by
  subst hw
  obtain ⟨k, hframe⟩ := exec_frame i h
  cases k <;> exact hframe.mono (by simp [turnChanges])

theorem step_turnChanges (h : step s = .next t) : Frame s t (turnChanges s.nextAgent) := by
  rcases step_next h with ⟨k, hk, h⟩ | ⟨w, hw, rfl | ⟨i, _, h⟩ | ⟨r, rest, _, _, ⟨i, _, h⟩ | ⟨_, _, _, _, h⟩⟩⟩
  · rw [hk]
    exact ((frame_tick s).mono (by simp [turnChanges])).trans ((frame_execEngineStep k h).mono (by simp [turnChanges]))
  · rw [hw]
    exact (frame_turn s w).mono (by simp [turnChanges])
  · rw [hw]
    exact ((frame_turn s w).mono (by simp [turnChanges])).trans (exec_turnChanges rfl h)
  · rw [hw]
    exact ((frame_taken s w _).mono (by simp [turnChanges])).trans (exec_turnChanges (by simp) h)
  · rw [hw]
    exact ((frame_taken s w _).mono (by simp [turnChanges])).trans
      ((frame_memoryAccess h).mono (by simp [turnChanges]))

/-- No engine step is a worker's (R130). -/
theorem Worker.cur_ne_engineStep {v : Worker} {i : Instr} (hv : v.wf = true) (hc : v.cur = some i) :
    i ≠ .engineStep k := by
  rintro rfl
  simp only [Worker.wf, Worker.issuable, hc, Bool.and_eq_true] at hv
  cases k <;> simp at hv

/-- Only an accelerator's own engine process touches the far ends of its channels. -/
theorem step_keepsEnds (hinv : s.inv = true) (hne : s.nextAgent ≠ .engine k) (h : step s = .next t) :
    KeepsEnds (s.inst k) (t.inst k) := by
  rcases step_next h with ⟨j, hj, h⟩ | ⟨w, _, rfl | ⟨i, hc, h⟩ | ⟨r, rest, _, _, ⟨i, hi, h⟩ | ⟨_, _, _, _, h⟩⟩⟩
  · simpa using exec_keepsEnds (k := k) _ h fun e => hne (by cases e; exact hj)
  · exact .of_eq (by simp)
  · simpa using exec_keepsEnds (k := k) _ h (Worker.cur_ne_engineStep ((State.inv_iff.1 hinv).2 w) hc)
  · simpa using exec_keepsEnds _ h (hi k)
  · exact .of_eq (by simpa using (frame_memoryAccess h).inst (k := k) (by simp))

theorem Accel.engineEnabled_iff {v : Accel} : v.engineEnabled = true ↔ v.inA ≠ [] ∧ v.inB ≠ [] ∧ v.inZ ≠ [] := by
  simp [Accel.engineEnabled, and_assoc]

/-- An engine whose input channels are only added to stays enabled. -/
theorem KeepsEnds.engineEnabled {v v' : Accel} (h : KeepsEnds v v') (hv : v.engineEnabled = true) :
    v'.engineEnabled = true := by
  obtain ⟨hA, hB, hZ⟩ := Accel.engineEnabled_iff.1 hv
  exact Accel.engineEnabled_iff.2 ⟨h.inA.ne_nil hA, h.inB.ne_nil hB, h.inZ.ne_nil hZ⟩

/-- The engine's step makes the accelerator what `stepEngine` makes of it, or leaves it as it is. -/
theorem inst_execEngineStep (h : exec (.engineStep k) s = .next t) :
    t.inst k = ((s.inst k).stepEngine s.plat.engine).getD (s.inst k) := by
  cases hstep : (s.inst k).stepEngine s.plat.engine with
  | none =>
    cases (exec_engineStep_of_none hstep).symm.trans h
    rfl
  | some v =>
    cases (exec_engineStep_of_some hstep).symm.trans h
    exact s.inst_setInst_same k v

/-! ### One turn of a run -/

section Runs

variable {g : Nat → Agent} {e : Nat → WorkerId → List Request} {σ : Nat → State} {n : Nat}

theorem IsRun.inv (h : IsRun g e σ) (h0 : (σ 0).inv = true) (n : Nat) : (σ n).inv = true := by
  induction n with
  | zero => exact h0
  | succ n ih =>
    obtain ⟨t, ht, hσ⟩ := h n
    have hstart : ({ σ n with sched := g n :: (σ n).sched } : State).inv = true := ih
    have hkept : t.inv = true := invariantKeptByStep _ _ hstart ht
    rw [hσ]
    exact hkept

theorem IsRun.keepsEnds (h : IsRun g e σ) (h0 : (σ 0).inv = true) (hne : g n ≠ .engine k) :
    KeepsEnds ((σ n).inst k) ((σ (n + 1)).inst k) := by
  obtain ⟨t, ht, hσ⟩ := h n
  rw [hσ, State.inst_supplied]
  have hstart : ({ σ n with sched := g n :: (σ n).sched } : State).inv = true := h.inv h0 n
  exact step_keepsEnds (s := { σ n with sched := g n :: (σ n).sched }) hstart hne ht

theorem IsRun.inst_engine_other (h : IsRun g e σ) {j : InstId} (hg : g n = .engine j) (hj : j ≠ k) :
    (σ (n + 1)).inst k = (σ n).inst k := by
  obtain ⟨t, ht, hσ⟩ := h n
  rw [hσ, State.inst_supplied]
  exact (step_turnChanges ht).inst (by simpa [turnChanges, State.nextAgent, hg, eq_comm] using hj)

theorem IsRun.plat (h : IsRun g e σ) (n : Nat) : (σ (n + 1)).plat = (σ n).plat := by
  obtain ⟨t, ht, hσ⟩ := h n
  rw [hσ, State.plat_supplied]
  exact (step_turnChanges ht).plat (by cases hk : g n <;> simp [turnChanges, State.nextAgent])

/-- The engine's turn in a run. -/
theorem IsRun.inst_engine (h : IsRun g e σ) (hg : g n = .engine k) : (σ (n + 1)).inst k =
    (((σ n).inst k).stepEngine (σ n).plat.engine).getD ((σ n).inst k) := by
  obtain ⟨t, ht, hσ⟩ := h n
  rw [hg, stepOf_engine] at ht
  rw [hσ, State.inst_supplied, inst_execEngineStep ht]
  cases k <;> rfl

/-- Another agent's turn leaves a worker as it was, but for what it is to issue. -/
theorem IsRun.worker_other (h : IsRun g e σ) {w : WorkerId} (hne : g n ≠ .worker w) :
    ((σ (n + 1)).worker w).cur = ((σ n).worker w).cur ∧
      ((σ (n + 1)).worker w).returned = ((σ n).worker w).returned := by
  obtain ⟨t, ht, hσ⟩ := h n
  have hworker : t.worker w = (σ n).worker w :=
    (step_turnChanges ht).worker (by cases hg : g n <;> simp_all [turnChanges, State.nextAgent, eq_comm])
  simp [hσ, hworker]

/-- In the turn of a worker whose outstanding operation can go on, it does. -/
theorem IsRun.outstanding (h : IsRun g e σ) {w : WorkerId} {i : Instr} (hg : g n = .worker w)
    (hc : ((σ n).worker w).cur = some i) (hb : (σ n).busStopped w = false) :
    ∃ u t, (∀ k, u.inst k = (σ n).inst k) ∧ u.self = (σ n).worker w ∧ u.active = w ∧ exec i u = .next t ∧
      σ (n + 1) = t.supplied (e n) := by
  obtain ⟨t, ht, hσ⟩ := h n
  have hplan : plan { σ n with sched := g n :: (σ n).sched } =
      .run i (({ σ n with sched := g n :: (σ n).sched } : State).tick.setActive w) := plan_of_outstanding hg hc hb
  exact ⟨_, t, fun k => by cases k <;> rfl, by cases w <;> rfl, rfl, (step_of_plan_run hplan).symm.trans ht, hσ⟩

end Runs

/-! ### The three result registers -/

/-- The result registers of an accelerator (R124, R125, R129). -/
inductive ResultRegister where
  | a
  | b
  | z

namespace ResultRegister

/-- The read of the register. -/
def read : ResultRegister → InstId → Instr
  | a, k => .rdA k
  | b, k => .rdB k
  | z, k => .rdZ k

/-- The channel the register is read from. -/
def channel : ResultRegister → Accel → List Fx
  | a, v => v.outA
  | b, v => v.outB
  | z, v => v.outZ

/-- The component of a result triple that goes to the channel. -/
def part : ResultRegister → Triple → Fx
  | a, r => r.x
  | b, r => r.y
  | z, r => r.t

/-- The fractional bits of the channel's elements. -/
def fraction : ResultRegister → Nat
  | a | b => 8
  | z => 7

variable {ρ : ResultRegister}

theorem channel_suffix {v v' : Accel} (h : KeepsEnds v v') (ρ : ResultRegister) : ρ.channel v' <:+ ρ.channel v := by
  cases ρ with
  | a => exact h.outA
  | b => exact h.outB
  | z => exact h.outZ

/-- The engine's step adds to the channel its component of the rotation of the three heads. -/
theorem channel_stepEngine {c : EngineConfig} {v v' : Accel} (h : v.stepEngine c = some v') (ρ : ResultRegister) :
    ∃ x y t0 as bs zs, v.inA = x :: as ∧ v.inB = y :: bs ∧ v.inZ = t0 :: zs ∧
      ρ.channel v' = ρ.channel v ++ [ρ.part (rotate c x y t0 false)] := by
  simp only [Accel.stepEngine] at h
  split at h <;> cases h
  rename_i x as y bs t0 zs hA hB hZ
  exact ⟨x, y, t0, as, bs, zs, hA, hB, hZ, by cases ρ <;> rfl⟩

theorem blockedRead {w : WorkerId} (h : (s.worker w).cur = some (ρ.read k)) :
    s.blockedRead w = (ρ.channel (s.inst k)).isEmpty := by
  cases ρ <;> simp only [State.blockedRead, h, read, channel]

/-- A read of an empty channel holds. -/
theorem exec_read_nil (h : ρ.channel (s.inst k) = []) : ∃ t, exec (ρ.read k) s = .next t ∧
    staysAt s t (ρ.read k) .start ∧ Frame s t [.worker s.active] := by
  cases ρ with
  | a => exact finishRead_holds (readA_nil h) rfl
  | b => exact finishRead_holds (readB_nil h) rfl
  | z => exact finishRead_holds (readZ_nil h) rfl

/-- A read of a channel that holds an element returns its head. -/
theorem exec_read_cons {r : Fx} {rest : List Fx} (h : ρ.channel (s.inst k) = r :: rest) :
    ∃ t, exec (ρ.read k) s = .next t ∧ returns s t (.word (widen ρ.fraction r)) ∧
      Frame s t [.inst k, .worker s.active] := by
  cases ρ with
  | a =>
    obtain ⟨t, ht, hret, _, hframe⟩ := finishRead_takes (i := .rdA k) (readA_cons h) rfl
    exact ⟨t, ht, hret, hframe⟩
  | b =>
    obtain ⟨t, ht, hret, _, hframe⟩ := finishRead_takes (i := .rdB k) (readB_cons h) rfl
    exact ⟨t, ht, hret, hframe⟩
  | z =>
    obtain ⟨t, ht, hret, _, hframe⟩ := finishRead_takes (i := .rdZ k) (readZ_cons h) rfl
    exact ⟨t, ht, hret, hframe⟩

end ResultRegister

/-! ### A read that waits for the engine -/

section Fair

variable {g : Nat → Agent} {e : Nat → WorkerId → List Request} {σ : Nat → State} {n : Nat}
  {ρ : ResultRegister} {w : WorkerId} {c : EngineConfig} {x y t0 r : Fx} {R : List Ret}

/-- Worker `w` waits at an empty result register for the rotation of the three heads. -/
structure AwaitsEngine (ρ : ResultRegister) (k : InstId) (w : WorkerId) (c : EngineConfig) (x y t0 : Fx) (R : List Ret)
    (s : State) : Prop where
  engine : s.plat.engine = c
  headA : [x] <+: (s.inst k).inA
  headB : [y] <+: (s.inst k).inB
  headZ : [t0] <+: (s.inst k).inZ
  empty : ρ.channel (s.inst k) = []
  cur : (s.worker w).cur = some (ρ.read k)
  returned : (s.worker w).returned = R

/-- Worker `w` has a read outstanding whose channel begins with `r`. -/
structure ReadReady (ρ : ResultRegister) (k : InstId) (w : WorkerId) (r : Fx) (R : List Ret) (s : State) : Prop where
  head : [r] <+: ρ.channel (s.inst k)
  cur : (s.worker w).cur = some (ρ.read k)
  returned : (s.worker w).returned = R

theorem AwaitsEngine.engineEnabled (h : AwaitsEngine ρ k w c x y t0 R s) : (s.inst k).engineEnabled = true :=
  Accel.engineEnabled_iff.2
    ⟨h.headA.ne_nil (by simp), h.headB.ne_nil (by simp), h.headZ.ne_nil (by simp)⟩

/-- Until the engine has its turn the wait goes on. -/
theorem AwaitsEngine.next (hrun : IsRun g e σ) (h0 : (σ 0).inv = true) (hb : (σ n).busStopped w = false)
    (h : AwaitsEngine ρ k w c x y t0 R (σ n)) (hne : g n ≠ .engine k) :
    AwaitsEngine ρ k w c x y t0 R (σ (n + 1)) := by
  have hends := hrun.keepsEnds h0 hne
  have hworker : ((σ (n + 1)).worker w).cur = some (ρ.read k) ∧ ((σ (n + 1)).worker w).returned = R := by
    by_cases hg : g n = .worker w
    · obtain ⟨u, t, hinst, hself, hactive, ht, hσ⟩ := hrun.outstanding hg h.cur hb
      obtain ⟨t', ht', ⟨hcur, _, hret, _⟩, hframe⟩ := ResultRegister.exec_read_nil (s := u) (by rw [hinst]; exact h.empty)
      cases ht.symm.trans ht'
      have hw : t.worker w = t.self := by rw [State.self, hframe.active (by simp), hactive]
      exact ⟨by simpa [hσ, hw] using hcur, by simpa [hσ, hw, hret, hself] using h.returned⟩
    · obtain ⟨hcur, hret⟩ := hrun.worker_other hg
      exact ⟨hcur.trans h.cur, hret.trans h.returned⟩
  exact ⟨by rw [hrun.plat, h.engine], h.headA.trans hends.inA, h.headB.trans hends.inB, h.headZ.trans hends.inZ,
    List.suffix_nil.1 (h.empty ▸ ResultRegister.channel_suffix hends ρ), hworker.1, hworker.2⟩

/-- The engine's turn puts the result into the channel. -/
theorem AwaitsEngine.engine_turn (hrun : IsRun g e σ) (h : AwaitsEngine ρ k w c x y t0 R (σ n))
    (hg : g n = .engine k) : ReadReady ρ k w (ρ.part (rotate c x y t0 false)) R (σ (n + 1)) := by
  obtain ⟨as, hA⟩ := h.headA
  obtain ⟨bs, hB⟩ := h.headB
  obtain ⟨zs, hZ⟩ := h.headZ
  have hstep := stepEngine_cons (c := c) hA.symm hB.symm hZ.symm
  have hinst := hrun.inst_engine hg
  rw [h.engine, hstep, Option.getD_some] at hinst
  obtain ⟨hcur, hret⟩ := hrun.worker_other (n := n) (w := w) (by simp [hg])
  refine ⟨?_, hcur.trans h.cur, hret.trans h.returned⟩
  obtain ⟨x', y', t', as', bs', zs', hA', hB', hZ', hout⟩ := ResultRegister.channel_stepEngine hstep ρ
  cases hA.trans hA'
  cases hB.trans hB'
  cases hZ.trans hZ'
  rw [hinst, hout, h.empty]
  exact List.prefix_rfl

/-- Until the reader has its turn the result stays first in the channel. -/
theorem ReadReady.next (hrun : IsRun g e σ) (h : ReadReady ρ k w r R (σ n))
    (hother : g n = .worker (otherWorker w) → ρ.channel ((σ (n + 1)).inst k) = ρ.channel ((σ n).inst k))
    (hne : g n ≠ .worker w) : ReadReady ρ k w r R (σ (n + 1)) := by
  obtain ⟨hcur, hret⟩ := hrun.worker_other hne
  refine ⟨h.head.trans ?_, hcur.trans h.cur, hret.trans h.returned⟩
  cases hg : g n with
  | worker v =>
    have hv : v = otherWorker w := by
      rw [hg] at hne
      cases v <;> cases w <;> simp_all [otherWorker]
    rw [hother (by rw [hg, hv])]
  | engine j =>
    by_cases hj : j = k
    · rw [hrun.inst_engine (hj ▸ hg)]
      cases hstep : ((σ n).inst k).stepEngine (σ n).plat.engine with
      | none => exact List.prefix_rfl
      | some v =>
        obtain ⟨_, _, _, _, _, _, _, _, _, hout⟩ := ResultRegister.channel_stepEngine hstep ρ
        rw [Option.getD_some, hout]
        exact List.prefix_append _ _
    · rw [hrun.inst_engine_other hg hj]

/-- In its turn the reader returns the result. -/
theorem ReadReady.reader_turn (hrun : IsRun g e σ) (hb : (σ n).busStopped w = false)
    (h : ReadReady ρ k w r R (σ n)) (hg : g n = .worker w) : ((σ (n + 1)).worker w).cur = none ∧
      ((σ (n + 1)).worker w).returned = R ++ [.word (widen ρ.fraction r)] := by
  obtain ⟨rest, hrest⟩ := h.head
  obtain ⟨u, t, hinst, hself, hactive, ht, hσ⟩ := hrun.outstanding hg h.cur hb
  obtain ⟨t', ht', ⟨hret, hcur, _⟩, hframe⟩ := ResultRegister.exec_read_cons (s := u) (by rw [hinst]; exact hrest.symm)
  cases ht.symm.trans ht'
  have hw : t.worker w = t.self := by rw [State.self, hframe.active (by simp), hactive]
  exact ⟨by simpa [hσ, hw] using hcur, by simp [hσ, hw, hret, hself, h.returned]⟩

theorem ReadReady.workerEnabled (hb : s.busStopped w = false) (h : ReadReady ρ k w r R s) :
    s.agentEnabled (.worker w) = true := by
  have hne : ρ.channel (s.inst k) ≠ [] := h.head.ne_nil (by simp)
  simp [State.agentEnabled, State.workerEnabled, h.cur, hb, ResultRegister.blockedRead h.cur, hne]

/-- Under a weakly fair schedule an engine process that is enabled takes its turn. -/
theorem WeaklyFair.engine_takes (hrun : IsRun g e σ) (hfair : WeaklyFair g σ) (h0 : (σ 0).inv = true)
    (h : ((σ n).inst k).engineEnabled = true) :
    ∃ m, n ≤ m ∧ g m = .engine k ∧ ((σ m).inst k).engineEnabled = true :=
  hfair.takes (P := fun s => (s.inst k).engineEnabled = true) h (fun _ _ hm => hm)
    fun _ _ hm hne => (hrun.keepsEnds h0 hne).engineEnabled hm

/-- Under a weakly fair schedule a read that waits for the engine returns the rotation: first the engine has its turn,
then the reader. -/
theorem AwaitsEngine.returns (hrun : IsRun g e σ) (hfair : WeaklyFair g σ) (h0 : (σ 0).inv = true)
    (hb : ∀ m, n ≤ m → (σ m).busStopped w = false)
    (hother : ∀ m, n ≤ m → g m = .worker (otherWorker w) →
      ρ.channel ((σ (m + 1)).inst k) = ρ.channel ((σ m).inst k))
    (h : AwaitsEngine ρ k w c x y t0 R (σ n)) : ∃ m, n ≤ m ∧ ((σ m).worker w).cur = none ∧
      ((σ m).worker w).returned = R ++ [.word (widen ρ.fraction (ρ.part (rotate c x y t0 false)))] := by
  obtain ⟨m, hm, hgm, hwait⟩ := hfair.takes h (fun _ _ hs => hs.engineEnabled) (a := .engine k)
    fun m hm hs hne => hs.next hrun h0 (hb m hm) hne
  obtain ⟨p, hp, hgp, hready⟩ := hfair.takes (hwait.engine_turn hrun hgm) (a := .worker w)
    (fun p hp hs => hs.workerEnabled (hb p (by omega)))
    fun p hp hs hne => hs.next hrun (hother p (by omega)) hne
  exact ⟨p + 1, by omega, hready.reader_turn hrun (hb p (by omega)) hgp⟩

end Fair

end Sys2Proof.Machine

open Sys2Proof Sys2Proof.Machine

/-- Settles O59. -/
theorem enabledEngineIsTaken : Obligations.EnabledEngineIsTaken := by
  refine ⟨fun k s t hinv hen hne h => (step_keepsEnds hinv hne h).engineEnabled hen,
    fun g e σ hrun hfair h0 => ⟨fun k n hen => hfair.engine_takes hrun h0 hen, ?_⟩⟩
  intro k w n x y t0 as bs zs hA hB hZ hb
  have hreturns (ρ : ResultRegister) (hcur : ((σ n).worker w).cur = some (ρ.read k))
      (hempty : ρ.channel ((σ n).inst k) = []) :=
    AwaitsEngine.returns (x := x) (y := y) (t0 := t0) hrun hfair h0 hb
      (h := ⟨rfl, ⟨as, hA.symm⟩, ⟨bs, hB.symm⟩, ⟨zs, hZ.symm⟩, hempty, hcur, rfl⟩)
  exact ⟨fun hcur hempty hother => hreturns .a hcur hempty hother,
    fun hcur hempty hother => hreturns .b hcur hempty hother,
    fun hcur hempty hother => hreturns .z hcur hempty hother⟩
end
